-- ==== Sys2Proof/Word.lean ====
section
/-!
DEFINITION. The word types of the block (spec/00_scope.md R8, R9, R11; spec/30_encoding.md R70). The words and
offsets of the register bus have the widths `REG_BITS`, `HALF` and `ADDR_BITS`, which are parameters (R8), so that they
have no type here: they are natural numbers, which the operations of Machine/ keep below the powers of two that those
widths give. The other widths are the spec's own (spec/92_eei_decisions.md D6, D8).
-/

namespace Sys2Proof

/-- One byte of the register space, in the little-endian labelling of R58. -/
abbrev Byte := BitVec 8

/-- A host command word (R71). -/
abbrev CmdWord := BitVec 32

/-- The result word and the STATUS view, as the host reads them (R27, R75). -/
abbrev HostWord := BitVec 32

/-- A micro-operation word of a fixed image (R76). -/
abbrev UopWord := BitVec 16

/-- A field identifier (R80). -/
abbrev FieldId := BitVec 8

end Sys2Proof
end

