-- ==== Sys2Proof/Syntax.lean ====
section
/-!
DEFINITION. The identifier spaces (spec/30_encoding.md R74, R75, R79, R81, R82) and the instructions: the
four host commands (R72) and the ten micro-operations (R77), one constructor per row of spec/opcode_table.json.
-/

namespace Sys2Proof

/-- The recorded protocol type (R2, R21, R74). -/
inductive ProtoType where
  | unassigned
  | pcie
  | usb3
  deriving DecidableEq, Repr

/-- The sequencer states (R22, R79). -/
inductive SeqState where
  | idle
  | poweringOn
  | configuring
  | waitingPllLock
  | waitingLaneReady
  | ready
  | exiting
  deriving DecidableEq, Repr

/-- The reset lines (R19, R81, R170). -/
inductive ResetLine where
  | ctrl
  | por
  | regbus
  | datapath
  deriving DecidableEq, Repr

/-- The kinds of the DELAY micro-operation (R82). -/
inductive DelayKind where
  | settle
  | prelockPcie
  | prelockUsb3
  deriving DecidableEq, Repr

/-- The error taxonomy (R250). -/
inductive ErrorCode where
  | invalidType
  | typeConflict
  | typeMismatch
  | unsupportedClockRate
  | pllLockTimeout
  | laneReadyTimeout
  | registerError
  | resourceUnavailable
  deriving DecidableEq, Repr

/-- What `RESULT` holds (R23, R75): success, or the error of the taxonomy. -/
inductive ResultCode where
  | ok
  | error (e : ErrorCode)
  deriving DecidableEq, Repr

/-- The two legal timeout codes of POLL (R78). -/
inductive TimeoutCode where
  | pllLock
  | laneReady
  deriving DecidableEq, Repr

/-- The fixed images (R28, R190). -/
inductive RomSel where
  | pcie
  | usb3
  | exit
  | cmpl
  deriving DecidableEq, Repr

/-- The host commands by name, as the `Result(cmd, code)` event carries them (R16). -/
inductive HostCmd where
  | assignType
  | init
  | exit
  | complianceTest
  deriving DecidableEq, Repr

/-- The instructions of the block. -/
inductive Instr where
  /-- ASSIGN_TYPE t (R221); every 8-bit `t` is an encoding (R73). -/
  | assignType (t : BitVec 8)
  /-- INIT (R223). -/
  | init
  /-- EXIT (R225). -/
  | exit
  /-- COMPLIANCE_TEST (R226). -/
  | complianceTest
  /-- END (R193). -/
  | endOp
  /-- SETST S (R192). -/
  | setst (st : SeqState)
  /-- RSTA L (R171). -/
  | rsta (l : ResetLine)
  /-- RSTD L (R172). -/
  | rstd (l : ResetLine)
  /-- CLKEN (R174). -/
  | clken
  /-- CLKDIS (R175). -/
  | clkdis
  /-- DELAY K (R177). -/
  | delay (k : DelayKind)
  /-- WRF F, E (R100). -/
  | wrf (f : FieldId) (e : Bool)
  /-- POLL F, C (R120). -/
  | poll (f : FieldId) (c : TimeoutCode)
  /-- HOOK (R151). -/
  | hook
  deriving DecidableEq, Repr

end Sys2Proof
end

