-- ==== Sys2Proof/Config.lean ====
section
/-!
DEFINITION. The parameters an implementation fixes (spec/00_scope.md R8; spec/43_variant_config.md R140) as
plain data, the answers of the environment (R15), and the free values.
-/

namespace Sys2Proof

/-- The widths of the register bus (R8), with the values the spec gives them as defaults (spec/92_eei_decisions.md
D2, D3; spec/93_implementation_defined.md I1). -/
structure Widths where
  /-- `REG_BITS`, the width of one register and of one bus transaction. -/
  regBits : Nat := 32
  /-- `HALF`, the width of the data half and of the mask half of a masked write. -/
  half : Nat := 16
  /-- `ADDR_BITS`, the width of a register offset. -/
  addrBits : Nat := 32
  deriving DecidableEq, Repr

/-- One bitfield description (R30). The offset is bounded by check WF4, the values are natural numbers, bounded by
check WF2 (R143). -/
structure RegisterField where
  offset : Nat
  bitStart : Nat
  bitEnd : Nat
  disableValue : Nat
  enableValue : Nat
  deriving DecidableEq, Repr

/-- One masked write of the fine-tuning hook: a field and its enabled bit (R140). -/
structure HookWrite where
  field : FieldId
  enabled : Bool
  deriving DecidableEq, Repr

/-- One row of a RATE table (R140). -/
structure RateEntry where
  rateHz : BitVec 32
  writes : List HookWrite
  deriving DecidableEq, Repr

/-- One step of the fine-tuning hook (R140). -/
inductive HookStep where
  | write (w : HookWrite)
  | rate (table : List RateEntry)
  deriving DecidableEq, Repr

/-- The fine-tuning hook: its step list for each protocol (R140). -/
structure TuneHook where
  pcie : List HookStep
  usb3 : List HookStep
  deriving DecidableEq, Repr

/-- The variant configuration record (R140). `fields` is the map from identifiers, as a list of pairs. -/
structure VariantConfig where
  fields : List (FieldId × RegisterField)
  tuneHook : Option TuneHook
  cmplHook : Bool
  deriving DecidableEq, Repr

/-- The parameters of the model that no step changes (R8, R20): the widths, `VARIANT`, `REFCLK_RATE_HZ`, the timing
values in microseconds, and `EXIT_ASSERTS_CTRL_RESET`. -/
structure Params where
  widths : Widths
  variant : VariantConfig
  refclkRateHz : BitVec 32
  tSettleUs : Nat
  tPrelockPcieUs : Nat
  tPrelockUsb3Us : Nat
  pollIntervalUs : Nat
  pollTimeoutUs : Nat
  exitAssertsCtrl : Bool
  deriving DecidableEq, Repr

/-- The environment's answer to a write transaction (R56). On BUSERR, `landed` says which of the selected bits
took their new value; the others keep the old one, and its other bits mean nothing. -/
inductive WriteAnswer where
  | ok
  | busErr (landed : Nat)
  deriving DecidableEq, Repr, Inhabited

/-- The environment's answer to a read transaction (R57). Of the number, the low `REG_BITS` bits are the word. -/
inductive ReadAnswer where
  | word (w : Nat)
  | busErr
  deriving DecidableEq, Repr, Inhabited

namespace Config

/-- FREE VALUE. `draw_bus_write` (R56): the n-th answer that no script of the state gives. -/
opaque drawBusWrite : Nat → WriteAnswer

/-- FREE VALUE. `draw_bus_read` (R57). -/
opaque drawBusRead : Nat → ReadAnswer

/-- FREE VALUE. `draw_clk_prepare` (R174): true when the clock can be prepared. -/
opaque drawClkPrepare : Nat → Bool

/-- FREE VALUE. `draw_now` (R262): the microseconds by which the time source has moved beyond what the delays
since its last reading require. -/
opaque drawElapsed : Nat → Nat

/-- FREE VALUE. The contents of `POLL_T0`, `POLL_N`, `HOOK_IDX` and `HOOK_SUB` outside the micro-operation that
uses them, which the spec leaves unspecified (R33, R34). -/
opaque freeScratch : Nat → Nat

end Config

end Sys2Proof
end

