-- ==== Sys2Proof/Decode.lean ====
section
/-!
DEFINITION. The codes of the identifier spaces, the decoder and the encoder of both word formats
(spec/30_encoding.md R71 to R86, R90, R91).
-/

namespace Sys2Proof

/-! ### Codes -/

/-- Type codes (R74). -/
def protoCode : ProtoType → BitVec 8
  | .unassigned => 0x00#8
  | .pcie => 0x02#8
  | .usb3 => 0x04#8

/-- The supported request values of ASSIGN_TYPE (R74): `0x02` and `0x04`, no other. -/
def requestedType (t : BitVec 8) : Option ProtoType :=
  if t = 0x02#8 then some .pcie
  else if t = 0x04#8 then some .usb3
  else none

/-- State codes (R79). -/
def seqStateCode : SeqState → BitVec 3
  | .idle => 0#3
  | .poweringOn => 1#3
  | .configuring => 2#3
  | .waitingPllLock => 3#3
  | .waitingLaneReady => 4#3
  | .ready => 5#3
  | .exiting => 6#3

/-- The state a code names; code 7 is reserved (R79). -/
def seqStateOf (c : BitVec 3) : Option SeqState :=
  match c.toNat with
  | 0 => some .idle
  | 1 => some .poweringOn
  | 2 => some .configuring
  | 3 => some .waitingPllLock
  | 4 => some .waitingLaneReady
  | 5 => some .ready
  | 6 => some .exiting
  | _ => none

/-- Reset line identifiers (R81). -/
def lineCode : ResetLine → BitVec 2
  | .ctrl => 0#2
  | .por => 1#2
  | .regbus => 2#2
  | .datapath => 3#2

/-- The line an identifier names; none is reserved (R81). -/
def lineOf (c : BitVec 2) : ResetLine :=
  match c.toNat with
  | 0 => .ctrl
  | 1 => .por
  | 2 => .regbus
  | _ => .datapath

/-- Delay kinds (R82). -/
def delayCode : DelayKind → BitVec 2
  | .settle => 0#2
  | .prelockPcie => 1#2
  | .prelockUsb3 => 2#2

/-- The kind a code names; 3 is reserved (R82). -/
def delayOf (c : BitVec 2) : Option DelayKind :=
  match c.toNat with
  | 0 => some .settle
  | 1 => some .prelockPcie
  | 2 => some .prelockUsb3
  | _ => none

/-- Result codes of the errors (R75, R250). -/
def errorCode : ErrorCode → BitVec 4
  | .invalidType => 1#4
  | .typeConflict => 2#4
  | .typeMismatch => 3#4
  | .unsupportedClockRate => 4#4
  | .pllLockTimeout => 5#4
  | .laneReadyTimeout => 6#4
  | .registerError => 7#4
  | .resourceUnavailable => 8#4

/-- Result codes (R75): 0 is OK. -/
def resultCode : ResultCode → BitVec 4
  | .ok => 0#4
  | .error e => errorCode e

/-- The error a POLL timeout raises (R127). -/
def timeoutError : TimeoutCode → ErrorCode
  | .pllLock => .pllLockTimeout
  | .laneReady => .laneReadyTimeout

/-- The timeout code C of POLL is the result code of its error (R78). -/
def timeoutCode (c : TimeoutCode) : BitVec 4 := errorCode (timeoutError c)

/-- The timeout code a 4-bit C names; only 5 and 6 are legal (R78, R84). -/
def timeoutOf (c : BitVec 4) : Option TimeoutCode :=
  match c.toNat with
  | 5 => some .pllLock
  | 6 => some .laneReady
  | _ => none

/-- Image numbers of `ROMSEL` (R28). -/
def romCode : RomSel → BitVec 2
  | .pcie => 0#2
  | .usb3 => 1#2
  | .exit => 2#2
  | .cmpl => 3#2

/-! ### Field identifiers (R80) -/

/-- Field identifiers that name no field: `0x00` and `0x12` to `0x1F` (R80, R84). -/
def reservedFieldId (f : FieldId) : Bool :=
  f.toNat == 0 || (0x12 ≤ f.toNat && f.toNat ≤ 0x1F)

/-- PLL_LOCK (R80). -/
def fieldPllLock : FieldId := 0x0E#8

/-- LANE_READY (R80). -/
def fieldLaneReady : FieldId := 0x0F#8

/-- RX_NEGPULSE (R80). -/
def fieldRxNegpulse : FieldId := 0x10#8

/-- LANE_SEL (R80, R160). -/
def fieldLaneSel : FieldId := 0x11#8

/-! ### Decoding -/

/-- Format CMD (R71, R72, R83): `OP` is bits 3..0, `TARG` bits 11..4, bits 31..12 must be 0. -/
def decodeCmd (w : CmdWord) : Option Instr :=
  let op := w.extractLsb' 0 4
  let targ := w.extractLsb' 4 8
  if w.extractLsb' 12 20 ≠ 0#20 then none
  else
    match op.toNat with
    | 1 => some (.assignType targ)
    | 2 => if targ = 0#8 then some .init else none
    | 3 => if targ = 0#8 then some .exit else none
    | 4 => if targ = 0#8 then some .complianceTest else none
    | _ => none

/-- A field identifier operand: refused when reserved (R84). -/
def fieldOperand (f : FieldId) (mk : FieldId → Instr) : Option Instr :=
  if reservedFieldId f then none else some (mk f)

/-- Format UOP (R76 to R78, R84): `UOPC` is bits 15..12, `ARG` bits 11..0. -/
def decodeUop (w : UopWord) : Option Instr :=
  match (w.extractLsb' 12 4).toNat with
  | 0x0 => if w.extractLsb' 0 12 = 0#12 then some .endOp else none
  | 0x1 => if w.extractLsb' 3 9 = 0#9 then (seqStateOf (w.extractLsb' 0 3)).map .setst else none
  | 0x2 => if w.extractLsb' 2 10 = 0#10 then some (.rsta (lineOf (w.extractLsb' 0 2))) else none
  | 0x3 => if w.extractLsb' 2 10 = 0#10 then some (.rstd (lineOf (w.extractLsb' 0 2))) else none
  | 0x4 => if w.extractLsb' 0 12 = 0#12 then some .clken else none
  | 0x5 => if w.extractLsb' 0 12 = 0#12 then some .clkdis else none
  | 0x6 => if w.extractLsb' 2 10 = 0#10 then (delayOf (w.extractLsb' 0 2)).map .delay else none
  | 0x7 =>
    if w.extractLsb' 9 3 = 0#3 then
      fieldOperand (w.extractLsb' 0 8) (fun f => .wrf f (w.extractLsb' 8 1 == 1#1))
    else none
  | 0x8 =>
    match timeoutOf (w.extractLsb' 8 4) with
    | some c => fieldOperand (w.extractLsb' 0 8) (fun f => .poll f c)
    | none => none
  | 0x9 => if w.extractLsb' 0 12 = 0#12 then some .hook else none
  | _ => none

/-- A word of one of the two instruction formats (R70 (a), (c)). -/
inductive CodeWord where
  | cmd (w : CmdWord)
  | uop (w : UopWord)
  deriving DecidableEq, Repr

/-- The decoder of both formats (R90). -/
def decode : CodeWord → Option Instr
  | .cmd w => decodeCmd w
  | .uop w => decodeUop w

/-! ### Encoding -/

/-- The UOP word of a micro-opcode and its argument (R76). -/
def uopWord (uopc : BitVec 4) (arg : BitVec 12) : UopWord := uopc ++ arg

/-- The CMD word of an opcode and its target (R71). -/
def cmdWord (op : BitVec 4) (targ : BitVec 8) : CmdWord := 0#20 ++ targ ++ op

/-- The word of an instruction (R71, R72, R77, R78). -/
def encode : Instr → CodeWord
  | .assignType t => .cmd (cmdWord 0x1#4 t)
  | .init => .cmd (cmdWord 0x2#4 0#8)
  | .exit => .cmd (cmdWord 0x3#4 0#8)
  | .complianceTest => .cmd (cmdWord 0x4#4 0#8)
  | .endOp => .uop (uopWord 0x0#4 0#12)
  | .setst st => .uop (uopWord 0x1#4 (0#9 ++ seqStateCode st))
  | .rsta l => .uop (uopWord 0x2#4 (0#10 ++ lineCode l))
  | .rstd l => .uop (uopWord 0x3#4 (0#10 ++ lineCode l))
  | .clken => .uop (uopWord 0x4#4 0#12)
  | .clkdis => .uop (uopWord 0x5#4 0#12)
  | .delay k => .uop (uopWord 0x6#4 (0#10 ++ delayCode k))
  | .wrf f e => .uop (uopWord 0x7#4 (0#3 ++ BitVec.ofBool e ++ f))
  | .poll f c => .uop (uopWord 0x8#4 (timeoutCode c ++ f))
  | .hook => .uop (uopWord 0x9#4 0#12)

/-- The instruction the decoder reads from a row's word of `nbits` bits: a command row has 32 bits, a
micro-operation row 16 (R86). -/
def decodeTableWord (nbits w : Nat) : Option Instr :=
  if nbits = 32 then decode (.cmd (BitVec.ofNat 32 w))
  else if nbits = 16 then decode (.uop (BitVec.ofNat 16 w))
  else none

end Sys2Proof
end

