-- ==== Sys2Proof/Machine/Variant.lean ====
section
/-!
DEFINITION. Where registers lie in the register space (spec/20_memory.md R50, R53, R59), and the Variant
Configuration Table: the lookup of a field, and the well-formedness checks WF1 to WF10 (spec/43_variant_config.md
R141 to R148).
-/

namespace Sys2Proof.Machine

/-- The bytes of one register, and of one bus access (R53, R58): 4 at the default widths. -/
def regBytes (n : Widths) : Nat := n.regBits / 8

/-- A register lies at this offset: a multiple of 4 (R50, R143), and, where a register has more than 4 bytes, of its
size, so that no two registers share a byte (log entry 19, DEDUCED). -/
def aligned (n : Widths) (a : Nat) : Bool := a % 4 == 0 && a % regBytes n == 0

/-- The widths a model admits (log entry 19, DEDUCED): `HALF` is half of `REG_BITS` (R8), a register is a number of
whole bytes (R58), and the address space a number of whole registers. -/
def widthsWf (n : Widths) : Bool :=
  2 * n.half == n.regBits && n.regBits % 8 == 0 && 2 ^ n.addrBits % regBytes n == 0

/-- The record a variant holds under a field identifier (R14 `Field(id)`). -/
def lookupField (v : VariantConfig) (f : FieldId) : Option RegisterField := v.fields.lookup f

/-- `width(f)` (R14). -/
def fieldWidth (f : RegisterField) : Nat := f.bitEnd - f.bitStart + 1

/-- No element stands twice in the list. -/
def distinct {α : Type} [DecidableEq α] : List α → Bool
  | [] => true
  | x :: xs => !xs.contains x && distinct xs

/-- The step list of the hook for a protocol (R140); the hook never runs for `unassigned` (R152). -/
def hookSteps (h : TuneHook) : ProtoType → List HookStep
  | .pcie => h.pcie
  | _ => h.usb3

/-- The masked writes a hook step may perform. -/
def stepWrites : HookStep → List HookWrite
  | .write w => [w]
  | .rate table => table.flatMap (·.writes)

/-- Every masked write the fine-tuning hook may perform, for either protocol. -/
def hookWrites (v : VariantConfig) : List HookWrite :=
  match v.tuneHook with
  | none => []
  | some h => (h.pcie ++ h.usb3).flatMap stepWrites

/-- The status fields (R145). -/
def isStatusField (f : FieldId) : Bool := f == fieldPllLock || f == fieldLaneReady

/-- The written fields (R144): `0x01` to `0x0D`, `0x10`, `0x11`, and every field a hook step names. -/
def isWrittenField (v : VariantConfig) (f : FieldId) : Bool :=
  (1 ≤ f.toNat && f.toNat ≤ 0x0D) || f == fieldRxNegpulse || f == fieldLaneSel
    || (hookWrites v).any (·.field == f)

/-- Is a field defined by the variant? -/
def definesField (v : VariantConfig) (f : FieldId) : Bool := (lookupField v f).isSome

/-- Two fields share a bit of one register. -/
def fieldsOverlap (f g : RegisterField) : Bool :=
  f.offset == g.offset && f.bitStart ≤ g.bitEnd && g.bitStart ≤ f.bitEnd

/-- WF1 (R143): the bit range is in order and within the register, whose last bit is `REG_BITS - 1`, 31 at the
default widths. -/
def checkWF1 (n : Widths) (v : VariantConfig) : Bool :=
  v.fields.all fun p => p.2.bitStart ≤ p.2.bitEnd && p.2.bitEnd < n.regBits

/-- WF2 (R143): both values fit the field. -/
def checkWF2 (v : VariantConfig) : Bool :=
  v.fields.all fun p => p.2.enableValue < 2 ^ fieldWidth p.2 && p.2.disableValue < 2 ^ fieldWidth p.2

/-- WF3 (R144): a written field lies in the data half, whose last bit is `HALF - 1`. -/
def checkWF3 (n : Widths) (v : VariantConfig) : Bool :=
  v.fields.all fun p => !isWrittenField v p.1 || p.2.bitEnd < n.half

/-- WF4 (R143): a register lies at the offset, and the offset is below `2^ADDR_BITS`. -/
def checkWF4 (n : Widths) (v : VariantConfig) : Bool :=
  v.fields.all fun p => aligned n p.2.offset && p.2.offset < 2 ^ n.addrBits

/-- The identifiers the fixed images name whatever the variant (R142). -/
def requiredFields : List FieldId :=
  [0x01#8, 0x02#8, 0x03#8, 0x04#8, 0x05#8, 0x06#8, 0x07#8, 0x08#8, 0x09#8, 0x0A#8, 0x0B#8, 0x0C#8, 0x0D#8,
   0x0E#8, 0x0F#8]

/-- WF5 (R142): the required fields are defined, RX_NEGPULSE exactly when there is a compliance hook, and no
reserved identifier. -/
def checkWF5 (v : VariantConfig) : Bool :=
  requiredFields.all (definesField v) && (definesField v fieldRxNegpulse == v.cmplHook)
    && v.fields.all fun p => !reservedFieldId p.1

/-- WF6 (R147): every field a hook step names is defined and is a written field. -/
def checkWF6 (v : VariantConfig) : Bool :=
  (hookWrites v).all fun w => definesField v w.field && isWrittenField v w.field

/-- Is a hook step a RATE step? -/
def isRateStep : HookStep → Bool
  | .write _ => false
  | .rate _ => true

/-- WF7 (R147): exactly one RATE step for each protocol. -/
def checkWF7 (v : VariantConfig) : Bool :=
  match v.tuneHook with
  | none => true
  | some h => h.pcie.countP isRateStep == 1 && h.usb3.countP isRateStep == 1

/-- The keys of a RATE step are pairwise distinct. -/
def rateKeysDistinct : HookStep → Bool
  | .write _ => true
  | .rate table => distinct (table.map (·.rateHz))

/-- WF8 (R147): the keys of every RATE table are pairwise distinct. -/
def checkWF8 (v : VariantConfig) : Bool :=
  match v.tuneHook with
  | none => true
  | some h => h.pcie.all rateKeysDistinct && h.usb3.all rateKeysDistinct

/-- WF9 (R145): no written field shares a bit with a status field at the same offset. -/
def checkWF9 (v : VariantConfig) : Bool :=
  v.fields.all fun p => v.fields.all fun q =>
    !(isWrittenField v p.1 && isStatusField q.1 && fieldsOverlap p.2 q.2)

/-- WF10 (R145): no hook step names a status field. -/
def checkWF10 (v : VariantConfig) : Bool :=
  (hookWrites v).all fun w => !isStatusField w.field

/-- The verdict on a variant configuration (R148). The last clause makes the list of fields a map, as R140
has it. -/
def variantWf (n : Widths) (v : VariantConfig) : Bool :=
  checkWF1 n v && checkWF2 v && checkWF3 n v && checkWF4 n v && checkWF5 v && checkWF6 v && checkWF7 v && checkWF8 v
    && checkWF9 v && checkWF10 v && distinct (v.fields.map (·.1))

/-- The parameters a model admits: widths that fit together, a well-formed variant, and a poll interval that is a
wait at all, without which the bound of R126 has no value. -/
def paramsWf (p : Params) : Bool := widthsWf p.widths && variantWf p.widths p.variant && 0 < p.pollIntervalUs

end Sys2Proof.Machine
end

