-- ==== Sys2Proof/Machine/Board.lean ====
section
/-!
DEFINITION. The one concrete variant and board the spec writes out: the test variant VX, the variant VX0 and
the default board (spec/95_test_vectors.md section 0), with the timing defaults of spec/00_scope.md R8.
They are the arguments `State.reset` is built from (DESIGN CHOICE, unsafe: log entry 2): no chip is claimed to
have them.
-/

namespace Sys2Proof.Machine

/-- A field whose disable value is 0, as every field of VX is. -/
def vxField (offset : Nat) (bitStart bitEnd enableValue : Nat) : RegisterField :=
  { offset := offset, bitStart := bitStart, bitEnd := bitEnd, disableValue := 0, enableValue := enableValue }

/-- The fields of VX but for RX_NEGPULSE. -/
def vxFields : List (FieldId × RegisterField) :=
  [(0x01#8, vxField 0x0000 0 1 3), (0x02#8, vxField 0x0000 2 2 1),
   (0x03#8, vxField 0x0000 3 4 1), (0x04#8, vxField 0x0000 5 5 1),
   (0x05#8, vxField 0x0000 6 6 1), (0x06#8, vxField 0x0000 7 7 1),
   (0x07#8, vxField 0x0004 0 1 1), (0x08#8, vxField 0x0004 2 2 1),
   (0x09#8, vxField 0x0004 3 4 2), (0x0A#8, vxField 0x0004 5 5 1),
   (0x0B#8, vxField 0x0004 6 7 1), (0x0C#8, vxField 0x0004 8 8 1),
   (0x0D#8, vxField 0x0004 15 15 1),
   (0x0E#8, vxField 0x0010 0 0 1), (0x0F#8, vxField 0x0010 17 17 1),
   (0x20#8, vxField 0x000C 8 11 0xA), (0x21#8, vxField 0x000C 4 4 1),
   (0x22#8, vxField 0x000C 5 7 5)]

/-- The tune hook of VX. -/
def vxTuneHook : TuneHook :=
  { usb3 :=
      [.rate [{ rateHz := 24000000#32, writes := [] },
              { rateHz := 25000000#32, writes := [{ field := 0x20#8, enabled := true }] }],
       .write { field := 0x21#8, enabled := true }, .write { field := 0x22#8, enabled := true }]
    pcie :=
      [.rate [{ rateHz := 24000000#32, writes := [] },
              { rateHz := 100000000#32, writes := [{ field := 0x20#8, enabled := true }] }]] }

/-- The test variant VX. -/
def variantVX : VariantConfig :=
  { fields := vxFields ++ [(0x10#8, vxField 0x0008 3 3 1)], tuneHook := some vxTuneHook, cmplHook := true }

/-- VX without hooks. -/
def variantVX0 : VariantConfig := { fields := vxFields, tuneHook := none, cmplHook := false }

/-- The parameters of a board with the defaults of R8 and R290. -/
def defaultParams (v : VariantConfig) (rateHz : BitVec 32) : Params :=
  { widths := {}, variant := v, refclkRateHz := rateHz, tSettleUs := 5, tPrelockPcieUs := 300, tPrelockUsb3Us := 5,
    pollIntervalUs := 10, pollTimeoutUs := 1000, exitAssertsCtrl := true }

/-- The default board: VX with a 24 MHz reference clock. -/
def defaultBoard : Params := defaultParams variantVX 24000000#32

end Sys2Proof.Machine
end

