-- ==== Sys2Proof/Machine/Images.lean ====
section
/-!
DEFINITION. The fixed images, word for word (spec/45_sequencer.md R200, R201, R203, R204).
-/

namespace Sys2Proof.Machine

/-- The contents of the four images (R67, R190). -/
structure RomImages where
  pcie : List UopWord
  usb3 : List UopWord
  exit : List UopWord
  cmpl : List UopWord
  deriving DecidableEq, Repr

/-- ROM_PCIE (R200). -/
def romPcie : List UopWord :=
  [0x1001#16, 0x4000#16, 0x3001#16, 0x6000#16, 0x3002#16, 0x6000#16, 0x1002#16, 0x9000#16,
   0x1003#16, 0x6001#16, 0x850E#16, 0x1004#16, 0x3003#16, 0x860F#16, 0x1005#16, 0x0000#16]

/-- ROM_USB3 (R201, R202). -/
def romUsb3 : List UopWord :=
  [0x1001#16, 0x2000#16, 0x4000#16, 0x3001#16, 0x6000#16, 0x3002#16, 0x6000#16, 0x1002#16,
   0x7101#16, 0x7102#16, 0x7103#16, 0x7104#16, 0x7105#16, 0x7106#16, 0x7107#16, 0x7108#16,
   0x7109#16, 0x710A#16, 0x710B#16, 0x710C#16, 0x710D#16, 0x9000#16, 0x1003#16, 0x6002#16,
   0x850E#16, 0x1004#16, 0x3003#16, 0x860F#16, 0x3000#16, 0x1005#16, 0x0000#16]

/-- ROM_EXIT (R203); entry 4 is there only when `EXIT_ASSERTS_CTRL_RESET` holds. The order of the assertions is the
one R203 writes down, on which no claim may depend (log entry 21, DEDUCED). -/
def romExit (exitAssertsCtrl : Bool) : List UopWord :=
  [0x1006#16, 0x2001#16, 0x2002#16, 0x2003#16] ++ (if exitAssertsCtrl then [0x2000#16] else [])
    ++ [0x5000#16, 0x1000#16, 0x0000#16]

/-- ROM_CMPL (R204). -/
def romCmpl : List UopWord := [0x7110#16, 0x0000#16]

/-- The images of an instance with the given `EXIT_ASSERTS_CTRL_RESET`. -/
def fixedImages (exitAssertsCtrl : Bool) : RomImages :=
  { pcie := romPcie, usb3 := romUsb3, exit := romExit exitAssertsCtrl, cmpl := romCmpl }

/-- The image `ROMSEL` names (R28, R190). -/
def selectImage (r : RomImages) : RomSel → List UopWord
  | .pcie => r.pcie
  | .usb3 => r.usb3
  | .exit => r.exit
  | .cmpl => r.cmpl

/-- The images with the one `ROMSEL` names replaced. No instruction does this: it stands for what is placed
from outside before a run. -/
def replaceImage (r : RomImages) (sel : RomSel) (im : List UopWord) : RomImages :=
  match sel with
  | .pcie => { r with pcie := im }
  | .usb3 => { r with usb3 := im }
  | .exit => { r with exit := im }
  | .cmpl => { r with cmpl := im }

/-- An image with the word at one index replaced; a shorter image is filled with END words. -/
def putWord : Nat → UopWord → List UopWord → List UopWord
  | 0, w, [] => [w]
  | 0, w, _ :: im => w :: im
  | n + 1, w, [] => 0x0000#16 :: putWord n w []
  | n + 1, w, x :: im => x :: putWord n w im

end Sys2Proof.Machine
end

