-- ==== Sys2Proof/Machine/State.lean ====
section
/-!
DEFINITION. The state of one PHY Instance (spec/10_state.md R20 to R38), the events of its trace
(spec/00_scope.md R16), the reasons a step can stop, and the state after reset.
-/

namespace Sys2Proof.Machine

/-- Why the machine stops with a fault. None can happen in a run of an instance that construction admits
(Safety.lean, `State.Inv`); each is raised only in states no such run reaches, and each is safe: the model
stops where the spec gives no effect. -/
inductive Fault where
  /-- Raised by WRF, POLL and HOOK: the variant does not define the field named. Safe. R84 says that it
  cannot occur (R142, R147). -/
  | undefinedField (f : FieldId)
  /-- Raised by WRF, POLL and HOOK: no register lies at the field's offset. Safe. R59 says that such an
  offset never reaches the bus. -/
  | misalignedOffset (a : Nat)
  /-- Raised by WRF, POLL and HOOK: the field's offset is not below `2^ADDR_BITS`. Safe. WF4 (R143) refuses a variant
  that has one at construction. -/
  | offsetOutOfRange (a : Nat)
  /-- Raised by POLL: the poll interval is 0, so that R126 gives no bound, and the poll has not ended within the
  answers the environment's script holds. Safe. R126 derives that it cannot happen with an interval that is not 0. -/
  | pollBoundExceeded
  /-- Raised by the fetch: `UPC` is past the last word of the image. Safe. R28 says that it never is. -/
  | upcOutOfImage
  deriving DecidableEq, Repr

/-- Why the model has no step. Each is an obligation on the host or the platform (R289), and safe. -/
inductive Refusal where
  /-- Raised by an arm of `exec` that has no meaning. Safe. No arm of this model is one. -/
  | notModelled (mnemonic : String)
  /-- Raised by the command port: the host's word decodes to no command (R83, R228). Safe. -/
  | invalidCommand
  /-- Raised by the sequencer: the image's word decodes to no micro-operation (R84). Safe. -/
  | invalidMicroOp
  /-- Raised by the four commands: a command was issued while `BUSY = 1` (R220, R266, R289 (a)). Safe. -/
  | commandWhileBusy
  /-- Raised by INIT while `STATE = Ready` (R224 (b), R289 (c)). Safe. -/
  | initWhileReady
  deriving DecidableEq, Repr

/-- The response of a write transaction as the trace shows it (R16, R56). -/
inductive BusResp where
  | ok
  | busErr
  deriving DecidableEq, Repr

/-- The kinds of wait the trace shows (R16, R82): the DELAY kinds, and the re-read wait of POLL. -/
inductive WaitKind where
  | settle
  | prelockPcie
  | prelockUsb3
  | pollInterval
  deriving DecidableEq, Repr

/-- The event forms (R16). -/
inductive Event where
  /-- `Rst(l, ASSERT)` when `asserted`, else `Rst(l, DEASSERT)`. -/
  | rst (l : ResetLine) (asserted : Bool)
  /-- `Clk(ON)` or `Clk(OFF)`. -/
  | clk (on : Bool)
  /-- `ClkFail`. -/
  | clkFail
  /-- `Delay(kind, us)`. -/
  | delay (kind : WaitKind) (us : Nat)
  /-- `Wr(addr, word, resp)`. -/
  | wr (addr : Nat) (word : Nat) (resp : BusResp)
  /-- `Rd(addr, word_or_BUSERR)`. -/
  | rd (addr : Nat) (ans : ReadAnswer)
  /-- `State(s)`. -/
  | state (st : SeqState)
  /-- `Result(cmd, code)`. -/
  | result (cmd : HostCmd) (code : ResultCode)
  deriving DecidableEq, Repr

/-- One thing for each reset line. -/
structure PerLine (α : Type) where
  ctrl : α
  por : α
  regbus : α
  datapath : α
  deriving DecidableEq, Repr

/-- A memory: pairs of a byte address and a byte, in the canonical form of `memoryWf` (Memory.lean). -/
abbrev Memory := List Host.Cell

/-- The environment of an instance (R15): the answers it will give next, and, when a list is exhausted, the
number of the next free value. The MODEL's own: no register of the block. -/
structure Draws where
  writes : List WriteAnswer
  reads : List ReadAnswer
  clocks : List Bool
  elapsed : List Nat
  tick : Nat
  deriving DecidableEq, Repr

/-- The state of one PHY Instance. -/
structure State where
  /-- `TYPE` (R21). -/
  protoType : ProtoType
  /-- `STATE` (R22). -/
  seqState : SeqState
  /-- `RESULT` (R23). -/
  result : ResultCode
  /-- `BUSY` (R24). -/
  busy : Bool
  /-- `ROMSEL` (R28). -/
  romsel : RomSel
  /-- `UPC` (R28). -/
  upc : BitVec 6
  /-- `CLK_EN` (R25). -/
  clkEn : Bool
  /-- `RST_PRESENT[l]` and `RST_LEVEL[l]` (R26): `none` when the line is absent, else its level, `true` when
  asserted. -/
  rst : PerLine (Option Bool)
  /-- `REGS` (R51). -/
  regs : Memory
  /-- `POLL_T0` (R33). -/
  pollT0 : Nat
  /-- `POLL_N` (R33). -/
  pollN : Nat
  /-- `HOOK_IDX` (R34). -/
  hookIdx : Nat
  /-- `HOOK_SUB` (R34). -/
  hookSub : Nat
  /-- The trace (R16). -/
  trace : List Event
  /-- The parameters, among them `VARIANT` and `REFCLK_RATE_HZ` (R29, R31); no step writes them. -/
  cfg : Params
  /-- The fixed images (R67, R190); no step writes them. -/
  rom : RomImages
  /-- The least value the time source can show next (R262). The MODEL's own. -/
  now : Nat
  /-- The command words the host will issue (R17 (a), R220). The MODEL's own. -/
  hostCmds : List CmdWord
  /-- The environment's answers (R15). The MODEL's own. -/
  env : Draws
  deriving DecidableEq, Repr

/-- How a micro-operation ends, before the sequencer acts on it (R12, R191). -/
inductive Act where
  /-- It completed. -/
  | done (s : State)
  /-- It raised an error of the taxonomy. -/
  | raised (e : ErrorCode) (s : State)
  /-- It met what the spec says cannot occur. -/
  | fault (r : Fault)
  deriving DecidableEq, Repr

/-- The construction values the spec leaves unspecified (R38, R39): arguments of construction. -/
structure OpenValues where
  rstLevel : PerLine Bool
  regs : Memory
  romsel : RomSel
  upc : BitVec 6
  pollT0 : Nat
  pollN : Nat
  hookIdx : Nat
  hookSub : Nat
  now : Nat
  deriving DecidableEq, Repr

/-- The construction values of one line: no level when it is absent (R26, R38). -/
def builtLine (present level : Bool) : Option Bool := if present then some level else none

/-- The state of an instance on its creation (R38, R280), for every value of what the spec leaves open. -/
def State.build (cfg : Params) (present : PerLine Bool) (u : OpenValues) : State :=
  { protoType := .unassigned
    seqState := .idle
    result := .ok
    busy := false
    romsel := u.romsel
    upc := u.upc
    clkEn := false
    rst :=
      { ctrl := builtLine present.ctrl u.rstLevel.ctrl
        por := builtLine present.por u.rstLevel.por
        regbus := builtLine present.regbus u.rstLevel.regbus
        datapath := builtLine present.datapath u.rstLevel.datapath }
    regs := u.regs
    pollT0 := u.pollT0
    pollN := u.pollN
    hookIdx := u.hookIdx
    hookSub := u.hookSub
    trace := []
    cfg := cfg
    rom := fixedImages cfg.exitAssertsCtrl
    now := u.now
    hostCmds := []
    env := { writes := [], reads := [], clocks := [], elapsed := [], tick := 0 } }

/-- The open construction values of the default board (spec/95_test_vectors.md section 0): every line
asserted, every register 0; the rest 0. DESIGN CHOICE (log entries 1 and 3). -/
def defaultOpenValues : OpenValues :=
  { rstLevel := { ctrl := true, por := true, regbus := true, datapath := true }
    regs := [], romsel := .pcie, upc := 0#6, pollT0 := 0, pollN := 0, hookIdx := 0, hookSub := 0, now := 0 }

/-- The machine right after reset, that is, construction (R280), on the default board (log entry 2). -/
def State.reset : State :=
  State.build defaultBoard { ctrl := true, por := true, regbus := true, datapath := true } defaultOpenValues

end Sys2Proof.Machine
end

