-- ==== Sys2Proof/Machine/Memory.lean ====
section
/-!
DEFINITION. The register space `REGS` as a canonical list of bytes, little-endian (spec/20_memory.md R50, R51,
R58), and the masked write (R52).
-/

namespace Sys2Proof.Machine

/-- What an address that the list does not hold reads as. DESIGN CHOICE (log entry 3): the spec leaves
`INIT_REGS` open, and a state's list gives every other contents. -/
def unlistedByte : Byte := 0x00#8

/-- The bytes of the register space are at the addresses below `2^ADDR_BITS` (R50). -/
def addressLimit (n : Widths) : Nat := 2 ^ n.addrBits

/-- The canonical form of a memory whose addresses are all at least `lo` and below `hi`. -/
def memoryWfFrom (hi : Nat) : Nat → Memory → Bool
  | _, [] => true
  | lo, (a, b) :: m => lo ≤ a && a < hi && b != unlistedByte && memoryWfFrom hi (a + 1) m

/-- The canonical form: addresses strictly rising and in range, no byte listed that reads as an unlisted one. -/
def memoryWf (n : Widths) (m : Memory) : Bool := memoryWfFrom (addressLimit n) 0 m

/-- The byte at an address. -/
def readByte : Memory → Nat → Byte
  | [], _ => unlistedByte
  | (k, v) :: m, a => if a = k then v else readByte m a

/-- The cells of one byte: none when it reads as an unlisted one. -/
def cellOf (a : Nat) (b : Byte) : Memory := if b = unlistedByte then [] else [(a, b)]

/-- The memory with one byte written. -/
def writeByte : Memory → Nat → Byte → Memory
  | [], a, b => cellOf a b
  | (k, v) :: m, a, b =>
    if a < k then cellOf a b ++ (k, v) :: m
    else if a = k then cellOf a b ++ m
    else (k, v) :: writeByte m a b

/-- The number the bytes from an address on spell, the first lowest (R58). -/
def readBytes (m : Memory) (a : Nat) : Nat → Nat
  | 0 => 0
  | k + 1 => (readByte m a).toNat + 256 * readBytes m (a + 1) k

/-- The memory with the bytes from an address on spelling a number, in the order of `readBytes`. -/
def writeBytes (m : Memory) (a : Nat) : Nat → Nat → Memory
  | 0, _ => m
  | k + 1, w => writeBytes (writeByte m a (BitVec.ofNat 8 w)) (a + 1) k (w / 256)

/-- The register at an offset: byte `a + k` holds bits `8k+7..8k` (R58). -/
def readReg (n : Widths) (m : Memory) (a : Nat) : Nat := readBytes m a (regBytes n)

/-- The memory with the register at an offset written, in the byte order of `readReg`. -/
def writeReg (n : Widths) (m : Memory) (a : Nat) (w : Nat) : Memory := writeBytes m a (regBytes n) w

/-- The write-enable mask half of a transaction word (R52). -/
def maskHalf (n : Widths) (w : Nat) : Nat := (w >>> n.half) % 2 ^ n.half

/-- The data half of a transaction word (R52). -/
def dataHalf (n : Widths) (w : Nat) : Nat := w % 2 ^ n.half

/-- `old & ~mask` (R52): the bits of a register outside the mask. -/
def outsideMask (old : Nat) (mask : Nat) : Nat := old ^^^ (old &&& mask)

/-- The register value after a masked write of `data` under `mask` (R52): the selected bits, all of the data half, are
taken from `data`, and every other bit is unchanged. -/
def maskedValue (old : Nat) (mask data : Nat) : Nat := outsideMask old mask ||| (data &&& mask)

/-- The masked write (R52). -/
def maskedWrite (n : Widths) (m : Memory) (a : Nat) (mask data : Nat) : Memory :=
  writeReg n m a (maskedValue (readReg n m a) mask data)

end Sys2Proof.Machine
end

