-- ==== Sys2Proof/Machine/Operands.lean ====
section
/-!
DEFINITION. The operand forms: the field a WRF or POLL names and the words made from it (spec/41_register_port.md
R101, R102; spec/42_status_poller.md R121, R126), the wait a DELAY names (spec/44_reset_clock.md R177), the reset
line (spec/10_state.md R26), and the image a command selects (spec/46_host_commands.md R223).
-/

namespace Sys2Proof.Machine

/-- `ones(n)` (R9). -/
def ones (n : Nat) : Nat := 2 ^ n - 1

/-- `field_mask(f)`, a value of `HALF` bits (R102). -/
def fieldMask (n : Widths) (f : RegisterField) : Nat := (ones (fieldWidth f) <<< f.bitStart) % 2 ^ n.half

/-- The value a write of the field puts in it (R101). -/
def fieldValue (f : RegisterField) (enabled : Bool) : Nat := if enabled then f.enableValue else f.disableValue

/-- The data half of the write word, the value shifted into place and masked (R101). -/
def fieldData (n : Widths) (f : RegisterField) (enabled : Bool) : Nat :=
  (fieldValue f enabled <<< f.bitStart) &&& fieldMask n f

/-- `write_word(f, E)` (R101): the mask in the high half, the data in the low half. -/
def writeWord (n : Widths) (f : RegisterField) (enabled : Bool) : Nat :=
  (fieldMask n f <<< n.half) ||| fieldData n f enabled

/-- `extract(f, r)` (R121), an unsigned number. -/
def extractField (f : RegisterField) (r : Nat) : Nat := (r >>> f.bitStart) &&& ones (fieldWidth f)

/-- A read word shows the value the poll of the field waits for (R122). -/
def fieldMatches (f : RegisterField) (r : Nat) : Bool := extractField f r == f.enableValue

/-- `MAX_POLL_READS` (R126). -/
def maxPollReads (p : Params) : Nat := p.pollTimeoutUs / p.pollIntervalUs + 2

/-- The wait kind a DELAY shows in the trace (R82). -/
def delayWait : DelayKind → WaitKind
  | .settle => .settle
  | .prelockPcie => .prelockPcie
  | .prelockUsb3 => .prelockUsb3

/-- The microseconds of a DELAY (R177). -/
def delayUs (p : Params) : DelayKind → Nat
  | .settle => p.tSettleUs
  | .prelockPcie => p.tPrelockPcieUs
  | .prelockUsb3 => p.tPrelockUsb3Us

/-- What is held for one line. -/
def getLine {α : Type} (p : PerLine α) : ResetLine → α
  | .ctrl => p.ctrl
  | .por => p.por
  | .regbus => p.regbus
  | .datapath => p.datapath

/-- With another thing held for one line. -/
def setLine {α : Type} (p : PerLine α) (l : ResetLine) (x : α) : PerLine α :=
  match l with
  | .ctrl => { p with ctrl := x }
  | .por => { p with por := x }
  | .regbus => { p with regbus := x }
  | .datapath => { p with datapath := x }

/-- The bring-up image of a protocol type (R223). -/
def bringUpImage : ProtoType → RomSel
  | .pcie => .pcie
  | _ => .usb3

/-- The command that runs an image (R223, R225, R226): what `Result(cmd, code)` names when the image ends. -/
def imageCommand : RomSel → HostCmd
  | .pcie => .init
  | .usb3 => .init
  | .exit => .exit
  | .cmpl => .complianceTest

/-- The images during which an abort sets `STATE` to Idle (R254). -/
def isBringUp : RomSel → Bool
  | .pcie => true
  | .usb3 => true
  | .exit => false
  | .cmpl => false

end Sys2Proof.Machine
end

