-- ==== Sys2Proof/Machine/Flags.lean ====
section
/-!
DEFINITION. What the host sees: the STATUS view (spec/10_state.md R27) and the result word
(spec/30_encoding.md R75). The block has no condition codes or flags (R32).
-/

namespace Sys2Proof.Machine

/-- The STATUS level bit of a line: 0 when it is absent (R27). -/
def levelBit (x : Option Bool) : BitVec 1 := BitVec.ofBool (x.getD false)

/-- The STATUS presence bit of a line (R27). -/
def presentBit (x : Option Bool) : BitVec 1 := BitVec.ofBool x.isSome

/-- The STATUS view (R27), from bit 31 down to bit 0. -/
def statusWord (s : State) : HostWord :=
  0#7 ++ presentBit s.rst.datapath ++ presentBit s.rst.regbus ++ presentBit s.rst.por ++ presentBit s.rst.ctrl
    ++ levelBit s.rst.datapath ++ levelBit s.rst.regbus ++ levelBit s.rst.por ++ levelBit s.rst.ctrl
    ++ BitVec.ofBool s.clkEn ++ resultCode s.result ++ protoCode s.protoType ++ BitVec.ofBool s.busy
    ++ seqStateCode s.seqState

/-- The result word returned to the host (R75, R227). -/
def resultWord (code : ResultCode) : HostWord := (resultCode code).setWidth 32

end Sys2Proof.Machine
end

