-- ==== Sys2Proof/Machine/Ops.lean ====
section
/-!
DEFINITION. The operations the instructions share: the trace and the waits (spec/00_scope.md R13), the draws
(R15), the register-bus transactions (spec/20_memory.md R52 to R57), the masked bitfield write, the end of a command
(spec/46_host_commands.md R227) and the abort (spec/60_exceptions.md R254). There is no return from an abort (R256).
-/

namespace Sys2Proof.Machine

/-- The outcome of a step of this machine. -/
abbrev Result := Host.Outcome State Fault Refusal

/-! ### Trace, sequencer position, time -/

/-- `Emit(ev)` (R13). -/
def emit (ev : Event) (s : State) : State := { s with trace := s.trace ++ [ev] }

/-- `upc <- upc + 1` (R196). -/
def advance (s : State) : State := { s with upc := s.upc + 1#6 }

/-- Select an image and start it (R190). -/
def startImage (r : RomSel) (s : State) : State := { s with busy := true, romsel := r, upc := 0#6 }

/-- `Delay(kind, us)` (R13, R178): the event, and at least `us` microseconds of the time source. -/
def wait (kind : WaitKind) (us : Nat) (s : State) : State :=
  emit (.delay kind us) { s with now := s.now + us }

/-! ### The draws -/

/-- The answer to a write, and what is left to draw. -/
def nextWrite (d : Draws) : WriteAnswer × Draws :=
  match d.writes with
  | x :: rest => (x, { d with writes := rest })
  | [] => (Config.drawBusWrite d.tick, { d with tick := d.tick + 1 })

/-- The answer to a read, and what is left to draw. -/
def nextRead (d : Draws) : ReadAnswer × Draws :=
  match d.reads with
  | x :: rest => (x, { d with reads := rest })
  | [] => (Config.drawBusRead d.tick, { d with tick := d.tick + 1 })

/-- Whether the clock can be prepared, and what is left to draw. -/
def nextClock (d : Draws) : Bool × Draws :=
  match d.clocks with
  | x :: rest => (x, { d with clocks := rest })
  | [] => (Config.drawClkPrepare d.tick, { d with tick := d.tick + 1 })

/-- How far the time source has moved beyond its law, and what is left to draw. -/
def nextElapsed (d : Draws) : Nat × Draws :=
  match d.elapsed with
  | x :: rest => (x, { d with elapsed := rest })
  | [] => (Config.drawElapsed d.tick, { d with tick := d.tick + 1 })

/-- `Now()` (R262): at least the last value read plus the delays since; what it returns is the new least. -/
def readNow (s : State) : Nat × State :=
  let t := s.now + (nextElapsed s.env).1
  (t, { s with now := t, env := (nextElapsed s.env).2 })

/-! ### The register bus -/

/-- The response the trace shows (R56). -/
def writeResp : WriteAnswer → BusResp
  | .ok => .ok
  | .busErr _ => .busErr

/-- The selected bits that take their new value (R52, R56): all on OK, those that landed on BUSERR. -/
def landedMask (mask : Nat) : WriteAnswer → Nat
  | .ok => mask
  | .busErr landed => mask &&& landed

/-- The word of a read answer, as wide as the bus (R57). -/
def busAnswer (n : Widths) : ReadAnswer → ReadAnswer
  | .word w => .word (w % 2 ^ n.regBits)
  | .busErr => .busErr

/-- `MemWrite(a, 4, w)` and its event (R52, R56, R100). -/
def busWrite (a : Nat) (w : Nat) (s : State) : BusResp × State :=
  let ans := (nextWrite s.env).1
  (writeResp ans,
    emit (.wr a w (writeResp ans))
      { s with
        regs := maskedWrite s.cfg.widths s.regs a (landedMask (maskHalf s.cfg.widths w) ans) (dataHalf s.cfg.widths w)
        env := (nextWrite s.env).2 })

/-- `MemRead(a, 4)` and its event (R57, R123). A read has no effect on `REGS`. -/
def busRead (a : Nat) (s : State) : ReadAnswer × State :=
  let ans := busAnswer s.cfg.widths (nextRead s.env).1
  (ans, emit (.rd a ans) { s with env := (nextRead s.env).2 })

/-! ### How a micro-operation goes on -/

/-- Go on from a completed action; an error or a fault ends the micro-operation (R194). -/
def andThen (a : Act) (k : State → Act) : Act :=
  match a with
  | .done s => k s
  | .raised e s => .raised e s
  | .fault r => .fault r

/-- Change the state an action leaves, however it ended. -/
def onState (g : State → State) (a : Act) : Act :=
  match a with
  | .done s => .done (g s)
  | .raised e s => .raised e (g s)
  | .fault r => .fault r

/-- The field an identifier names, at an offset where a register lies (R14, R59, R84, R143). -/
def withField (f : FieldId) (s : State) (k : RegisterField → Act) : Act :=
  match lookupField s.cfg.variant f with
  | none => .fault (.undefinedField f)
  | some fld =>
    if aligned s.cfg.widths fld.offset = false then .fault (.misalignedOffset fld.offset)
    else if 2 ^ s.cfg.widths.addrBits ≤ fld.offset then .fault (.offsetOutOfRange fld.offset)
    else k fld

/-- The masked bitfield write, without the step of `UPC` (R100, R152 `hook_write`). -/
def writeField (f : FieldId) (enabled : Bool) (s : State) : Act :=
  withField f s fun fld =>
    match busWrite fld.offset (writeWord s.cfg.widths fld enabled) s with
    | (.ok, s') => .done s'
    | (.busErr, s') => .raised .registerError s'

/-! ### The end of a command -/

/-- `finish(code)` (R227). -/
def finish (cmd : HostCmd) (code : ResultCode) (s : State) : State :=
  { emit (.result cmd code) { s with result := code } with busy := false }

/-- The part of an abort that depends on the image (R254): a bring-up image leaves `STATE` Idle. -/
def abortState (s : State) : State :=
  if isBringUp s.romsel then emit (.state .idle) { s with seqState := .idle } else s

/-- Abort with an error (R254): taking an exception, for this block. Nothing is rolled back. -/
def abort (e : ErrorCode) (s : State) : State := finish (imageCommand s.romsel) (.error e) (abortState s)

/-- The end of a micro-operation (R191): it advances, or aborts the image. -/
def complete (a : Act) : Result :=
  match a with
  | .done s => .next (advance s)
  | .raised e s => .next (abort e s)
  | .fault r => .fault r

/-! ### Scratch state -/

/-- Leaving a POLL: its scratch state is unspecified from here on (R33). -/
def leavePoll (s : State) : State :=
  { s with
    pollT0 := Config.freeScratch s.env.tick
    pollN := Config.freeScratch (s.env.tick + 1)
    env := { s.env with tick := s.env.tick + 2 } }

/-- Leaving a HOOK: its scratch state is unspecified from here on (R34). -/
def leaveHook (s : State) : State :=
  { s with
    hookIdx := Config.freeScratch s.env.tick
    hookSub := Config.freeScratch (s.env.tick + 1)
    env := { s.env with tick := s.env.tick + 2 } }

end Sys2Proof.Machine
end

