-- ==== Sys2Proof/Machine/Commands.lean ====
section
/-!
DEFINITION. The host commands (spec/46_host_commands.md R220 to R227). A command is accepted only while `BUSY = 0`;
one that runs an image leaves `BUSY = 1`, and the sequencer runs the image in the steps that follow.
-/

namespace Sys2Proof.Machine

/-- Acceptance of a command (R220, R266): refused while `BUSY = 1`, else `BUSY <- 1` and the command is
performed. -/
def accept (s : State) (k : State → Result) : Result :=
  if s.busy then .refused .commandWhileBusy else k { s with busy := true }

/-- ASSIGN_TYPE (R221), one indivisible step (R222). -/
def execAssignType (t : BitVec 8) (s : State) : Result :=
  accept s fun s =>
    match requestedType t with
    | none => .next (finish .assignType (.error .invalidType) s)
    | some p =>
      if s.protoType = .unassigned then .next (finish .assignType .ok { s with protoType := p })
      else if s.protoType = p then .next (finish .assignType .ok s)
      else .next (finish .assignType (.error .typeConflict) s)

/-- INIT (R223, R224). -/
def execInit (s : State) : Result :=
  accept s fun s =>
    if s.protoType = .unassigned then .next (finish .init (.error .invalidType) s)
    else if s.seqState = .ready then .refused .initWhileReady
    else .next (startImage (bringUpImage s.protoType) s)

/-- EXIT (R225). -/
def execExit (s : State) : Result :=
  accept s fun s => .next (startImage .exit s)

/-- COMPLIANCE_TEST (R226). -/
def execComplianceTest (s : State) : Result :=
  accept s fun s =>
    if s.protoType ≠ .usb3 then .next (finish .complianceTest (.error .typeMismatch) s)
    else if s.cfg.variant.cmplHook then .next (startImage .cmpl s)
    else .next (finish .complianceTest .ok s)

end Sys2Proof.Machine
end

