-- ==== Sys2Proof/Machine/RegisterPort.lean ====
section
/-!
DEFINITION. The Bitfield Register Port: WRF (spec/41_register_port.md R100 to R106).
-/

namespace Sys2Proof.Machine

/-- WRF (R100): one transaction, never retried (R104). -/
def execWrf (f : FieldId) (enabled : Bool) (s : State) : Result := complete (writeField f enabled s)

end Sys2Proof.Machine
end

