-- ==== Sys2Proof/Machine/ResetClock.lean ====
section
/-!
DEFINITION. The Reset/Clock Resource Set: RSTA, RSTD, CLKEN, CLKDIS, DELAY (spec/44_reset_clock.md R170 to R180).
-/

namespace Sys2Proof.Machine

/-- Drive a reset line, if it is present (R171, R172). -/
def driveLine (l : ResetLine) (asserted : Bool) (s : State) : State :=
  match getLine s.rst l with
  | none => s
  | some _ => emit (.rst l asserted) { s with rst := setLine s.rst l (some asserted) }

/-- RSTA (R171). -/
def execRsta (l : ResetLine) (s : State) : Result := .next (advance (driveLine l true s))

/-- RSTD (R172). -/
def execRstd (l : ResetLine) (s : State) : Result := .next (advance (driveLine l false s))

/-- CLKEN (R174): the provider answers whether the clock can be prepared. -/
def execClken (s : State) : Result :=
  let s' := { s with env := (nextClock s.env).2 }
  complete
    (if (nextClock s.env).1 then .done (emit (.clk true) { s' with clkEn := true })
     else .raised .resourceUnavailable (emit .clkFail s'))

/-- CLKDIS (R175). -/
def execClkdis (s : State) : Result := .next (advance (emit (.clk false) { s with clkEn := false }))

/-- DELAY (R177). -/
def execDelay (k : DelayKind) (s : State) : Result :=
  .next (advance (wait (delayWait k) (delayUs s.cfg k) s))

end Sys2Proof.Machine
end

