-- ==== Sys2Proof/Machine/Sequencing.lean ====
section
/-!
DEFINITION. The micro-operations of the state machine: SETST and END (spec/45_sequencer.md R192, R193).
-/

namespace Sys2Proof.Machine

/-- END (R193): `UPC` stays at the END. -/
def execEnd (s : State) : Result := .next (finish (imageCommand s.romsel) .ok s)

/-- SETST (R192). -/
def execSetst (st : SeqState) (s : State) : Result :=
  .next (advance (emit (.state st) { s with seqState := st }))

end Sys2Proof.Machine
end

