-- ==== Sys2Proof/Machine/StatusPoller.lean ====
section
/-!
DEFINITION. The Status Poller: POLL (spec/42_status_poller.md R120 to R129).
-/

namespace Sys2Proof.Machine

/-- The loop of R123, with at most the given number of reads to go. -/
def pollLoop (fld : RegisterField) (c : TimeoutCode) : Nat → State → Act
  | 0, _ => .fault .pollBoundExceeded
  | n + 1, s =>
    let r := (busRead fld.offset s).1
    let s1 := { (busRead fld.offset s).2 with pollN := s.pollN + 1 }
    match r with
    | .busErr => .raised .registerError s1
    | .word w =>
      if fieldMatches fld w then .done s1
      else
        let t := (readNow s1).1
        let s2 := (readNow s1).2
        if t - s2.pollT0 > s2.cfg.pollTimeoutUs then .raised (timeoutError c) s2
        else pollLoop fld c n (wait .pollInterval s2.cfg.pollIntervalUs s2)

/-- The start of a poll (R123): `POLL_T0 <- Now()`, `POLL_N <- 0`. -/
def enterPoll (s : State) : State := { (readNow s).2 with pollT0 := (readNow s).1, pollN := 0 }

/-- The reads a POLL may make: more than the bound of R126, which says that the loop has ended by then unless the poll
interval is 0; with an interval of 0 it has ended by then if it ends within the answers the script holds
(log entry 13). -/
def pollFuel (s : State) : Nat := maxPollReads s.cfg + s.env.reads.length

/-- POLL (R120, R123). -/
def execPoll (f : FieldId) (c : TimeoutCode) (s : State) : Result :=
  complete (withField f s fun fld =>
    onState leavePoll (pollLoop fld c (pollFuel s) (enterPoll s)))

end Sys2Proof.Machine
end

