-- ==== Sys2Proof/Machine/TuneHook.lean ====
section
/-!
DEFINITION. The fine-tuning hook: HOOK (spec/43_variant_config.md R149 to R156).
-/

namespace Sys2Proof.Machine

/-- The write list of a RATE step, from the write `HOOK_SUB` on (R152). -/
def runHookWrites : List HookWrite → State → Act
  | [], s => .done s
  | w :: rest, s =>
    andThen (writeField w.field w.enabled s) fun s' => runHookWrites rest { s' with hookSub := s'.hookSub + 1 }

/-- The entry of a RATE table for a rate: exact equality with a key (R153). -/
def rateEntry (table : List RateEntry) (rateHz : BitVec 32) : Option RateEntry :=
  table.find? (fun r => r.rateHz == rateHz)

/-- One hook step (R152). -/
def runHookStep (st : HookStep) (s : State) : Act :=
  match st with
  | .write w => writeField w.field w.enabled s
  | .rate table =>
    match rateEntry table s.cfg.refclkRateHz with
    | none => .raised .unsupportedClockRate s
    | some r => runHookWrites r.writes { s with hookSub := 0 }

/-- The steps of the hook from `HOOK_IDX` on (R152). -/
def runHookSteps : List HookStep → State → Act
  | [], s => .done s
  | st :: rest, s =>
    andThen (runHookStep st s) fun s' => runHookSteps rest { s' with hookIdx := s'.hookIdx + 1 }

/-- HOOK (R151, R152): without a hook it only advances (R156 (a)). -/
def execHook (s : State) : Result :=
  match s.cfg.variant.tuneHook with
  | none => .next (advance s)
  | some h => complete (onState leaveHook (runHookSteps (hookSteps h s.protoType) { s with hookIdx := 0 }))

end Sys2Proof.Machine
end

