-- ==== Sys2Proof/Machine/Dispatch.lean ====
section
/-!
DEFINITION. The meaning of every instruction, one arm each.
-/

namespace Sys2Proof.Machine

def exec (i : Instr) (s : State) : Host.Outcome State Fault Refusal :=
  match i with
  | .assignType t => Sys2Proof.Machine.execAssignType t s
  | .init => Sys2Proof.Machine.execInit s
  | .exit => Sys2Proof.Machine.execExit s
  | .complianceTest => Sys2Proof.Machine.execComplianceTest s
  | .endOp => Sys2Proof.Machine.execEnd s
  | .setst st => Sys2Proof.Machine.execSetst st s
  | .rsta l => Sys2Proof.Machine.execRsta l s
  | .rstd l => Sys2Proof.Machine.execRstd l s
  | .clken => Sys2Proof.Machine.execClken s
  | .clkdis => Sys2Proof.Machine.execClkdis s
  | .delay k => Sys2Proof.Machine.execDelay k s
  | .wrf f e => Sys2Proof.Machine.execWrf f e s
  | .poll f c => Sys2Proof.Machine.execPoll f c s
  | .hook => Sys2Proof.Machine.execHook s

end Sys2Proof.Machine
end

