-- ==== Sys2Proof/Machine/Fetch.lean ====
section
/-!
DEFINITION. Where the machine takes its next instruction: the word of the image while `BUSY = 1`
(spec/45_sequencer.md R191), the host's command word while `BUSY = 0` (spec/46_host_commands.md R220).
-/

namespace Sys2Proof.Machine

/-- `IMAGE[ROMSEL][UPC]` (R191); none past the end of the image. -/
def fetchUop (s : State) : Option UopWord := (selectImage s.rom s.romsel)[s.upc.toNat]?

/-- The command word the host issues next, and the state with it taken from the port (R220). -/
def fetchCommand (s : State) : Option (CmdWord × State) :=
  match s.hostCmds with
  | [] => none
  | w :: rest => some (w, { s with hostCmds := rest })

/-- What a step finds to do. -/
inductive Fetched where
  /-- Run this instruction in this state. -/
  | run (i : Instr) (s : State)
  /-- `BUSY = 0` and the host issues no command (R281). -/
  | nothing
  /-- The machine stops. -/
  | fault (r : Fault)
  /-- The model has no step. -/
  | refused (r : Refusal)
  deriving DecidableEq, Repr

/-- The fetch while `BUSY = 1` (R191, R84). -/
def fetchMicroOp (s : State) : Fetched :=
  match fetchUop s with
  | none => .fault .upcOutOfImage
  | some w =>
    match decodeUop w with
    | none => .refused .invalidMicroOp
    | some i => .run i s

/-- The fetch while `BUSY = 0` (R220, R228). -/
def fetchHostCommand (s : State) : Fetched :=
  match fetchCommand s with
  | none => .nothing
  | some (w, s') =>
    match decodeCmd w with
    | none => .refused .invalidCommand
    | some i => .run i s'

/-- The fetch. -/
def fetch (s : State) : Fetched := if s.busy then fetchMicroOp s else fetchHostCommand s

/-- A state in which the host issues this command word next: the port is free and the word is at its head. -/
def placeCommand (w : CmdWord) (s : State) : State := { s with busy := false, hostCmds := w :: s.hostCmds }

/-- A state in which the sequencer runs, and this word stands where it fetches. -/
def placeMicroOp (w : UopWord) (s : State) : State :=
  { s with
    busy := true
    rom := replaceImage s.rom s.romsel (putWord s.upc.toNat w (selectImage s.rom s.romsel)) }

end Sys2Proof.Machine
end

