-- ==== Sys2Proof/Machine/Step.lean ====
section
/-!
DEFINITION. One step of the machine: a micro-operation while `BUSY = 1` (spec/45_sequencer.md R191), else a host
command (spec/46_host_commands.md R220), else nothing (spec/70_reset_and_hazards.md R281).
-/

namespace Sys2Proof.Machine

/-- One step. -/
def step (s : State) : Host.Outcome State Fault Refusal :=
  match fetch s with
  | .run i s' => exec i s'
  | .nothing => .next s
  | .fault r => .fault r
  | .refused r => .refused r

/-- The state in which the very next step runs the instruction with these bits: a command word (32 bits) is
issued by the host, a micro-operation word is placed where the sequencer fetches (log entry 4). -/
def State.withFetchWord (s : State) (nbits w : Nat) : State :=
  if nbits = 32 then placeCommand (BitVec.ofNat 32 w) s else placeMicroOp (BitVec.ofNat 16 w) s

end Sys2Proof.Machine
end

