-- ==== Sys2Proof/Machine/Assembler.lean ====
section
/-!
DEFINITION. The assembler syntax (spec/30_encoding.md R80, R87 to R89): a line is a mnemonic and its operands, and
stands for one instruction, or for two when it is the pseudo-instruction WRPAIR. Lines are given already cut into a
mnemonic and operands; how a literal is spelt in text, and how a field private to the hook is named, the spec leaves
open (log entry 30, DESIGN CHOICE).
-/

namespace Sys2Proof.Machine

/-- An operand as it is written. -/
inductive AsmArg where
  /-- A name, such as `CTRL`. -/
  | name (s : String)
  /-- A numeric literal `#n`. -/
  | hash (n : Nat)
  /-- A digit, the `0` or `1` of WRF. -/
  | digit (n : Nat)
  deriving DecidableEq, Repr

/-- The names of the fields (R80). DESIGN CHOICE (log entry 30): the identifiers 0x20 to 0xFF have no name here. R80
calls them HOOKF_n and does not say what n is; a line names such a field as `#<id>` (R88) only. -/
def fieldNames : List (String × FieldId) :=
  [("L1PD_SET", 0x01#8), ("L1PD_SEL", 0x02#8), ("TXRX_SET", 0x03#8), ("TXRX_SEL", 0x04#8),
   ("CLKREQ_SET", 0x05#8), ("CLKREQ_SEL", 0x06#8), ("RATE_SET", 0x07#8), ("RATE_SEL", 0x08#8),
   ("MODE_SET", 0x09#8), ("MODE_SEL", 0x0A#8), ("WIDTH_SET", 0x0B#8), ("WIDTH_SEL", 0x0C#8),
   ("USB3_SEL", 0x0D#8), ("PLL_LOCK", 0x0E#8), ("LANE_READY", 0x0F#8), ("RX_NEGPULSE", 0x10#8),
   ("LANE_SEL", 0x11#8)]

/-- The names of the states (R88). -/
def stateNames : List (String × SeqState) :=
  [("IDLE", .idle), ("POWERING_ON", .poweringOn), ("CONFIGURING", .configuring),
   ("WAITING_PLL_LOCK", .waitingPllLock), ("WAITING_LANE_READY", .waitingLaneReady), ("READY", .ready),
   ("EXITING", .exiting)]

/-- The names of the reset lines (R88). -/
def lineNames : List (String × ResetLine) :=
  [("CTRL", .ctrl), ("POR", .por), ("REGBUS", .regbus), ("DATAPATH", .datapath)]

/-- The names of the delay kinds (R88). -/
def delayNames : List (String × DelayKind) :=
  [("SETTLE", .settle), ("PRELOCK_PCIE", .prelockPcie), ("PRELOCK_USB3", .prelockUsb3)]

/-- The names of the timeout codes (R88). -/
def timeoutNames : List (String × TimeoutCode) :=
  [("PLL_LOCK_TIMEOUT", .pllLock), ("LANE_READY_TIMEOUT", .laneReady)]

/-- A name looked up in a list of names. -/
def argName {α : Type} (names : List (String × α)) : AsmArg → Option α
  | .name s => names.lookup s
  | .hash _ => none
  | .digit _ => none

/-- An 8-bit literal. -/
def byteLiteral (n : Nat) : Option (BitVec 8) := if n < 256 then some (BitVec.ofNat 8 n) else none

/-- A field operand: a name of R80, or `#<id>` (R88) with an identifier that is not reserved (R84). A field private to
the hook has the second form only (log entry 30, DESIGN CHOICE). -/
def argField : AsmArg → Option FieldId
  | .name s => fieldNames.lookup s
  | .hash n => (byteLiteral n).filter (fun f => !reservedFieldId f)
  | .digit _ => none

/-- The enabled operand of WRF (R88). -/
def argEnabled : AsmArg → Option Bool
  | .digit 0 => some false
  | .digit 1 => some true
  | _ => none

/-- The type operand of ASSIGN_TYPE (R87). -/
def argType : AsmArg → Option (BitVec 8)
  | .name s => [("PCIE", 0x02#8), ("USB3", 0x04#8)].lookup s
  | .hash n => byteLiteral n
  | .digit _ => none

/-- The instructions a line stands for (R87 to R89), or none where it is no line of the syntax. -/
def assemble (mnemonic : String) (args : List AsmArg) : Option (List Instr) :=
  match mnemonic, args with
  | "ASSIGN_TYPE", [t] => (argType t).map fun t => [.assignType t]
  | "INIT", [] => some [.init]
  | "EXIT", [] => some [.exit]
  | "COMPLIANCE_TEST", [] => some [.complianceTest]
  | "END", [] => some [.endOp]
  | "SETST", [a] => (argName stateNames a).map fun st => [.setst st]
  | "RSTA", [a] => (argName lineNames a).map fun l => [.rsta l]
  | "RSTD", [a] => (argName lineNames a).map fun l => [.rstd l]
  | "CLKEN", [] => some [.clken]
  | "CLKDIS", [] => some [.clkdis]
  | "DELAY", [a] => (argName delayNames a).map fun k => [.delay k]
  | "SETTLE", [] => some [.delay .settle]
  | "WRF", [f, e] => (argField f).bind fun f => (argEnabled e).map fun e => [.wrf f e]
  | "WRPAIR", [f, g] => (argField f).bind fun f => (argField g).map fun g => [.wrf f true, .wrf g true]
  | "POLL", [f, c] => (argField f).bind fun f => (argName timeoutNames c).map fun c => [.poll f c]
  | "HOOK", [] => some [.hook]
  | _, _ => none

end Sys2Proof.Machine
end

