-- ==== Sys2Proof/Machine/Construct.lean ====
section
/-!
DEFINITION. Construction of an instance from what resource discovery supplies (spec/70_reset_and_hazards.md R280,
R283; spec/43_variant_config.md R141, R148): the state of `State.build`, or no instance at all.
-/

namespace Sys2Proof.Machine

/-- The Variant Configuration Table (R141): chip identifiers, whose form the spec leaves open, and variants. -/
abbrev VariantTable := List (Nat × VariantConfig)

/-- What resource discovery supplies (R283). -/
structure Discovery where
  chip : Nat
  /-- The rate of the reference clock, when there is a clock handle. -/
  refclk : Option (BitVec 32)
  /-- Another instance already owns the register space (R69). -/
  regSpaceOwned : Bool
  /-- The reset lines that are present. -/
  linePresent : PerLine Bool
  deriving DecidableEq, Repr

/-- Why no instance is built (R283); none of these is a result code (R148). Which one is given when several hold at
once is the model's choice (see `construct`). -/
inductive NoInstance where
  | clockMissing
  | unknownChip
  | illFormedVariant
  | registerSpaceOwned
  deriving DecidableEq, Repr

/-- The parameters of an instance: those of the board, with the variant and the rate discovery supplied. -/
def instanceParams (board : Params) (v : VariantConfig) (rateHz : BitVec 32) : Params :=
  { board with variant := v, refclkRateHz := rateHz }

/-- Construction (R283). `board` gives the widths and the timing parameters; its variant and rate are not used.
DESIGN CHOICE (log entry 24): R283 lists the conditions under which no instance is built and gives them no order;
where several hold at once, the reason given is the first of clock, chip, variant and register space. -/
def construct (table : VariantTable) (board : Params) (d : Discovery) (u : OpenValues) : Except NoInstance State :=
  match d.refclk with
  | none => .error .clockMissing
  | some rateHz =>
    match table.lookup d.chip with
    | none => .error .unknownChip
    | some v =>
      if !variantWf board.widths v then .error .illFormedVariant
      else if d.regSpaceOwned then .error .registerSpaceOwned
      else .ok (State.build (instanceParams board v rateHz) d.linePresent u)

end Sys2Proof.Machine
end

