-- ==== Sys2Proof/WellFormed.lean ====
section
/-!
DEFINITION. Which terms of `Instr` are instructions the encoding admits (spec/30_encoding.md R84). State codes,
lines, delay kinds and timeout codes are constructors, so that only a field identifier can be ill formed.
-/

namespace Sys2Proof

/-- An instruction is well formed when its field identifier, if it has one, is not reserved (R84). -/
def Instr.wf : Instr → Bool
  | .assignType _ => true
  | .init => true
  | .exit => true
  | .complianceTest => true
  | .endOp => true
  | .setst _ => true
  | .rsta _ => true
  | .rstd _ => true
  | .clken => true
  | .clkdis => true
  | .delay _ => true
  | .wrf f _ => !reservedFieldId f
  | .poll f _ => !reservedFieldId f
  | .hook => true

/-- The host commands, as against the micro-operations (R70). -/
def Instr.isCommand : Instr → Bool
  | .assignType _ => true
  | .init => true
  | .exit => true
  | .complianceTest => true
  | .endOp => false
  | .setst _ => false
  | .rsta _ => false
  | .rstd _ => false
  | .clken => false
  | .clkdis => false
  | .delay _ => false
  | .wrf _ _ => false
  | .poll _ _ => false
  | .hook => false

end Sys2Proof
end

