-- ==== Sys2Proof/Safety.lean ====
section
/-!
DEFINITION. Where a register lies, what a legal state is, and what a safe trace is, in the terms the statements use:
the states the sequencer passes through (spec/45_sequencer.md R195, R198), the outputs a bring-up or a teardown has
driven so far (R205, R255), and the order of the events of a trace (R205 (a), (b); spec/70_reset_and_hazards.md R287, R288).
-/

namespace Sys2Proof.Machine

/-! ### Registers -/

/-- A register of the register space lies at this offset (R50): where one can, and within the offsets. -/
abbrev registerAt (n : Widths) (a : Nat) : Prop := aligned n a = true ∧ a < 2 ^ n.addrBits

/-! ### Legal positions -/

/-- The states `STATE` has between commands (R198). -/
def isRestState (st : SeqState) : Bool := st == .idle || st == .ready

/-- `STATE` before each micro-operation of ROM_PCIE (R195, R200). -/
def pcieStates : List SeqState :=
  [.idle] ++ List.replicate 6 .poweringOn ++ List.replicate 2 .configuring ++ List.replicate 3 .waitingPllLock
    ++ List.replicate 3 .waitingLaneReady ++ [.ready]

/-- `STATE` before each micro-operation of ROM_USB3 (R195, R201). -/
def usb3States : List SeqState :=
  [.idle] ++ List.replicate 7 .poweringOn ++ List.replicate 15 .configuring ++ List.replicate 3 .waitingPllLock
    ++ List.replicate 4 .waitingLaneReady ++ [.ready]

/-- May `STATE` be `st` before micro-operation `n` of ROM_EXIT (R195, R203)? -/
def exitStateLegal (exitAssertsCtrl : Bool) (n : Nat) (st : SeqState) : Bool :=
  let last := (romExit exitAssertsCtrl).length - 1
  if n = 0 then isRestState st
  else if n < last then st == .exiting
  else n == last && st == .idle

/-- The position of the sequencer and `STATE` fit together (R195, R198), and the image is one that the type
and the variant select (R223, R226). -/
def positionLegal (s : State) : Bool :=
  if s.busy then
    match s.romsel with
    | .pcie => s.protoType == .pcie && pcieStates[s.upc.toNat]? == some s.seqState
    | .usb3 => s.protoType == .usb3 && usb3States[s.upc.toNat]? == some s.seqState
    | .exit => exitStateLegal s.cfg.exitAssertsCtrl s.upc.toNat s.seqState
    | .cmpl => s.protoType == .usb3 && s.cfg.variant.cmplHook && s.upc.toNat ≤ 1 && isRestState s.seqState
  else isRestState s.seqState

/-- The states a run of an instance that construction admits can be in. -/
structure State.Inv (s : State) : Prop where
  /-- The register space is in its canonical form. -/
  regs : memoryWf s.cfg.widths s.regs = true
  /-- The widths fit together, and the variant passes WF1 to WF10 (R148). -/
  params : paramsWf s.cfg = true
  /-- The images are the fixed ones (R67). -/
  images : s.rom = fixedImages s.cfg.exitAssertsCtrl
  /-- The sequencer is at a legal position. -/
  position : positionLegal s = true

/-! ### Outputs -/

/-- What a micro-operation word drives a reset line to, if it drives it. -/
def drives (w : UopWord) (l : ResetLine) : Option Bool :=
  match decodeUop w with
  | some (.rsta k) => if k = l then some true else none
  | some (.rstd k) => if k = l then some false else none
  | _ => none

/-- What a micro-operation word sets the clock request to, if it does. -/
def drivesClock (w : UopWord) : Option Bool :=
  match decodeUop w with
  | some .clken => some true
  | some .clkdis => some false
  | _ => none

/-- What the last word of a list that has an effect has set: `f` gives the effect of one word. -/
def lastEffect (f : UopWord → Option Bool) : List UopWord → Option Bool
  | [] => none
  | w :: ws => (lastEffect f ws).or (f w)

/-- The micro-operations of the running image that have completed (R196). -/
def completedUops (s : State) : List UopWord := (selectImage s.rom s.romsel).take s.upc.toNat

/-- A line has the level, unless it is absent. -/
def lineIs (p : PerLine (Option Bool)) (l : ResetLine) (level : Bool) : Prop :=
  getLine p l = none ∨ getLine p l = some level

/-- The outputs are those the bring-up and the teardown have driven (R205, R255, R267): while an image runs, what
its completed micro-operations set; in state Ready, those of a PHY that is up. -/
structure State.Powered (s : State) : Prop where
  lines : s.busy = true → ∀ l level, lastEffect (fun w => drives w l) (completedUops s) = some level →
    lineIs s.rst l level
  clock : s.busy = true → ∀ on, lastEffect drivesClock (completedUops s) = some on → s.clkEn = on
  readyType : s.seqState = .ready → s.protoType ≠ .unassigned
  readyClock : s.seqState = .ready → s.clkEn = true
  readyLines : s.seqState = .ready → ∀ l, l ≠ .ctrl → lineIs s.rst l false
  readyCtrl : s.seqState = .ready → s.protoType = .usb3 → lineIs s.rst .ctrl false

/-! ### Traces -/

/-- What a trace has shown of the INIT in progress: that it has begun, that controller reset is held asserted by it, a
read in which PLL lock matched, a read in which lane ready matched. -/
structure Scan where
  inInit : Bool
  ctrlHeld : Bool
  pllLocked : Bool
  laneReady : Bool
  deriving DecidableEq, Repr

/-- Nothing shown. -/
def Scan.start : Scan := { inInit := false, ctrlHeld := false, pllLocked := false, laneReady := false }

/-- A read at this offset with this word confirms the field (R122). -/
def readConfirms (v : VariantConfig) (f : FieldId) (a : Nat) (w : Nat) : Bool :=
  match lookupField v f with
  | none => false
  | some fld => fld.offset == a && fieldMatches fld w

/-- What a `State` event shows: an INIT begins with state PoweringOn (R200, R201). -/
def scanState (sc : Scan) (st : SeqState) : Scan :=
  if st = .poweringOn then { inInit := true, ctrlHeld := false, pllLocked := false, laneReady := false } else sc

/-- What a read shows. -/
def scanRead (v : VariantConfig) (sc : Scan) (a : Nat) : ReadAnswer → Scan
  | .busErr => sc
  | .word w =>
    { sc with
      pllLocked := sc.pllLocked || readConfirms v fieldPllLock a w
      laneReady := sc.laneReady || readConfirms v fieldLaneReady a w }

/-- May the PHY be changed now, by its clock, a reset line other than controller reset, or a write? With `bracket`, an
INIT changes it only while it holds controller reset asserted (R205 (b), R287). -/
def mayChange (bracket : Bool) (sc : Scan) : Bool := !(bracket && sc.inInit) || sc.ctrlHeld

/-- May a line be driven now? Data-path reset is deasserted only with PLL lock confirmed in the same INIT
(R205 (a), R288), controller reset only with lane ready confirmed in it (R205 (b), R287). -/
def mayDrive (bracket : Bool) (sc : Scan) (l : ResetLine) (asserted : Bool) : Bool :=
  match l with
  | .ctrl => asserted || (sc.inInit && sc.laneReady)
  | .por => mayChange bracket sc
  | .regbus => mayChange bracket sc
  | .datapath => mayChange bracket sc && (asserted || (sc.inInit && sc.pllLocked))

/-- What driving a line shows. -/
def scanLine (sc : Scan) (l : ResetLine) (asserted : Bool) : Scan :=
  if l = .ctrl then { sc with ctrlHeld := asserted } else sc

/-- One event of a trace; none when it is out of order. -/
def scanEvent (v : VariantConfig) (bracket : Bool) (sc : Scan) (ev : Event) : Option Scan :=
  match ev with
  | .rst l asserted => if mayDrive bracket sc l asserted then some (scanLine sc l asserted) else none
  | .clk _ => if mayChange bracket sc then some sc else none
  | .clkFail => some sc
  | .delay _ _ => some sc
  | .wr _ _ _ => if mayChange bracket sc then some sc else none
  | .rd a ans => some (scanRead v sc a ans)
  | .state st => some (scanState sc st)
  | .result _ _ => some Scan.start

/-- The events of a trace in turn; none when one of them is out of order. -/
def scanTrace (v : VariantConfig) (bracket : Bool) : Scan → List Event → Option Scan
  | sc, [] => some sc
  | sc, ev :: evs => (scanEvent v bracket sc ev).bind fun sc' => scanTrace v bracket sc' evs

/-- The instance's INIT is to hold controller reset: the line is present (R205 (b)), and the type is not PCIe. An
instance without a type has run no INIT. -/
def holdsCtrl (s : State) : Bool := s.protoType != .pcie && s.rst.ctrl.isSome

/-- The index after the PLL-lock poll of a bring-up image (R200, R201). -/
def afterPllPoll : RomSel → Nat
  | .pcie => 11
  | _ => 25

/-- The index after the lane-ready poll of a bring-up image (R200, R201). -/
def afterLanePoll : RomSel → Nat
  | .pcie => 14
  | _ => 28

/-- The trace is in order, and shows what the polls the bring-up has passed have confirmed, and that ROM_USB3 holds
controller reset from its second micro-operation to the one that deasserts it (R201). -/
def State.OrderedTrace (s : State) : Prop :=
  ∃ sc, scanTrace s.cfg.variant (holdsCtrl s) Scan.start s.trace = some sc ∧
    ((s.busy && isBringUp s.romsel) = false → sc.inInit = false) ∧
    (s.busy = true → isBringUp s.romsel = true →
      (1 ≤ s.upc.toNat → sc.inInit = true) ∧
      (holdsCtrl s = true → 2 ≤ s.upc.toNat → s.upc.toNat ≤ afterLanePoll s.romsel → sc.ctrlHeld = true) ∧
      (afterPllPoll s.romsel ≤ s.upc.toNat → sc.pllLocked = true) ∧
      (afterLanePoll s.romsel ≤ s.upc.toNat → sc.laneReady = true))

/-- The reads of a trace at an offset. -/
def countReads (a : Nat) (evs : List Event) : Nat :=
  evs.countP fun ev =>
    match ev with
    | .rd b _ => a == b
    | _ => false

/-- The `Result` events of a trace. -/
def countResults (evs : List Event) : Nat :=
  evs.countP fun ev =>
    match ev with
    | .result _ _ => true
    | _ => false

/-! ### What a hook is to write -/

/-- The masked writes a list of hook steps performs at a rate, in order (R152); none when a RATE step does not
know the rate. -/
def hookPlan (rateHz : BitVec 32) : List HookStep → Option (List HookWrite)
  | [] => some []
  | .write w :: rest => (hookPlan rateHz rest).map (w :: ·)
  | .rate table :: rest =>
    match rateEntry table rateHz with
    | none => none
    | some r => (hookPlan rateHz rest).map (r.writes ++ ·)

/-- The masked writes a list of hook steps issues at a rate, in order, as long as each is answered OK (R152, R156): a
RATE step that does not know the rate ends them. -/
def hookIssued (rateHz : BitVec 32) : List HookStep → List HookWrite
  | [] => []
  | .write w :: rest => w :: hookIssued rateHz rest
  | .rate table :: rest =>
    match rateEntry table rateHz with
    | none => []
    | some r => r.writes ++ hookIssued rateHz rest

/-- The event of a hook write that is answered OK; none when the variant does not define the field. -/
def okWriteEvent (n : Widths) (v : VariantConfig) (w : HookWrite) : Option Event :=
  (lookupField v w.field).map fun fld => .wr fld.offset (writeWord n fld w.enabled) .ok

/-- The register space after a write that is answered OK (R103). -/
def okWriteRegs (n : Widths) (v : VariantConfig) (m : Memory) (w : HookWrite) : Memory :=
  match lookupField v w.field with
  | none => m
  | some fld => maskedWrite n m fld.offset (fieldMask n fld) (fieldData n fld w.enabled)

/-! ### Outcomes -/

/-- Change the next state of an outcome, if it is one. -/
def overNext (g : State → State) (o : Result) : Result :=
  match o with
  | .next t => .next (g t)
  | .fault r => .fault r
  | .refused r => .refused r

/-- The events of the re-reads of a poll: each word is read, does not match, and is followed by the re-read
wait (R123). -/
def pollRounds (a : Nat) (us : Nat) (ws : List Nat) : List Event :=
  ws.flatMap fun w => [.rd a (.word w), .delay .pollInterval us]

end Sys2Proof.Machine
end

