-- ==== Sys2Proof/Certificates/Slice0/Obligations.lean ====
section
/-!
DEFINITION. The statements about the model. Each docstring names the rule of the spec it formalises, or says what
it is derived from.
-/

open Sys2Proof Sys2Proof.Machine

/-! ### Encoding -/

/-- Every well-formed instruction is read back from its word (section 8 of 30_encoding.md). -/
def Obligations.DecodeOfEncode : Prop :=
  ∀ i : Instr, i.wf = true → decode (encode i) = some i

/-- Every word that decodes is the word of the instruction it decodes to, which is well formed
(section 8 of 30_encoding.md). -/
def Obligations.EncodeOfDecode : Prop :=
  ∀ (w : CodeWord) (i : Instr), decode w = some i → encode i = w ∧ i.wf = true

/-- R83: exactly these command words spell no command, and the block refuses each. -/
def Obligations.ReservedCommandWordsRefused : Prop :=
  ∀ w : CmdWord,
    (decodeCmd w = none ↔
      w.toNat / 4096 ≠ 0 ∨ w.toNat % 16 = 0 ∨ 5 ≤ w.toNat % 16 ∨
        (2 ≤ w.toNat % 16 ∧ w.toNat % 16 ≤ 4 ∧ w.toNat / 16 % 256 ≠ 0)) ∧
    (decodeCmd w = none → ∀ s : State, ∀ rest, s.busy = false → s.hostCmds = w :: rest →
      step s = .refused .invalidCommand)

/-- Exactly these micro-operation words are invalid (section 6 of 30_encoding.md). -/
def Obligations.ReservedMicroOpWordsInvalid : Prop :=
  ∀ w : UopWord,
    let op := w.toNat / 4096
    let arg := w.toNat % 4096
    let f := w.toNat % 256
    let reserved := f = 0 ∨ (0x12 ≤ f ∧ f ≤ 0x1F)
    (decodeUop w = none ↔
      10 ≤ op ∨ ((op = 0 ∨ op = 4 ∨ op = 5 ∨ op = 9) ∧ arg ≠ 0) ∨ (op = 1 ∧ 7 ≤ arg) ∨
        ((op = 2 ∨ op = 3) ∧ 4 ≤ arg) ∨ (op = 6 ∧ 3 ≤ arg) ∨ (op = 7 ∧ (512 ≤ arg ∨ reserved)) ∨
        (op = 8 ∧ ((arg / 256 ≠ 5 ∧ arg / 256 ≠ 6) ∨ reserved)))

/-- Words written out in the spec decode to what it says they are (95_test_vectors.md section 2.1; `0x1005` section 2.6,
`0x3001` section 2.4; `0x9000` 43_variant_config.md section 3). -/
def Obligations.SpecWordsDecode : Prop :=
  decodeTableWord 32 0x00000021 = some (.assignType 0x02#8) ∧ decodeTableWord 32 0x2 = some .init ∧
    decodeTableWord 32 0x3 = some .exit ∧ decodeTableWord 32 0x4 = some .complianceTest ∧
    decodeTableWord 16 0x850E = some (.poll fieldPllLock .pllLock) ∧
    decodeTableWord 16 0x860F = some (.poll fieldLaneReady .laneReady) ∧
    decodeTableWord 16 0x7120 = some (.wrf 0x20#8 true) ∧ decodeTableWord 16 0x1005 = some (.setst .ready) ∧
    decodeTableWord 16 0x3001 = some (.rstd .por) ∧ decodeTableWord 16 0x9000 = some .hook

/-- An assembler line gives only well-formed instructions, and WRPAIR is the set write and then the select
write, SETTLE the settle delay (section 7 of 30_encoding.md). -/
def Obligations.AssembledLinesAreWellFormed : Prop :=
  (∀ m args is, assemble m args = some is → ∀ i ∈ is, i.wf = true) ∧
    (∀ a b f g, argField a = some f → argField b = some g →
      assemble "WRPAIR" [a, b] = some [.wrf f true, .wrf g true]) ∧
    assemble "SETTLE" [] = some [.delay .settle]

/-! ### The step -/

/-- A step runs the instruction the fetched word decodes to: the word of the image while `BUSY = 1`, the host's
command word, taken from the port, while `BUSY = 0` (45_sequencer.md section 1, 46_host_commands.md section 1). -/
def Obligations.StepRunsFetchedInstruction : Prop :=
  (∀ (s : State) (w : UopWord) (i : Instr), s.busy = true →
      (selectImage s.rom s.romsel)[s.upc.toNat]? = some w → decodeUop w = some i → step s = exec i s) ∧
    (∀ (s : State) (w : CmdWord) (rest : List CmdWord) (i : Instr), s.busy = false → s.hostCmds = w :: rest →
      decodeCmd w = some i → step s = exec i { s with hostCmds := rest })

/-- While the block is idle and the host issues nothing, it waits (70_reset_and_hazards.md section 1). That a
waiting step is a step that changes nothing is the model's choice (log entry 5). -/
def Obligations.IdleBlockWaits : Prop :=
  ∀ s : State, s.busy = false → s.hostCmds = [] → step s = .next s

/-! ### Host commands -/

/-- R221: ASSIGN_TYPE. -/
def Obligations.AssignTypeResult : Prop :=
  ∀ (t : BitVec 8) (s : State), s.busy = false →
    encode (.assignType t) = .cmd (0x00000001#32 ||| (t.setWidth 32 <<< 4)) ∧
    (t ≠ 0x02#8 → t ≠ 0x04#8 →
      exec (.assignType t) s = .next { s with
        result := .error .invalidType, trace := s.trace ++ [.result .assignType (.error .invalidType)] }) ∧
    (∀ p : ProtoType, (p = .pcie ∧ t = 0x02#8) ∨ (p = .usb3 ∧ t = 0x04#8) →
      (s.protoType = .unassigned →
        exec (.assignType t) s = .next { s with
          protoType := p, result := .ok, trace := s.trace ++ [.result .assignType .ok] }) ∧
      (s.protoType = p →
        exec (.assignType t) s = .next { s with
          result := .ok, trace := s.trace ++ [.result .assignType .ok] }) ∧
      (s.protoType ≠ .unassigned → s.protoType ≠ p →
        exec (.assignType t) s = .next { s with
          result := .error .typeConflict, trace := s.trace ++ [.result .assignType (.error .typeConflict)] }))

/-- R224: INIT without a type, INIT in state Ready, INIT in any other state. -/
def Obligations.InitPreconditions : Prop :=
  ∀ s : State, s.busy = false →
    (s.protoType = .unassigned →
      exec .init s = .next { s with
        result := .error .invalidType, trace := s.trace ++ [.result .init (.error .invalidType)] }) ∧
    (s.protoType ≠ .unassigned → s.seqState = .ready → exec .init s = .refused .initWhileReady) ∧
    (s.protoType ≠ .unassigned → s.seqState ≠ .ready →
      exec .init s = .next { s with
        busy := true, romsel := if s.protoType = .pcie then .pcie else .usb3, upc := 0#6 })

/-- R226: COMPLIANCE_TEST. The type check, then the hook check, then ROM_CMPL: one write of RX_NEGPULSE with E = 1,
and the result its answer gives; `STATE` does not change. -/
def Obligations.ComplianceTestResult : Prop :=
  encode .complianceTest = .cmd 0x00000004#32 ∧
  (∀ s : State, s.busy = false →
    (s.protoType ≠ .usb3 →
      exec .complianceTest s = .next { s with
        result := .error .typeMismatch, trace := s.trace ++ [.result .complianceTest (.error .typeMismatch)] }) ∧
    (s.protoType = .usb3 → s.cfg.variant.cmplHook = false →
      exec .complianceTest s = .next { s with
        result := .ok, trace := s.trace ++ [.result .complianceTest .ok] }) ∧
    (s.protoType = .usb3 → s.cfg.variant.cmplHook = true →
      exec .complianceTest s = .next { s with busy := true, romsel := .cmpl, upc := 0#6 })) ∧
  (∀ (s : State) (rest : List CmdWord) (fld : RegisterField), s.Inv → s.busy = false → s.protoType = .usb3 →
    s.cfg.variant.cmplHook = true → s.hostCmds = 0x00000004#32 :: rest →
    lookupField s.cfg.variant fieldRxNegpulse = some fld →
    ((nextWrite s.env).1 = .ok → ∃ t, Host.Core.run Sys2Proof.core 3 s = .next t ∧
      t.busy = false ∧ t.result = .ok ∧ t.seqState = s.seqState ∧
      t.regs = maskedWrite s.cfg.widths s.regs fld.offset (fieldMask s.cfg.widths fld)
        (fieldData s.cfg.widths fld true) ∧
      t.trace = s.trace ++ [.wr fld.offset (writeWord s.cfg.widths fld true) .ok, .result .complianceTest .ok]) ∧
    (∀ landed, (nextWrite s.env).1 = .busErr landed → ∃ t, Host.Core.run Sys2Proof.core 2 s = .next t ∧
      t.busy = false ∧ t.result = .error .registerError ∧ t.seqState = s.seqState ∧
      t.regs = maskedWrite s.cfg.widths s.regs fld.offset (fieldMask s.cfg.widths fld &&& landed)
        (fieldData s.cfg.widths fld true) ∧
      t.trace = s.trace ++ [.wr fld.offset (writeWord s.cfg.widths fld true) .busErr,
        .result .complianceTest (.error .registerError)]))

/-- A command that reaches the port while `BUSY = 1` has no step (46_host_commands.md section 1). -/
def Obligations.CommandsRefusedWhileBusy : Prop :=
  ∀ (i : Instr) (s : State), i.isCommand = true → s.busy = true → exec i s = .refused .commandWhileBusy

/-! ### State machine micro-operations -/

/-- R192: SETST. -/
def Obligations.SetstResult : Prop :=
  ∀ (st : SeqState) (s : State),
    encode (.setst st) = .uop (0x1000#16 ||| (seqStateCode st).setWidth 16) ∧
    exec (.setst st) s = .next { s with
      seqState := st, trace := s.trace ++ [.state st], upc := s.upc + 1#6 }

/-- END: success of the command whose image runs; `UPC` and `STATE` stay (45_sequencer.md section 1). -/
def Obligations.EndResult : Prop :=
  encode .endOp = .uop 0x0000#16 ∧
  ∀ s : State,
    exec .endOp s = .next { s with
      result := .ok, busy := false
      trace := s.trace ++ [.result
        (match s.romsel with | .pcie => .init | .usb3 => .init | .exit => .exit | .cmpl => .complianceTest) .ok] }

/-! ### Reset lines, clock, delays -/

/-- R171 and R172: RSTA and RSTD. A present line takes its level and the event is emitted, whatever the level was;
an absent line is no event and no change. -/
def Obligations.RstaRstdResult : Prop :=
  ∀ (l : ResetLine) (s : State),
    encode (.rsta l) = .uop (0x2000#16 ||| (lineCode l).setWidth 16) ∧
    encode (.rstd l) = .uop (0x3000#16 ||| (lineCode l).setWidth 16) ∧
    (getLine s.rst l = none →
      exec (.rsta l) s = .next { s with upc := s.upc + 1#6 } ∧
      exec (.rstd l) s = .next { s with upc := s.upc + 1#6 }) ∧
    (∀ level, getLine s.rst l = some level →
      (∃ p : PerLine (Option Bool), getLine p l = some true ∧ (∀ k, k ≠ l → getLine p k = getLine s.rst k) ∧
        exec (.rsta l) s = .next { s with
          rst := p, trace := s.trace ++ [.rst l true], upc := s.upc + 1#6 }) ∧
      (∃ p : PerLine (Option Bool), getLine p l = some false ∧ (∀ k, k ≠ l → getLine p k = getLine s.rst k) ∧
        exec (.rstd l) s = .next { s with
          rst := p, trace := s.trace ++ [.rst l false], upc := s.upc + 1#6 }))

/-- R174: CLKEN, when the clock can be prepared and when it cannot. -/
def Obligations.ClkenResult : Prop :=
  encode .clken = .uop 0x4000#16 ∧
  ∀ s : State,
    ((nextClock s.env).1 = true →
      exec .clken s = .next { s with
        clkEn := true, trace := s.trace ++ [.clk true], upc := s.upc + 1#6, env := (nextClock s.env).2 }) ∧
    ((nextClock s.env).1 = false →
      exec .clken s = .next (abort .resourceUnavailable { s with
        trace := s.trace ++ [.clkFail], env := (nextClock s.env).2 }))

/-- R175: CLKDIS. -/
def Obligations.ClkdisResult : Prop :=
  encode .clkdis = .uop 0x5000#16 ∧
  ∀ s : State,
    exec .clkdis s = .next { s with clkEn := false, trace := s.trace ++ [.clk false], upc := s.upc + 1#6 }

/-- R177: DELAY; the time source moves at least by the wait. -/
def Obligations.DelayResult : Prop :=
  ∀ (k : DelayKind) (s : State),
    let us := match k with
      | .settle => s.cfg.tSettleUs
      | .prelockPcie => s.cfg.tPrelockPcieUs
      | .prelockUsb3 => s.cfg.tPrelockUsb3Us
    let kind : WaitKind := match k with
      | .settle => .settle
      | .prelockPcie => .prelockPcie
      | .prelockUsb3 => .prelockUsb3
    encode (.delay k) = .uop (0x6000#16 ||| (delayCode k).setWidth 16) ∧
    exec (.delay k) s = .next { s with
      now := s.now + us, trace := s.trace ++ [.delay kind us], upc := s.upc + 1#6 }

/-! ### The register port -/

/-- R102: the field mask is the field's bit range, whatever the widths. -/
def Obligations.FieldMaskIsBitRange : Prop :=
  ∀ (n : Widths) (f : RegisterField), f.bitStart ≤ f.bitEnd →
    (f.bitEnd < n.half → fieldMask n f = (2 ^ (f.bitEnd - f.bitStart + 1) - 1) <<< f.bitStart) ∧
    fieldMask n f < 2 ^ n.half ∧
    ∀ i, i < n.half → (fieldMask n f).testBit i = (decide (f.bitStart ≤ i) && decide (i ≤ f.bitEnd))

/-- R101: the write word, and that masking removes no bit of the value of a well-formed written field. -/
def Obligations.WriteWordHoldsMaskAndValue : Prop :=
  ∀ (n : Widths) (f : RegisterField) (e : Bool),
    let v := if e then f.enableValue else f.disableValue
    writeWord n f e / 2 ^ n.half = fieldMask n f ∧
    writeWord n f e % 2 ^ n.half = (v <<< f.bitStart) &&& fieldMask n f ∧
    (2 * n.half = n.regBits → writeWord n f e < 2 ^ n.regBits) ∧
    (f.bitStart ≤ f.bitEnd → f.bitEnd < n.half → v < 2 ^ (f.bitEnd - f.bitStart + 1) →
      writeWord n f e % 2 ^ n.half = v <<< f.bitStart)

/-- The masked write takes the selected data bits, leaves every other bit of the register and every other
register, and keeps the canonical form (20_memory.md section 2). -/
def Obligations.MaskedWriteTakesSelectedBits : Prop :=
  ∀ (n : Widths) (m : Memory) (a : Nat) (mask data : Nat), widthsWf n = true → memoryWf n m = true →
    registerAt n a →
    memoryWf n (maskedWrite n m a mask data) = true ∧
    (∀ i, i < n.regBits → (readReg n (maskedWrite n m a mask data) a).testBit i =
      if mask.testBit i then data.testBit i else (readReg n m a).testBit i) ∧
    (∀ b : Nat, registerAt n b → b ≠ a → readReg n (maskedWrite n m a mask data) b = readReg n m b)

/-- R52 and R56: a write transaction and its two answers. On OK the selected bits take the data, on BUSERR each
selected bit has its old value or the new one. -/
def Obligations.WriteTransactionAnswers : Prop :=
  ∀ (a : Nat) (w : Nat) (s : State), widthsWf s.cfg.widths = true → memoryWf s.cfg.widths s.regs = true →
    registerAt s.cfg.widths a →
    let s' := (busWrite a w s).2
    let n := s.cfg.widths
    ((nextWrite s.env).1 = .ok →
      (busWrite a w s).1 = .ok ∧ s'.trace = s.trace ++ [.wr a w .ok] ∧
      ∀ i, i < n.regBits → (readReg n s'.regs a).testBit i =
        if decide (i < n.half) && w.testBit (i + n.half) then w.testBit i else (readReg n s.regs a).testBit i) ∧
    (∀ landed, (nextWrite s.env).1 = .busErr landed →
      (busWrite a w s).1 = .busErr ∧ s'.trace = s.trace ++ [.wr a w .busErr] ∧
      ∀ i, i < n.regBits → (readReg n s'.regs a).testBit i =
        if decide (i < n.half) && w.testBit (i + n.half) && landed.testBit i then w.testBit i
        else (readReg n s.regs a).testBit i)

/-- WRF issues one write transaction; it completes when the answer is OK and aborts with RegisterError when it
is BUSERR (41_register_port.md section 1). -/
def Obligations.WrfIssuesOneTransaction : Prop :=
  ∀ (f : FieldId) (e : Bool) (fld : RegisterField) (s : State),
    lookupField s.cfg.variant f = some fld → registerAt s.cfg.widths fld.offset →
    ((nextWrite s.env).1 = .ok →
      exec (.wrf f e) s = .next { s with
        regs := maskedWrite s.cfg.widths s.regs fld.offset (fieldMask s.cfg.widths fld) (fieldData s.cfg.widths fld e)
        trace := s.trace ++ [.wr fld.offset (writeWord s.cfg.widths fld e) .ok]
        upc := s.upc + 1#6
        env := (nextWrite s.env).2 }) ∧
    (∀ landed, (nextWrite s.env).1 = .busErr landed →
      exec (.wrf f e) s = .next (abort .registerError { s with
        regs := maskedWrite s.cfg.widths s.regs fld.offset (fieldMask s.cfg.widths fld &&& landed)
          (fieldData s.cfg.widths fld e)
        trace := s.trace ++ [.wr fld.offset (writeWord s.cfg.widths fld e) .busErr]
        env := (nextWrite s.env).2 }))

/-- R103: a WRF that is answered OK puts the value in the field's bits and leaves every other bit of the register
and every other byte of the register space. -/
def Obligations.WrfAltersOnlyItsField : Prop :=
  ∀ (f : FieldId) (e : Bool) (fld : RegisterField) (s : State),
    lookupField s.cfg.variant f = some fld → registerAt s.cfg.widths fld.offset →
    fld.bitStart ≤ fld.bitEnd → fld.bitEnd < s.cfg.widths.half → widthsWf s.cfg.widths = true →
    (if e then fld.enableValue else fld.disableValue) < 2 ^ (fld.bitEnd - fld.bitStart + 1) →
    memoryWf s.cfg.widths s.regs = true → (nextWrite s.env).1 = .ok →
    ∃ t, exec (.wrf f e) s = .next t ∧
      (∀ i, i < s.cfg.widths.regBits → (readReg s.cfg.widths t.regs fld.offset).testBit i =
        if decide (fld.bitStart ≤ i) && decide (i ≤ fld.bitEnd) then
          (if e then fld.enableValue else fld.disableValue).testBit (i - fld.bitStart)
        else (readReg s.cfg.widths s.regs fld.offset).testBit i) ∧
      (∀ b : Nat, registerAt s.cfg.widths b → b ≠ fld.offset →
        readReg s.cfg.widths t.regs b = readReg s.cfg.widths s.regs b) ∧
      (∀ a, (a < fld.offset ∨ fld.offset + (s.cfg.widths.half + 7) / 8 ≤ a) → readByte t.regs a = readByte s.regs a)

/-- WRF and POLL stop on a field the variant does not define, on a field at an offset where no register lies, and on
one at an offset that is not below `2^ADDR_BITS`. The spec says only that none of these can occur (30_encoding.md
section 6, 20_memory.md section 3, 43_variant_config.md section 2); that the model faults there, with
`undefinedField`, `misalignedOffset` and `offsetOutOfRange`, is the model's choice (log entry 12, DESIGN CHOICE). -/
def Obligations.FieldAccessStops : Prop :=
  ∀ (f : FieldId) (e : Bool) (c : TimeoutCode) (s : State),
    (lookupField s.cfg.variant f = none →
      exec (.wrf f e) s = .fault (.undefinedField f) ∧ exec (.poll f c) s = .fault (.undefinedField f)) ∧
    (∀ fld, lookupField s.cfg.variant f = some fld → aligned s.cfg.widths fld.offset = false →
      exec (.wrf f e) s = .fault (.misalignedOffset fld.offset) ∧
      exec (.poll f c) s = .fault (.misalignedOffset fld.offset)) ∧
    (∀ fld, lookupField s.cfg.variant f = some fld → aligned s.cfg.widths fld.offset = true →
      2 ^ s.cfg.widths.addrBits ≤ fld.offset →
      exec (.wrf f e) s = .fault (.offsetOutOfRange fld.offset) ∧
      exec (.poll f c) s = .fault (.offsetOutOfRange fld.offset))

/-! ### The status poller -/

/-- R121: the value extracted from a read word, the number its bits in the field's range spell. -/
def Obligations.ExtractReadsFieldBits : Prop :=
  ∀ (f : RegisterField) (r : Nat), f.bitStart ≤ f.bitEnd →
    extractField f r = (r >>> f.bitStart) &&& (2 ^ (f.bitEnd - f.bitStart + 1) - 1) ∧
    extractField f r < 2 ^ (f.bitEnd - f.bitStart + 1) ∧
    ∀ i, (extractField f r).testBit i =
      (decide (i < f.bitEnd - f.bitStart + 1) && r.testBit (f.bitStart + i))

/-- R128: a poll succeeds at the first read that matches, after any number of reads that do not, each followed by
one wait, as long as no time check before it has found the timeout exceeded. -/
def Obligations.PollSucceedsAtFirstMatch : Prop :=
  ∀ (f : FieldId) (c : TimeoutCode) (fld : RegisterField) (s : State) (ws : List Nat) (w : Nat)
    (rest : List ReadAnswer) (e0 : Nat) (es more : List Nat),
    lookupField s.cfg.variant f = some fld → registerAt s.cfg.widths fld.offset → 0 < s.cfg.pollIntervalUs →
    s.env.reads = ws.map ReadAnswer.word ++ .word w :: rest →
    (∀ x ∈ w :: ws, x < 2 ^ s.cfg.widths.regBits) →
    (∀ x ∈ ws, extractField fld x ≠ fld.enableValue) → extractField fld w = fld.enableValue →
    s.env.elapsed = e0 :: (es ++ more) → es.length = ws.length →
    es.sum + (ws.length - 1) * s.cfg.pollIntervalUs ≤ s.cfg.pollTimeoutUs →
    ∃ t, exec (.poll f c) s = .next t ∧ t.upc = s.upc + 1#6 ∧
      t.trace = s.trace ++ pollRounds fld.offset s.cfg.pollIntervalUs ws ++ [.rd fld.offset (.word w)] ∧
      t = { s with
        upc := t.upc, trace := t.trace, pollT0 := t.pollT0, pollN := t.pollN, now := t.now, env := t.env }

/-- R127: a poll whose reads do not match and whose last time check finds the timeout exceeded aborts with the
error the micro-operation names. -/
def Obligations.PollTimesOutWithItsError : Prop :=
  errorCode (timeoutError .pllLock) = 5#4 ∧ errorCode (timeoutError .laneReady) = 6#4 ∧
  ∀ (f : FieldId) (c : TimeoutCode) (fld : RegisterField) (s : State) (ws : List Nat) (w : Nat)
    (rest : List ReadAnswer) (e0 e : Nat) (es more : List Nat),
    lookupField s.cfg.variant f = some fld → registerAt s.cfg.widths fld.offset → 0 < s.cfg.pollIntervalUs →
    s.env.reads = ws.map ReadAnswer.word ++ .word w :: rest →
    (∀ x ∈ w :: ws, x < 2 ^ s.cfg.widths.regBits) →
    (∀ x ∈ ws, extractField fld x ≠ fld.enableValue) → extractField fld w ≠ fld.enableValue →
    s.env.elapsed = e0 :: (es ++ e :: more) → es.length = ws.length →
    es.sum + (ws.length - 1) * s.cfg.pollIntervalUs ≤ s.cfg.pollTimeoutUs →
    s.cfg.pollTimeoutUs < es.sum + e + ws.length * s.cfg.pollIntervalUs →
    ∃ u, exec (.poll f c) s = .next (abort (timeoutError c) u) ∧
      u.trace = s.trace ++ pollRounds fld.offset s.cfg.pollIntervalUs ws ++ [.rd fld.offset (.word w)] ∧
      u = { s with trace := u.trace, pollT0 := u.pollT0, pollN := u.pollN, now := u.now, env := u.env }

/-- R125: a read answered BUSERR aborts the poll with RegisterError, with no further read or wait. -/
def Obligations.PollAbortsOnReadError : Prop :=
  ∀ (f : FieldId) (c : TimeoutCode) (fld : RegisterField) (s : State) (ws : List Nat)
    (rest : List ReadAnswer) (e0 : Nat) (es more : List Nat),
    lookupField s.cfg.variant f = some fld → registerAt s.cfg.widths fld.offset → 0 < s.cfg.pollIntervalUs →
    s.env.reads = ws.map ReadAnswer.word ++ .busErr :: rest →
    (∀ x ∈ ws, x < 2 ^ s.cfg.widths.regBits) → (∀ x ∈ ws, extractField fld x ≠ fld.enableValue) →
    s.env.elapsed = e0 :: (es ++ more) → es.length = ws.length →
    es.sum + (ws.length - 1) * s.cfg.pollIntervalUs ≤ s.cfg.pollTimeoutUs →
    ∃ u, exec (.poll f c) s = .next (abort .registerError u) ∧
      u.trace = s.trace ++ pollRounds fld.offset s.cfg.pollIntervalUs ws ++ [.rd fld.offset .busErr] ∧
      u = { s with trace := u.trace, pollT0 := u.pollT0, pollN := u.pollN, now := u.now, env := u.env }

/-- Whatever the environment answers, a poll ends, after at least one and at most `MAX_POLL_READS` reads
(42_status_poller.md section 1). -/
def Obligations.PollReadsAreBounded : Prop :=
  (∀ p : Params, p.pollTimeoutUs = 1000 → p.pollIntervalUs = 10 → maxPollReads p = 102) ∧
  ∀ (f : FieldId) (c : TimeoutCode) (fld : RegisterField) (s : State),
    lookupField s.cfg.variant f = some fld → registerAt s.cfg.widths fld.offset → 0 < s.cfg.pollIntervalUs →
    ∃ t, exec (.poll f c) s = .next t ∧
      countReads fld.offset s.trace + 1 ≤ countReads fld.offset t.trace ∧
      countReads fld.offset t.trace ≤
        countReads fld.offset s.trace + (s.cfg.pollTimeoutUs / s.cfg.pollIntervalUs + 2)

/-- Whatever a POLL meets, it leaves the register space, the reset lines, the clock request, the type, the
position of the image and the hook's scratch state (42_status_poller.md section 1). -/
def Obligations.PollFrame : Prop :=
  ∀ (f : FieldId) (c : TimeoutCode) (s t : State), exec (.poll f c) s = .next t →
    (∀ a, readByte t.regs a = readByte s.regs a) ∧ t.rst = s.rst ∧ t.clkEn = s.clkEn ∧
    t.protoType = s.protoType ∧ t.romsel = s.romsel ∧ t.hookIdx = s.hookIdx ∧ t.hookSub = s.hookSub ∧
    t.cfg = s.cfg ∧ t.rom = s.rom ∧ t.hostCmds = s.hostCmds ∧
    ((t.upc = s.upc + 1#6 ∧ t.seqState = s.seqState ∧ t.result = s.result ∧ t.busy = s.busy) ∨
      (t.upc = s.upc ∧ t.seqState = (if isBringUp s.romsel then .idle else s.seqState) ∧
        (∃ e, t.result = .error e) ∧ t.busy = false))

/-! ### The fine-tuning hook -/

/-- Without a hook, HOOK only advances; a hook that knows the rate performs its writes in list order and completes
(43_variant_config.md section 3). -/
def Obligations.HookWritesItsPlan : Prop :=
  encode .hook = .uop 0x9000#16 ∧
  (∀ s : State, s.cfg.variant.tuneHook = none → exec .hook s = .next { s with upc := s.upc + 1#6 }) ∧
  ∀ (s : State) (h : TuneHook) (ws : List HookWrite) (rest : List WriteAnswer),
    variantWf s.cfg.widths s.cfg.variant = true → s.cfg.variant.tuneHook = some h →
    hookPlan s.cfg.refclkRateHz (if s.protoType = .pcie then h.pcie else h.usb3) = some ws →
    s.env.writes = List.replicate ws.length .ok ++ rest →
    ∃ t, exec .hook s = .next t ∧ t.upc = s.upc + 1#6 ∧
      t.trace = s.trace ++ ws.filterMap (okWriteEvent s.cfg.widths s.cfg.variant) ∧
      t.regs = ws.foldl (okWriteRegs s.cfg.widths s.cfg.variant) s.regs ∧
      t = { s with
        upc := t.upc, trace := t.trace, regs := t.regs, hookIdx := t.hookIdx, hookSub := t.hookSub, env := t.env }

/-- A RATE step that has no entry for the rate aborts with UnsupportedClockRate: the writes of the steps before it
stay, those after it never run (43_variant_config.md section 3). -/
def Obligations.HookUnknownRateAborts : Prop :=
  ∀ (s : State) (h : TuneHook) (ws : List HookWrite) (table : List RateEntry) (post : List HookStep)
    (rest : List WriteAnswer),
    variantWf s.cfg.widths s.cfg.variant = true → s.cfg.variant.tuneHook = some h →
    (if s.protoType = .pcie then h.pcie else h.usb3) = ws.map HookStep.write ++ .rate table :: post →
    (∀ r ∈ table, r.rateHz ≠ s.cfg.refclkRateHz) →
    s.env.writes = List.replicate ws.length .ok ++ rest →
    ∃ u, exec .hook s = .next (abort .unsupportedClockRate u) ∧
      u.trace = s.trace ++ ws.filterMap (okWriteEvent s.cfg.widths s.cfg.variant) ∧
      u.regs = ws.foldl (okWriteRegs s.cfg.widths s.cfg.variant) s.regs ∧
      u = { s with trace := u.trace, regs := u.regs, hookIdx := u.hookIdx, hookSub := u.hookSub, env := u.env }

/-- A hook write answered BUSERR aborts with RegisterError, whether or not a later RATE step knows the rate: the writes
before it stay, of its own selected bits each has its old value or the new one, and later writes never run
(43_variant_config.md section 3). -/
def Obligations.HookBusErrorAborts : Prop :=
  ∀ (s : State) (h : TuneHook) (ws post : List HookWrite) (w : HookWrite) (fld : RegisterField)
    (landed : Nat) (rest : List WriteAnswer),
    variantWf s.cfg.widths s.cfg.variant = true → s.cfg.variant.tuneHook = some h →
    hookIssued s.cfg.refclkRateHz (if s.protoType = .pcie then h.pcie else h.usb3) = ws ++ w :: post →
    lookupField s.cfg.variant w.field = some fld →
    s.env.writes = List.replicate ws.length .ok ++ .busErr landed :: rest →
    ∃ u, exec .hook s = .next (abort .registerError u) ∧
      u.trace = s.trace ++ ws.filterMap (okWriteEvent s.cfg.widths s.cfg.variant)
        ++ [.wr fld.offset (writeWord s.cfg.widths fld w.enabled) .busErr] ∧
      u.regs = maskedWrite s.cfg.widths (ws.foldl (okWriteRegs s.cfg.widths s.cfg.variant) s.regs) fld.offset
        (fieldMask s.cfg.widths fld &&& landed) (fieldData s.cfg.widths fld w.enabled) ∧
      u = { s with trace := u.trace, regs := u.regs, hookIdx := u.hookIdx, hookSub := u.hookSub, env := u.env }

/-- Whatever a HOOK meets, it stores only to the registers of the fields its steps name, and leaves the reset
lines, the clock request, the type and the poll's scratch state (43_variant_config.md section 3). -/
def Obligations.HookFrame : Prop :=
  ∀ s t : State, exec .hook s = .next t →
    (∀ a, (∀ w ∈ hookWrites s.cfg.variant, ∀ fld, lookupField s.cfg.variant w.field = some fld →
        a < fld.offset ∨ fld.offset + regBytes s.cfg.widths ≤ a) → readByte t.regs a = readByte s.regs a) ∧
    t.rst = s.rst ∧ t.clkEn = s.clkEn ∧ t.protoType = s.protoType ∧ t.romsel = s.romsel ∧
    t.pollT0 = s.pollT0 ∧ t.pollN = s.pollN ∧ t.now = s.now ∧
    t.cfg = s.cfg ∧ t.rom = s.rom ∧ t.hostCmds = s.hostCmds

/-! ### Abort -/

/-- R254: an abort, and that no micro-operation of ROM_EXIT aborts. -/
def Obligations.AbortRule : Prop :=
  (∀ (e : ErrorCode) (s : State), s.romsel = .pcie ∨ s.romsel = .usb3 →
    abort e s = { s with
      seqState := .idle, result := .error e, busy := false
      trace := s.trace ++ [.state .idle, .result .init (.error e)] }) ∧
  (∀ (e : ErrorCode) (s : State), s.romsel = .cmpl →
    abort e s = { s with
      result := .error e, busy := false, trace := s.trace ++ [.result .complianceTest (.error e)] }) ∧
  (∀ (b : Bool) (w : UopWord) (i : Instr) (s t : State), w ∈ romExit b → decodeUop w = some i →
    s.busy = true → exec i s = .next t → t.busy = true ∨ t.result = .ok)

/-! ### Rules over all instructions -/

/-- `TYPE` is written by ASSIGN_TYPE alone, and only while it is Unassigned (10_state.md section 2). -/
def Obligations.TypeIsAssignedOnce : Prop :=
  ∀ (i : Instr) (s t : State), exec i s = .next t → t.protoType ≠ s.protoType →
    s.protoType = .unassigned ∧ (i = .assignType 0x02#8 ∧ t.protoType = .pcie ∨
      i = .assignType 0x04#8 ∧ t.protoType = .usb3)

/-- `STATE` is written by SETST and by an abort alone (10_state.md section 2). -/
def Obligations.StateChangesOnlyBySetstOrAbort : Prop :=
  ∀ (i : Instr) (s t : State), exec i s = .next t → t.seqState ≠ s.seqState →
    i = .setst t.seqState ∨
      (t.seqState = .idle ∧ t.busy = false ∧ isBringUp s.romsel = true ∧ ∃ e, t.result = .error e)

/-- R173: a level changes only through RSTA and RSTD of its line, and no instruction reads a level: what the
lines are at has no part in anything else an instruction does. -/
def Obligations.LinesOnlyByRstaRstd : Prop :=
  (∀ (i : Instr) (s t : State) (l : ResetLine), exec i s = .next t → getLine t.rst l ≠ getLine s.rst l →
    i = .rsta l ∨ i = .rstd l) ∧
  (∀ (i : Instr) (s : State) (p : PerLine (Option Bool)),
    (∀ l, (getLine p l).isSome = (getLine s.rst l).isSome) →
    overNext (fun t => { t with rst := p }) (exec i { s with rst := p }) =
      overNext (fun t => { t with rst := p }) (exec i s))

/-- No instruction makes a line present or absent, or changes the parameters or the images
(10_state.md sections 2 and 4, 20_memory.md section 7). -/
def Obligations.ConfigurationIsFixed : Prop :=
  ∀ (i : Instr) (s t : State), exec i s = .next t →
    t.cfg = s.cfg ∧ t.rom = s.rom ∧ ∀ l, (getLine t.rst l).isSome = (getLine s.rst l).isSome

/-- The clock request changes only through CLKEN, to 1, and CLKDIS, to 0; the bytes of the register space only
through WRF and HOOK (44_reset_clock.md section 2, 10_state.md section 6). -/
def Obligations.ClockAndRegistersOnlyByTheirWriters : Prop :=
  ∀ (i : Instr) (s t : State), exec i s = .next t →
    (t.clkEn ≠ s.clkEn → (i = .clken ∧ t.clkEn = true) ∨ (i = .clkdis ∧ t.clkEn = false)) ∧
    ((∀ f e, i ≠ .wrf f e) → i ≠ .hook → ∀ a, readByte t.regs a = readByte s.regs a)

/-- A command ends with exactly one `Result` event, the last event of the step, which names the code `RESULT` then
holds; a step that ends no command shows none (46_host_commands.md section 3). -/
def Obligations.OneResultPerCommand : Prop :=
  ∀ (i : Instr) (s t : State), s.busy = !i.isCommand → exec i s = .next t →
    (t.busy = true → countResults t.trace = countResults s.trace ∧ t.result = s.result) ∧
    (t.busy = false → countResults t.trace = countResults s.trace + 1 ∧
      ∃ cmd, t.trace.getLast? = some (.result cmd t.result))

/-- Events are only added to the trace; the time source never goes back, and a reading is not below the one before
it with the delay between (00_scope.md section 5, 60_exceptions.md section 7). -/
def Obligations.TraceAndTimeOnlyGrow : Prop :=
  (∀ (i : Instr) (s t : State), exec i s = .next t → s.trace <+: t.trace ∧ s.now ≤ t.now) ∧
  (∀ (s : State) (kind : WaitKind) (us : Nat),
    (readNow s).1 ≤ (readNow (readNow s).2).1 ∧
    (readNow s).1 + us ≤ (readNow (wait kind us (readNow s).2)).1)

/-! ### What the host sees -/

/-- R27: the STATUS view. -/
def Obligations.StatusLayout : Prop :=
  ∀ s : State,
    (statusWord s).extractLsb' 0 3 = seqStateCode s.seqState ∧
    (statusWord s).getLsbD 3 = s.busy ∧
    (statusWord s).extractLsb' 4 8 = protoCode s.protoType ∧
    (statusWord s).extractLsb' 12 4 = resultCode s.result ∧
    (statusWord s).getLsbD 16 = s.clkEn ∧
    (∀ l, (statusWord s).getLsbD (17 + (lineCode l).toNat) = (getLine s.rst l == some true)) ∧
    (∀ l, (statusWord s).getLsbD (21 + (lineCode l).toNat) = (getLine s.rst l).isSome) ∧
    (statusWord s).extractLsb' 25 7 = 0#7

/-- R75: the result word. -/
def Obligations.ResultWordCodes : Prop :=
  (resultWord .ok).toNat = 0 ∧ (resultWord (.error .invalidType)).toNat = 1 ∧
  (resultWord (.error .typeConflict)).toNat = 2 ∧ (resultWord (.error .typeMismatch)).toNat = 3 ∧
  (resultWord (.error .unsupportedClockRate)).toNat = 4 ∧ (resultWord (.error .pllLockTimeout)).toNat = 5 ∧
  (resultWord (.error .laneReadyTimeout)).toNat = 6 ∧ (resultWord (.error .registerError)).toNat = 7 ∧
  (resultWord (.error .resourceUnavailable)).toNat = 8 ∧
  ∀ code, (resultWord code).extractLsb' 4 28 = 0#28 ∧ (resultWord code).toNat ≤ 8

/-! ### Images -/

/-- The fixed images, word by word, are the micro-operations their rules list; every word decodes to a
micro-operation, and END stands at the end of each and nowhere else (45_sequencer.md section 2, 30_encoding.md section
6, 10_state.md section 3). The order of the assertions of ROM_EXIT, from index 1 on, is only the one R203 writes down:
a claim about EXIT must not depend on it (R203, 93_implementation_defined.md I8; log entry 21, DEDUCED). What the
assertions of a run of EXIT are, whatever their order, is `ExitTearsDown`. -/
def Obligations.ImagesAreStraightLine : Prop :=
  romPcie.map decodeUop =
    [.setst .poweringOn, .clken, .rstd .por, .delay .settle, .rstd .regbus, .delay .settle, .setst .configuring, .hook,
     .setst .waitingPllLock, .delay .prelockPcie, .poll fieldPllLock .pllLock, .setst .waitingLaneReady,
     .rstd .datapath, .poll fieldLaneReady .laneReady, .setst .ready, .endOp].map some ∧
  romUsb3.map decodeUop =
    [.setst .poweringOn, .rsta .ctrl, .clken, .rstd .por, .delay .settle, .rstd .regbus, .delay .settle,
     .setst .configuring, .wrf 0x01#8 true, .wrf 0x02#8 true, .wrf 0x03#8 true, .wrf 0x04#8 true, .wrf 0x05#8 true,
     .wrf 0x06#8 true, .wrf 0x07#8 true, .wrf 0x08#8 true, .wrf 0x09#8 true, .wrf 0x0A#8 true, .wrf 0x0B#8 true,
     .wrf 0x0C#8 true, .wrf 0x0D#8 true, .hook, .setst .waitingPllLock, .delay .prelockUsb3,
     .poll fieldPllLock .pllLock, .setst .waitingLaneReady, .rstd .datapath, .poll fieldLaneReady .laneReady,
     .rstd .ctrl, .setst .ready, .endOp].map some ∧
  (∀ b : Bool, (romExit b).map decodeUop =
    ([Instr.setst .exiting, .rsta .por, .rsta .regbus, .rsta .datapath] ++ (if b then [Instr.rsta .ctrl] else []) ++
      [Instr.clkdis, .setst .idle, .endOp]).map some) ∧
  romCmpl.map decodeUop = [.wrf fieldRxNegpulse true, .endOp].map some ∧
  ∀ (sel : RomSel) (b : Bool),
    let im := selectImage (fixedImages b) sel
    (∀ w ∈ im, ∃ i, decodeUop w = some i ∧ i.isCommand = false) ∧
    (∀ n, n < im.length → ((im[n]? >>= decodeUop) = some .endOp ↔ n + 1 = im.length)) ∧ im.length ≤ 63

/-- R202: the writes of ROM_USB3, set before select, pair by pair, all with E = 1. -/
def Obligations.SetBeforeSelect : Prop :=
  (romUsb3.filterMap decodeUop).filter (fun i => match i with | .wrf _ _ => true | _ => false) =
    [.wrf 0x01#8 true, .wrf 0x02#8 true, .wrf 0x03#8 true, .wrf 0x04#8 true, .wrf 0x05#8 true,
     .wrf 0x06#8 true, .wrf 0x07#8 true, .wrf 0x08#8 true, .wrf 0x09#8 true, .wrf 0x0A#8 true,
     .wrf 0x0B#8 true, .wrf 0x0C#8 true, .wrf 0x0D#8 true]

/-! ### Construction -/

/-- The construction values, for every value of what is left open (10_state.md section 7). -/
def Obligations.ConstructionValues : Prop :=
  ∀ (cfg : Params) (present : PerLine Bool) (u : OpenValues),
    let s := State.build cfg present u
    s.protoType = .unassigned ∧ s.seqState = .idle ∧ s.result = .ok ∧ s.busy = false ∧ s.clkEn = false ∧
    (∀ l, getLine s.rst l = if getLine present l then some (getLine u.rstLevel l) else none) ∧
    s.regs = u.regs ∧ s.romsel = u.romsel ∧ s.upc = u.upc ∧ s.pollT0 = u.pollT0 ∧ s.pollN = u.pollN ∧
    s.hookIdx = u.hookIdx ∧ s.hookSub = u.hookSub ∧ s.trace = []

/-- Exactly when construction builds an instance (70_reset_and_hazards.md section 2). That there is a register-space
handle is no part of the model (log entry 24). -/
def Obligations.ConstructionRequirements : Prop :=
  ∀ (table : VariantTable) (board : Params) (d : Discovery) (u : OpenValues) (s : State),
    construct table board d u = .ok s ↔
      ∃ rate v, d.refclk = some rate ∧ table.lookup d.chip = some v ∧ variantWf board.widths v = true ∧
        d.regSpaceOwned = false ∧
        s = State.build { board with variant := v, refclkRateHz := rate } d.linePresent u

/-- The construction values that are left open and are no line level or register are never read before they are
written: no instruction reads the scratch state that another has left, no command reads `ROMSEL` or `UPC`
(10_state.md sections 5 and 7). -/
def Obligations.OpenValuesAreNotRead : Prop :=
  (∀ (i : Instr) (s : State) (a b c d : Nat),
    let clear := fun t : State => { t with pollT0 := 0, pollN := 0, hookIdx := 0, hookSub := 0 }
    overNext clear (exec i { s with pollT0 := a, pollN := b, hookIdx := c, hookSub := d }) =
      overNext clear (exec i s)) ∧
  (∀ (i : Instr) (s : State) (r : RomSel) (u : BitVec 6), i.isCommand = true →
    let clear := fun t : State => if t.busy then t else { t with romsel := .pcie, upc := 0#6 }
    overNext clear (exec i { s with romsel := r, upc := u }) = overNext clear (exec i s))

/-- No write of a written field of a well-formed variant covers a bit of a status field
(43_variant_config.md section 2). -/
def Obligations.WritesSpareStatusBits : Prop :=
  ∀ (n : Widths) (v : VariantConfig) (f g : FieldId) (fld sfld : RegisterField), variantWf n v = true →
    isWrittenField v f = true → (g = fieldPllLock ∨ g = fieldLaneReady) →
    lookupField v f = some fld → lookupField v g = some sfld → fld.offset = sfld.offset →
    ∀ i, sfld.bitStart ≤ i → i ≤ sfld.bitEnd → (fieldMask n fld).testBit i = false

/-! ### Invariants -/

/-- The state after reset is legal, its outputs are those driven, its trace is in order. It is built from
the default board (log entries 1 to 3), the model's choice. -/
def Obligations.ResetIsLegal : Prop :=
  State.reset.Inv ∧ State.reset.Powered ∧ State.reset.OrderedTrace

/-- Every state construction builds is legal, whatever the values the spec leaves open, when the widths fit together
(log entry 19), the register space is given in canonical form and the poll interval is not 0 (log entry 13). -/
def Obligations.ConstructedIsLegal : Prop :=
  ∀ (table : VariantTable) (board : Params) (d : Discovery) (u : OpenValues) (s : State),
    construct table board d u = .ok s → widthsWf board.widths = true → memoryWf board.widths u.regs = true →
    0 < board.pollIntervalUs →
    s.Inv ∧ s.Powered ∧ s.OrderedTrace

/-- Every step keeps a state legal: the register space canonical, the parameters and images as they were, and
`STATE` the one the position of the sequencer has (45_sequencer.md section 1). -/
def Obligations.StepKeepsLegal : Prop :=
  ∀ s t : State, s.Inv → step s = .next t → t.Inv

/-- Every step keeps the outputs those the image has driven, and those of a PHY that is up in state Ready
(45_sequencer.md section 3, 60_exceptions.md section 10). -/
def Obligations.StepKeepsPowered : Prop :=
  ∀ s t : State, s.Inv → s.Powered → step s = .next t → t.Powered

/-- Every step keeps the trace in order. Data-path reset is deasserted only after PLL lock is confirmed in the same
INIT, controller reset only after lane ready is. In an INIT of type USB3 with the CTRL line present, controller reset is
asserted before every write, and every change of the clock and of another reset line, and stays asserted until it is
deasserted last (45_sequencer.md section 3, 70_reset_and_hazards.md section 3). -/
def Obligations.StepKeepsTraceOrdered : Prop :=
  ∀ s t : State, s.Inv → s.OrderedTrace → step s = .next t → t.OrderedTrace

/-- From a legal state no step faults, and a step is refused only for a word that is no command and for INIT in
state Ready (70_reset_and_hazards.md section 4). -/
def Obligations.LegalStateNeverFaults : Prop :=
  ∀ s : State, s.Inv →
    (∀ r, step s ≠ .fault r) ∧
    (∀ r, step s = .refused r → s.busy = false ∧ ∃ w rest, s.hostCmds = w :: rest ∧
      ((r = .invalidCommand ∧ decodeCmd w = none) ∨
        (r = .initWhileReady ∧ decodeCmd w = some .init ∧ s.seqState = .ready)))

/-- Every image ends: from a legal state in which one runs, the command is over after at most 31 steps, whatever
the environment answers (45_sequencer.md section 3). -/
def Obligations.EveryImageEnds : Prop :=
  ∀ s : State, s.Inv → s.busy = true →
    ∃ n t, n ≤ 31 ∧ Host.Core.run Sys2Proof.core n s = .next t ∧ t.busy = false

/-- R225: EXIT, whatever the type and the state, runs ROM_EXIT to its end. Every present line it names is asserted,
each with its event, in no order a reader may rely on; then the clock is disabled and `STATE` is Idle. -/
def Obligations.ExitTearsDown : Prop :=
  encode .exit = .cmd 0x00000003#32 ∧
  (∀ s : State, s.busy = false → exec .exit s = .next { s with busy := true, romsel := .exit, upc := 0#6 }) ∧
  ∀ (s : State) (rest : List CmdWord), s.rom = fixedImages s.cfg.exitAssertsCtrl → s.busy = false →
    s.hostCmds = 0x00000003#32 :: rest →
    ∃ t, Host.Core.run Sys2Proof.core (1 + (romExit s.cfg.exitAssertsCtrl).length) s = .next t ∧
      (∃ evs, t.trace = s.trace ++ [.state .exiting] ++ evs ++ [.clk false, .state .idle, .result .exit .ok] ∧
        ∀ ev, ev ∈ evs ↔ ∃ l, ev = .rst l true ∧ (getLine s.rst l).isSome = true ∧
          (l = .ctrl → s.cfg.exitAssertsCtrl = true)) ∧
      (∀ l, (l = .ctrl → s.cfg.exitAssertsCtrl = true) → (getLine t.rst l).isSome = (getLine s.rst l).isSome ∧
        lineIs t.rst l true) ∧
      (s.cfg.exitAssertsCtrl = false → t.rst.ctrl = s.rst.ctrl) ∧
      t = { s with
        seqState := .idle, result := .ok, busy := false, clkEn := false, romsel := .exit, upc := t.upc
        rst := t.rst, trace := t.trace, hostCmds := rest }

/-- A PCIe INIT on a variant without a hook, with the clock ready and both polls matched at their first read, runs
ROM_PCIE to state Ready with these events (45_sequencer.md section 2). -/
def Obligations.PcieInitReachesReady : Prop :=
  ∀ (s : State) (rest : List CmdWord) (clocks : List Bool) (pll lane : RegisterField) (w w' : Nat)
    (reads : List ReadAnswer),
    s.Inv → s.busy = false → s.seqState = .idle → s.protoType = .pcie → s.cfg.variant.tuneHook = none →
    s.hostCmds = 0x00000002#32 :: rest → s.env.clocks = true :: clocks →
    s.env.reads = .word w :: .word w' :: reads → w < 2 ^ s.cfg.widths.regBits → w' < 2 ^ s.cfg.widths.regBits →
    lookupField s.cfg.variant fieldPllLock = some pll → lookupField s.cfg.variant fieldLaneReady = some lane →
    extractField pll w = pll.enableValue → extractField lane w' = lane.enableValue →
    s.rst.por ≠ none → s.rst.regbus ≠ none → s.rst.datapath ≠ none →
    ∃ t, Host.Core.run Sys2Proof.core 17 s = .next t ∧
      t.busy = false ∧ t.seqState = .ready ∧ t.result = .ok ∧ t.clkEn = true ∧ t.regs = s.regs ∧
      t.rst = { ctrl := s.rst.ctrl, por := some false, regbus := some false, datapath := some false } ∧
      t.trace = s.trace ++
        [.state .poweringOn, .clk true, .rst .por false, .delay .settle s.cfg.tSettleUs, .rst .regbus false,
         .delay .settle s.cfg.tSettleUs, .state .configuring, .state .waitingPllLock,
         .delay .prelockPcie s.cfg.tPrelockPcieUs, .rd pll.offset (.word w), .state .waitingLaneReady,
         .rst .datapath false, .rd lane.offset (.word w'), .state .ready, .result .init .ok]
end

