-- ==== Sys2Proof/Laws/Memory.lean ====
section
/-!
SUPPORT. The laws of the register space: read after write, the canonical form, and that in it equal contents are
equal lists.
-/

namespace Sys2Proof.Machine

/-! ### Bytes -/

variable {hi : Nat}

theorem memoryWfFrom_cons {lo a : Nat} {b : Byte} {m : Memory} (h : memoryWfFrom hi lo ((a, b) :: m) = true) :
    lo ≤ a ∧ a < hi ∧ b ≠ unlistedByte ∧ memoryWfFrom hi (a + 1) m = true := by
  simpa [memoryWfFrom, and_assoc] using h

theorem memoryWfFrom_of_cons {lo a : Nat} {b : Byte} {m : Memory} (h1 : lo ≤ a) (h2 : a < hi)
    (h3 : b ≠ unlistedByte) (h4 : memoryWfFrom hi (a + 1) m = true) : memoryWfFrom hi lo ((a, b) :: m) = true := by
  simp [memoryWfFrom, *]

theorem memoryWfFrom_mono {lo lo' : Nat} {m : Memory} (h : memoryWfFrom hi lo m = true) (hl : lo' ≤ lo) :
    memoryWfFrom hi lo' m = true := by
  cases m with
  | nil => rfl
  | cons c m =>
    obtain ⟨h1, h2, h3, h4⟩ := memoryWfFrom_cons h
    exact memoryWfFrom_of_cons (by omega) h2 h3 h4

theorem readByte_below {lo a : Nat} {m : Memory} (h : memoryWfFrom hi lo m = true) (ha : a < lo) :
    readByte m a = unlistedByte := by
  induction m generalizing lo with
  | nil => rfl
  | cons c m ih =>
    obtain ⟨h1, -, -, h4⟩ := memoryWfFrom_cons h
    rw [readByte, if_neg (by omega)]
    exact ih h4 (by omega)

theorem readByte_cellOf_append_same (a : Nat) (b : Byte) {lo : Nat} {m : Memory}
    (h : memoryWfFrom hi lo m = true) (ha : a < lo) : readByte (cellOf a b ++ m) a = b := by
  unfold cellOf
  split
  · next hb => rw [List.nil_append, readByte_below h ha, hb]
  · simp [readByte]

theorem readByte_cellOf_append_ne {a c : Nat} (hc : c ≠ a) (b : Byte) (m : Memory) :
    readByte (cellOf a b ++ m) c = readByte m c := by
  unfold cellOf
  split
  · rfl
  · simp [readByte, hc]

/-- A byte reads as it was last written, in a canonical memory. -/
theorem readByte_writeByte_same {lo : Nat} {m : Memory} (h : memoryWfFrom hi lo m = true) (a : Nat) (b : Byte) :
    readByte (writeByte m a b) a = b := by
  induction m generalizing lo with
  | nil =>
    have := readByte_cellOf_append_same (hi := hi) a b (lo := a + 1) (m := []) rfl (by omega)
    rwa [List.append_nil] at this
  | cons c m ih =>
    obtain ⟨-, h2, h3, h4⟩ := memoryWfFrom_cons h
    rw [writeByte]
    split
    · next hlt =>
      exact readByte_cellOf_append_same a b (memoryWfFrom_of_cons (Nat.le_refl _) h2 h3 h4) hlt
    · split
      · next heq => exact readByte_cellOf_append_same a b h4 (by omega)
      · next hne => rw [readByte, if_neg hne, ih h4]

/-- Writing a byte leaves every other byte. -/
theorem readByte_writeByte_ne {a c : Nat} (hc : c ≠ a) (m : Memory) (b : Byte) :
    readByte (writeByte m a b) c = readByte m c := by
  induction m with
  | nil =>
    have := readByte_cellOf_append_ne hc b []
    rwa [List.append_nil] at this
  | cons k m ih =>
    rw [writeByte]
    split
    · exact readByte_cellOf_append_ne hc b _
    · split
      · next heq => rw [readByte_cellOf_append_ne hc, readByte, if_neg (by omega)]
      · rw [readByte, readByte, ih]

theorem memoryWfFrom_cellOf_append {lo a : Nat} (b : Byte) {m : Memory} (hlo : lo ≤ a) (ha : a < hi)
    (h : memoryWfFrom hi (a + 1) m = true) : memoryWfFrom hi lo (cellOf a b ++ m) = true := by
  unfold cellOf
  split
  · exact memoryWfFrom_mono h (by omega)
  · next hb => exact memoryWfFrom_of_cons hlo ha hb h

/-- Writing a byte keeps the canonical form. -/
theorem memoryWfFrom_writeByte {lo a : Nat} {m : Memory} (h : memoryWfFrom hi lo m = true) (hlo : lo ≤ a)
    (ha : a < hi) (b : Byte) : memoryWfFrom hi lo (writeByte m a b) = true := by
  induction m generalizing lo with
  | nil =>
    have := memoryWfFrom_cellOf_append b (m := []) hlo ha rfl
    rwa [List.append_nil] at this
  | cons c m ih =>
    obtain ⟨h1, h2, h3, h4⟩ := memoryWfFrom_cons h
    rw [writeByte]
    split
    · exact memoryWfFrom_cellOf_append b hlo ha (memoryWfFrom_of_cons (by omega) h2 h3 h4)
    · split
      · next heq => exact memoryWfFrom_cellOf_append b hlo ha (heq ▸ h4)
      · exact memoryWfFrom_of_cons h1 h2 h3 (ih h4 (by omega))

theorem memoryWf_writeByte {n : Widths} {a : Nat} {m : Memory} (h : memoryWf n m = true) (ha : a < addressLimit n)
    (b : Byte) : memoryWf n (writeByte m a b) = true :=
  memoryWfFrom_writeByte h (Nat.zero_le _) ha b

/-- In the canonical form, memories that read alike are equal. -/
theorem memory_ext {lo : Nat} {m m' : Memory} (h : memoryWfFrom hi lo m = true) (h' : memoryWfFrom hi lo m' = true)
    (he : ∀ a, readByte m a = readByte m' a) : m = m' := by
  induction m generalizing lo m' with
  | nil =>
    cases m' with
    | nil => rfl
    | cons c m' =>
      obtain ⟨-, -, h3, -⟩ := memoryWfFrom_cons h'
      have := he c.1
      simp [readByte] at this
      exact absurd this.symm h3
  | cons c m ih =>
    obtain ⟨h1, h2, h3, h4⟩ := memoryWfFrom_cons h
    cases m' with
    | nil =>
      have := he c.1
      simp [readByte] at this
      exact absurd this h3
    | cons c' m' =>
      obtain ⟨h1', h2', h3', h4'⟩ := memoryWfFrom_cons h'
      have hk : c.1 = c'.1 := by
        rcases Nat.lt_trichotomy c.1 c'.1 with hlt | heq | hlt
        · have := he c.1
          rw [readByte, if_pos rfl, readByte, if_neg (by omega), readByte_below h4' (by omega)] at this
          exact absurd this h3
        · exact heq
        · have := he c'.1
          rw [readByte, if_neg (by omega), readByte_below h4 (by omega), readByte, if_pos rfl] at this
          exact absurd this.symm h3'
      have hv : c.2 = c'.2 := by
        have := he c.1
        rwa [readByte, if_pos rfl, readByte, if_pos hk] at this
      have hm : m = m' := by
        refine ih h4 (hk ▸ h4') (fun a => ?_)
        by_cases ha : a = c.1
        · rw [ha, readByte_below h4 (by omega), hk, readByte_below h4' (by omega)]
        · have := he a
          rwa [readByte, if_neg ha, readByte, if_neg (by omega)] at this
      rw [hm, Prod.ext hk hv]

/-! ### The bytes of a register -/

/-- The bits of the number some bytes spell. -/
theorem readBytes_testBit (m : Memory) (a k i : Nat) :
    (readBytes m a k).testBit i = (decide (i < 8 * k) && (readByte m (a + i / 8)).getLsbD (i % 8)) := by
  induction k generalizing a i with
  | zero => simp [readBytes]
  | succ k ih =>
    have hb : (readByte m a).toNat < 2 ^ 8 := (readByte m a).isLt
    rw [readBytes, show (256 : Nat) = 2 ^ 8 from rfl, Nat.add_comm, Nat.testBit_two_pow_mul_add _ hb]
    by_cases hi : i < 8
    · simp [hi, show i < 8 * (k + 1) by omega, Nat.div_eq_of_lt hi, Nat.mod_eq_of_lt hi, BitVec.getLsbD]
    · rw [if_neg hi, ih, show a + 1 + (i - 8) / 8 = a + i / 8 by omega, show (i - 8) % 8 = i % 8 by omega]
      simp only [show (i - 8 < 8 * k) ↔ (i < 8 * (k + 1)) by omega]

/-- Memories whose bytes agree spell the same number. -/
theorem readBytes_congr {m m' : Memory} {a k : Nat} (h : ∀ c, a ≤ c → c < a + k → readByte m c = readByte m' c) :
    readBytes m a k = readBytes m' a k := by
  induction k generalizing a with
  | zero => rfl
  | succ k ih => rw [readBytes, readBytes, h a (by omega) (by omega), ih fun c h1 h2 => h c (by omega) (by omega)]

/-- Writing bytes leaves every other byte. -/
theorem readByte_writeBytes_outside {a c k : Nat} (hc : c < a ∨ a + k ≤ c) (m : Memory) (w : Nat) :
    readByte (writeBytes m a k w) c = readByte m c := by
  induction k generalizing a m w with
  | zero => rfl
  | succ k ih => rw [writeBytes, ih (by omega), readByte_writeByte_ne (by omega)]

/-- Writing bytes keeps the canonical form. -/
theorem memoryWf_writeBytes {n : Widths} {a k : Nat} {m : Memory} (h : memoryWf n m = true)
    (ha : a + k ≤ addressLimit n) (w : Nat) : memoryWf n (writeBytes m a k w) = true := by
  induction k generalizing a m w with
  | zero => exact h
  | succ k ih => exact ih (memoryWf_writeByte h (by omega) _) (by omega) _

/-- Bytes spell the number that was last written, as far as it fits. -/
theorem readBytes_writeBytes {n : Widths} {a k : Nat} {m : Memory} (h : memoryWf n m = true)
    (ha : a + k ≤ addressLimit n) (w : Nat) : readBytes (writeBytes m a k w) a k = w % 256 ^ k := by
  induction k generalizing a m w with
  | zero => rw [Nat.pow_zero, Nat.mod_one]; rfl
  | succ k ih =>
    have hw := memoryWf_writeByte h (show a < addressLimit n by omega) (BitVec.ofNat 8 w)
    rw [readBytes, writeBytes, ih hw (by omega), readByte_writeBytes_outside (by omega), readByte_writeByte_same h,
      Nat.pow_succ', Nat.mod_mul]
    rfl

/-! ### Registers -/

/-- The bytes of a register are in the register space. -/
theorem register_in_range {n : Widths} {a : Nat} (hn : widthsWf n = true) (h : aligned n a = true)
    (ha : a < addressLimit n) : a + regBytes n ≤ addressLimit n := by
  simp only [widthsWf, aligned, Bool.and_eq_true, beq_iff_eq] at hn h
  obtain ⟨x, hx⟩ := Nat.dvd_of_mod_eq_zero h.2
  obtain ⟨y, hy⟩ := Nat.dvd_of_mod_eq_zero hn.2
  unfold addressLimit at ha ⊢
  rw [hx, hy] at ha ⊢
  rw [← Nat.mul_succ]
  exact Nat.mul_le_mul_left _ (Nat.lt_of_mul_lt_mul_left ha)

/-- Two registers share no byte. -/
theorem registers_apart {n : Widths} {a b : Nat} (ha : aligned n a = true) (hb : aligned n b = true) (hne : b ≠ a) :
    b + regBytes n ≤ a ∨ a + regBytes n ≤ b := by
  simp only [aligned, Bool.and_eq_true, beq_iff_eq] at ha hb
  obtain ⟨x, hx⟩ := Nat.dvd_of_mod_eq_zero ha.2
  obtain ⟨y, hy⟩ := Nat.dvd_of_mod_eq_zero hb.2
  rw [hx, hy, ← Nat.mul_succ, ← Nat.mul_succ]
  rcases Nat.lt_or_gt_of_ne (fun h : y = x => hne (by rw [hx, hy, h])) with h | h
  · exact .inl (Nat.mul_le_mul_left _ h)
  · exact .inr (Nat.mul_le_mul_left _ h)

/-- The bits of a register's bytes are its bits. -/
theorem regBits_eq {n : Widths} (hn : widthsWf n = true) : 8 * regBytes n = n.regBits := by
  simp only [widthsWf, Bool.and_eq_true, beq_iff_eq] at hn
  unfold regBytes
  omega

/-- The halves of a register are within it. -/
theorem half_le {n : Widths} (hn : widthsWf n = true) : 2 * n.half = n.regBits := by
  simp only [widthsWf, Bool.and_eq_true, beq_iff_eq] at hn
  exact hn.1.1

/-- Writing a register leaves every byte outside it. -/
theorem readByte_writeReg_outside {n : Widths} {a : Nat} {c : Nat} (hc : c < a ∨ a + regBytes n ≤ c) (m : Memory)
    (w : Nat) : readByte (writeReg n m a w) c = readByte m c :=
  readByte_writeBytes_outside hc m w

/-- Writing a register keeps the canonical form. -/
theorem memoryWf_writeReg {n : Widths} {a : Nat} (hn : widthsWf n = true) (ha : aligned n a = true)
    (hr : a < addressLimit n) {m : Memory} (h : memoryWf n m = true) (w : Nat) :
    memoryWf n (writeReg n m a w) = true :=
  memoryWf_writeBytes h (register_in_range hn ha hr) w

/-- A register reads as it was last written. -/
theorem readReg_writeReg_same {n : Widths} {a : Nat} (hn : widthsWf n = true) (ha : aligned n a = true)
    (hr : a < addressLimit n) {m : Memory} (h : memoryWf n m = true) (w : Nat) :
    readReg n (writeReg n m a w) a = w % 2 ^ n.regBits := by
  rw [readReg, writeReg, readBytes_writeBytes h (register_in_range hn ha hr), show (256 : Nat) = 2 ^ 8 from rfl,
    ← Nat.pow_mul, regBits_eq hn]

/-- Writing a register leaves every other register. -/
theorem readReg_writeReg_ne {n : Widths} {a b : Nat} (ha : aligned n a = true) (hb : aligned n b = true) (hne : b ≠ a)
    (m : Memory) (w : Nat) : readReg n (writeReg n m a w) b = readReg n m b := by
  have := registers_apart ha hb hne
  exact readBytes_congr fun c h1 h2 => readByte_writeReg_outside (by omega) m w

/-- A register is as wide as `REG_BITS`. -/
theorem readReg_testBit_ge {n : Widths} (hn : widthsWf n = true) (m : Memory) (a : Nat) {i : Nat}
    (hi : n.regBits ≤ i) : (readReg n m a).testBit i = false := by
  rw [readReg, readBytes_testBit, regBits_eq hn]
  simp [Nat.not_lt.2 hi]

/-! ### The masked write -/

/-- The bits of a register after a masked write. -/
theorem maskedValue_testBit (old : Nat) (mask data : Nat) (i : Nat) :
    (maskedValue old mask data).testBit i = if mask.testBit i then data.testBit i else old.testBit i := by
  simp only [maskedValue, outsideMask, Nat.testBit_or, Nat.testBit_xor, Nat.testBit_and]
  cases mask.testBit i <;> simp

theorem readReg_maskedWrite_same {n : Widths} {a : Nat} (hn : widthsWf n = true) (ha : aligned n a = true)
    (hr : a < addressLimit n) {m : Memory} (h : memoryWf n m = true) (mask data : Nat) :
    readReg n (maskedWrite n m a mask data) a = maskedValue (readReg n m a) mask data % 2 ^ n.regBits :=
  readReg_writeReg_same hn ha hr h _

theorem memoryWf_maskedWrite {n : Widths} {a : Nat} (hn : widthsWf n = true) (ha : aligned n a = true)
    (hr : a < addressLimit n) {m : Memory} (h : memoryWf n m = true) (mask data : Nat) :
    memoryWf n (maskedWrite n m a mask data) = true :=
  memoryWf_writeReg hn ha hr h _

theorem readReg_maskedWrite_ne {n : Widths} {a b : Nat} (ha : aligned n a = true) (hb : aligned n b = true)
    (hne : b ≠ a) (m : Memory) (mask data : Nat) :
    readReg n (maskedWrite n m a mask data) b = readReg n m b :=
  readReg_writeReg_ne ha hb hne m _

theorem readByte_maskedWrite_outside {n : Widths} {a : Nat} {c : Nat} (hc : c < a ∨ a + regBytes n ≤ c) (m : Memory)
    (mask data : Nat) : readByte (maskedWrite n m a mask data) c = readByte m c :=
  readByte_writeReg_outside hc m _

end Sys2Proof.Machine
end

