-- ==== Sys2Proof/Laws/State.lean ====
section
/-!
SUPPORT. What each shared operation does to each field of the state, so that no later proof unfolds a record update.
The scratch registers after `leavePoll` and `leaveHook` have no lemma: their values are free.
-/

namespace Sys2Proof.Machine

@[simp] theorem emit_protoType (ev : Event) (s : State) : (emit ev s).protoType = s.protoType := rfl
@[simp] theorem emit_seqState (ev : Event) (s : State) : (emit ev s).seqState = s.seqState := rfl
@[simp] theorem emit_result (ev : Event) (s : State) : (emit ev s).result = s.result := rfl
@[simp] theorem emit_busy (ev : Event) (s : State) : (emit ev s).busy = s.busy := rfl
@[simp] theorem emit_romsel (ev : Event) (s : State) : (emit ev s).romsel = s.romsel := rfl
@[simp] theorem emit_upc (ev : Event) (s : State) : (emit ev s).upc = s.upc := rfl
@[simp] theorem emit_clkEn (ev : Event) (s : State) : (emit ev s).clkEn = s.clkEn := rfl
@[simp] theorem emit_rst (ev : Event) (s : State) : (emit ev s).rst = s.rst := rfl
@[simp] theorem emit_regs (ev : Event) (s : State) : (emit ev s).regs = s.regs := rfl
@[simp] theorem emit_pollT0 (ev : Event) (s : State) : (emit ev s).pollT0 = s.pollT0 := rfl
@[simp] theorem emit_pollN (ev : Event) (s : State) : (emit ev s).pollN = s.pollN := rfl
@[simp] theorem emit_hookIdx (ev : Event) (s : State) : (emit ev s).hookIdx = s.hookIdx := rfl
@[simp] theorem emit_hookSub (ev : Event) (s : State) : (emit ev s).hookSub = s.hookSub := rfl
@[simp] theorem emit_trace (ev : Event) (s : State) : (emit ev s).trace = s.trace ++ [ev] := rfl
@[simp] theorem emit_cfg (ev : Event) (s : State) : (emit ev s).cfg = s.cfg := rfl
@[simp] theorem emit_rom (ev : Event) (s : State) : (emit ev s).rom = s.rom := rfl
@[simp] theorem emit_now (ev : Event) (s : State) : (emit ev s).now = s.now := rfl
@[simp] theorem emit_hostCmds (ev : Event) (s : State) : (emit ev s).hostCmds = s.hostCmds := rfl
@[simp] theorem emit_env (ev : Event) (s : State) : (emit ev s).env = s.env := rfl

@[simp] theorem advance_protoType (s : State) : (advance s).protoType = s.protoType := rfl
@[simp] theorem advance_seqState (s : State) : (advance s).seqState = s.seqState := rfl
@[simp] theorem advance_result (s : State) : (advance s).result = s.result := rfl
@[simp] theorem advance_busy (s : State) : (advance s).busy = s.busy := rfl
@[simp] theorem advance_romsel (s : State) : (advance s).romsel = s.romsel := rfl
@[simp] theorem advance_upc (s : State) : (advance s).upc = s.upc + 1#6 := rfl
@[simp] theorem advance_clkEn (s : State) : (advance s).clkEn = s.clkEn := rfl
@[simp] theorem advance_rst (s : State) : (advance s).rst = s.rst := rfl
@[simp] theorem advance_regs (s : State) : (advance s).regs = s.regs := rfl
@[simp] theorem advance_pollT0 (s : State) : (advance s).pollT0 = s.pollT0 := rfl
@[simp] theorem advance_pollN (s : State) : (advance s).pollN = s.pollN := rfl
@[simp] theorem advance_hookIdx (s : State) : (advance s).hookIdx = s.hookIdx := rfl
@[simp] theorem advance_hookSub (s : State) : (advance s).hookSub = s.hookSub := rfl
@[simp] theorem advance_trace (s : State) : (advance s).trace = s.trace := rfl
@[simp] theorem advance_cfg (s : State) : (advance s).cfg = s.cfg := rfl
@[simp] theorem advance_rom (s : State) : (advance s).rom = s.rom := rfl
@[simp] theorem advance_now (s : State) : (advance s).now = s.now := rfl
@[simp] theorem advance_hostCmds (s : State) : (advance s).hostCmds = s.hostCmds := rfl
@[simp] theorem advance_env (s : State) : (advance s).env = s.env := rfl

@[simp] theorem startImage_protoType (r : RomSel) (s : State) : (startImage r s).protoType = s.protoType := rfl
@[simp] theorem startImage_seqState (r : RomSel) (s : State) : (startImage r s).seqState = s.seqState := rfl
@[simp] theorem startImage_result (r : RomSel) (s : State) : (startImage r s).result = s.result := rfl
@[simp] theorem startImage_busy (r : RomSel) (s : State) : (startImage r s).busy = true := rfl
@[simp] theorem startImage_romsel (r : RomSel) (s : State) : (startImage r s).romsel = r := rfl
@[simp] theorem startImage_upc (r : RomSel) (s : State) : (startImage r s).upc = 0#6 := rfl
@[simp] theorem startImage_clkEn (r : RomSel) (s : State) : (startImage r s).clkEn = s.clkEn := rfl
@[simp] theorem startImage_rst (r : RomSel) (s : State) : (startImage r s).rst = s.rst := rfl
@[simp] theorem startImage_regs (r : RomSel) (s : State) : (startImage r s).regs = s.regs := rfl
@[simp] theorem startImage_pollT0 (r : RomSel) (s : State) : (startImage r s).pollT0 = s.pollT0 := rfl
@[simp] theorem startImage_pollN (r : RomSel) (s : State) : (startImage r s).pollN = s.pollN := rfl
@[simp] theorem startImage_hookIdx (r : RomSel) (s : State) : (startImage r s).hookIdx = s.hookIdx := rfl
@[simp] theorem startImage_hookSub (r : RomSel) (s : State) : (startImage r s).hookSub = s.hookSub := rfl
@[simp] theorem startImage_trace (r : RomSel) (s : State) : (startImage r s).trace = s.trace := rfl
@[simp] theorem startImage_cfg (r : RomSel) (s : State) : (startImage r s).cfg = s.cfg := rfl
@[simp] theorem startImage_rom (r : RomSel) (s : State) : (startImage r s).rom = s.rom := rfl
@[simp] theorem startImage_now (r : RomSel) (s : State) : (startImage r s).now = s.now := rfl
@[simp] theorem startImage_hostCmds (r : RomSel) (s : State) : (startImage r s).hostCmds = s.hostCmds := rfl
@[simp] theorem startImage_env (r : RomSel) (s : State) : (startImage r s).env = s.env := rfl

@[simp] theorem wait_protoType (kind : WaitKind) (us : Nat) (s : State) :
    (wait kind us s).protoType = s.protoType := rfl
@[simp] theorem wait_seqState (kind : WaitKind) (us : Nat) (s : State) :
    (wait kind us s).seqState = s.seqState := rfl
@[simp] theorem wait_result (kind : WaitKind) (us : Nat) (s : State) :
    (wait kind us s).result = s.result := rfl
@[simp] theorem wait_busy (kind : WaitKind) (us : Nat) (s : State) : (wait kind us s).busy = s.busy := rfl
@[simp] theorem wait_romsel (kind : WaitKind) (us : Nat) (s : State) :
    (wait kind us s).romsel = s.romsel := rfl
@[simp] theorem wait_upc (kind : WaitKind) (us : Nat) (s : State) : (wait kind us s).upc = s.upc := rfl
@[simp] theorem wait_clkEn (kind : WaitKind) (us : Nat) (s : State) : (wait kind us s).clkEn = s.clkEn := rfl
@[simp] theorem wait_rst (kind : WaitKind) (us : Nat) (s : State) : (wait kind us s).rst = s.rst := rfl
@[simp] theorem wait_regs (kind : WaitKind) (us : Nat) (s : State) : (wait kind us s).regs = s.regs := rfl
@[simp] theorem wait_pollT0 (kind : WaitKind) (us : Nat) (s : State) :
    (wait kind us s).pollT0 = s.pollT0 := rfl
@[simp] theorem wait_pollN (kind : WaitKind) (us : Nat) (s : State) : (wait kind us s).pollN = s.pollN := rfl
@[simp] theorem wait_hookIdx (kind : WaitKind) (us : Nat) (s : State) :
    (wait kind us s).hookIdx = s.hookIdx := rfl
@[simp] theorem wait_hookSub (kind : WaitKind) (us : Nat) (s : State) :
    (wait kind us s).hookSub = s.hookSub := rfl
@[simp] theorem wait_trace (kind : WaitKind) (us : Nat) (s : State) :
    (wait kind us s).trace = s.trace ++ [.delay kind us] := rfl
@[simp] theorem wait_cfg (kind : WaitKind) (us : Nat) (s : State) : (wait kind us s).cfg = s.cfg := rfl
@[simp] theorem wait_rom (kind : WaitKind) (us : Nat) (s : State) : (wait kind us s).rom = s.rom := rfl
@[simp] theorem wait_now (kind : WaitKind) (us : Nat) (s : State) : (wait kind us s).now = s.now + us := rfl
@[simp] theorem wait_hostCmds (kind : WaitKind) (us : Nat) (s : State) :
    (wait kind us s).hostCmds = s.hostCmds := rfl
@[simp] theorem wait_env (kind : WaitKind) (us : Nat) (s : State) : (wait kind us s).env = s.env := rfl

@[simp] theorem readNow_protoType (s : State) : (readNow s).2.protoType = s.protoType := rfl
@[simp] theorem readNow_seqState (s : State) : (readNow s).2.seqState = s.seqState := rfl
@[simp] theorem readNow_result (s : State) : (readNow s).2.result = s.result := rfl
@[simp] theorem readNow_busy (s : State) : (readNow s).2.busy = s.busy := rfl
@[simp] theorem readNow_romsel (s : State) : (readNow s).2.romsel = s.romsel := rfl
@[simp] theorem readNow_upc (s : State) : (readNow s).2.upc = s.upc := rfl
@[simp] theorem readNow_clkEn (s : State) : (readNow s).2.clkEn = s.clkEn := rfl
@[simp] theorem readNow_rst (s : State) : (readNow s).2.rst = s.rst := rfl
@[simp] theorem readNow_regs (s : State) : (readNow s).2.regs = s.regs := rfl
@[simp] theorem readNow_pollT0 (s : State) : (readNow s).2.pollT0 = s.pollT0 := rfl
@[simp] theorem readNow_pollN (s : State) : (readNow s).2.pollN = s.pollN := rfl
@[simp] theorem readNow_hookIdx (s : State) : (readNow s).2.hookIdx = s.hookIdx := rfl
@[simp] theorem readNow_hookSub (s : State) : (readNow s).2.hookSub = s.hookSub := rfl
@[simp] theorem readNow_trace (s : State) : (readNow s).2.trace = s.trace := rfl
@[simp] theorem readNow_cfg (s : State) : (readNow s).2.cfg = s.cfg := rfl
@[simp] theorem readNow_rom (s : State) : (readNow s).2.rom = s.rom := rfl
@[simp] theorem readNow_now (s : State) : (readNow s).2.now = (readNow s).1 := rfl
@[simp] theorem readNow_hostCmds (s : State) : (readNow s).2.hostCmds = s.hostCmds := rfl
@[simp] theorem readNow_env (s : State) : (readNow s).2.env = (nextElapsed s.env).2 := rfl

@[simp] theorem busWrite_protoType (a : Nat) (w : Nat) (s : State) :
    (busWrite a w s).2.protoType = s.protoType := rfl
@[simp] theorem busWrite_seqState (a : Nat) (w : Nat) (s : State) :
    (busWrite a w s).2.seqState = s.seqState := rfl
@[simp] theorem busWrite_result (a : Nat) (w : Nat) (s : State) : (busWrite a w s).2.result = s.result := rfl
@[simp] theorem busWrite_busy (a : Nat) (w : Nat) (s : State) : (busWrite a w s).2.busy = s.busy := rfl
@[simp] theorem busWrite_romsel (a : Nat) (w : Nat) (s : State) : (busWrite a w s).2.romsel = s.romsel := rfl
@[simp] theorem busWrite_upc (a : Nat) (w : Nat) (s : State) : (busWrite a w s).2.upc = s.upc := rfl
@[simp] theorem busWrite_clkEn (a : Nat) (w : Nat) (s : State) : (busWrite a w s).2.clkEn = s.clkEn := rfl
@[simp] theorem busWrite_rst (a : Nat) (w : Nat) (s : State) : (busWrite a w s).2.rst = s.rst := rfl
@[simp] theorem busWrite_regs (a : Nat) (w : Nat) (s : State) :
    (busWrite a w s).2.regs = maskedWrite s.cfg.widths s.regs a
      (landedMask (maskHalf s.cfg.widths w) (nextWrite s.env).1) (dataHalf s.cfg.widths w) := rfl
@[simp] theorem busWrite_pollT0 (a : Nat) (w : Nat) (s : State) : (busWrite a w s).2.pollT0 = s.pollT0 := rfl
@[simp] theorem busWrite_pollN (a : Nat) (w : Nat) (s : State) : (busWrite a w s).2.pollN = s.pollN := rfl
@[simp] theorem busWrite_hookIdx (a : Nat) (w : Nat) (s : State) :
    (busWrite a w s).2.hookIdx = s.hookIdx := rfl
@[simp] theorem busWrite_hookSub (a : Nat) (w : Nat) (s : State) :
    (busWrite a w s).2.hookSub = s.hookSub := rfl
@[simp] theorem busWrite_trace (a : Nat) (w : Nat) (s : State) :
    (busWrite a w s).2.trace = s.trace ++ [.wr a w (busWrite a w s).1] := rfl
@[simp] theorem busWrite_cfg (a : Nat) (w : Nat) (s : State) : (busWrite a w s).2.cfg = s.cfg := rfl
@[simp] theorem busWrite_rom (a : Nat) (w : Nat) (s : State) : (busWrite a w s).2.rom = s.rom := rfl
@[simp] theorem busWrite_now (a : Nat) (w : Nat) (s : State) : (busWrite a w s).2.now = s.now := rfl
@[simp] theorem busWrite_hostCmds (a : Nat) (w : Nat) (s : State) :
    (busWrite a w s).2.hostCmds = s.hostCmds := rfl
@[simp] theorem busWrite_env (a : Nat) (w : Nat) (s : State) :
    (busWrite a w s).2.env = (nextWrite s.env).2 := rfl

@[simp] theorem busRead_protoType (a : Nat) (s : State) : (busRead a s).2.protoType = s.protoType := rfl
@[simp] theorem busRead_seqState (a : Nat) (s : State) : (busRead a s).2.seqState = s.seqState := rfl
@[simp] theorem busRead_result (a : Nat) (s : State) : (busRead a s).2.result = s.result := rfl
@[simp] theorem busRead_busy (a : Nat) (s : State) : (busRead a s).2.busy = s.busy := rfl
@[simp] theorem busRead_romsel (a : Nat) (s : State) : (busRead a s).2.romsel = s.romsel := rfl
@[simp] theorem busRead_upc (a : Nat) (s : State) : (busRead a s).2.upc = s.upc := rfl
@[simp] theorem busRead_clkEn (a : Nat) (s : State) : (busRead a s).2.clkEn = s.clkEn := rfl
@[simp] theorem busRead_rst (a : Nat) (s : State) : (busRead a s).2.rst = s.rst := rfl
@[simp] theorem busRead_regs (a : Nat) (s : State) : (busRead a s).2.regs = s.regs := rfl
@[simp] theorem busRead_pollT0 (a : Nat) (s : State) : (busRead a s).2.pollT0 = s.pollT0 := rfl
@[simp] theorem busRead_pollN (a : Nat) (s : State) : (busRead a s).2.pollN = s.pollN := rfl
@[simp] theorem busRead_hookIdx (a : Nat) (s : State) : (busRead a s).2.hookIdx = s.hookIdx := rfl
@[simp] theorem busRead_hookSub (a : Nat) (s : State) : (busRead a s).2.hookSub = s.hookSub := rfl
@[simp] theorem busRead_trace (a : Nat) (s : State) :
    (busRead a s).2.trace = s.trace ++ [.rd a (busRead a s).1] := rfl
@[simp] theorem busRead_cfg (a : Nat) (s : State) : (busRead a s).2.cfg = s.cfg := rfl
@[simp] theorem busRead_rom (a : Nat) (s : State) : (busRead a s).2.rom = s.rom := rfl
@[simp] theorem busRead_now (a : Nat) (s : State) : (busRead a s).2.now = s.now := rfl
@[simp] theorem busRead_hostCmds (a : Nat) (s : State) : (busRead a s).2.hostCmds = s.hostCmds := rfl
@[simp] theorem busRead_env (a : Nat) (s : State) : (busRead a s).2.env = (nextRead s.env).2 := rfl

@[simp] theorem finish_protoType (cmd : HostCmd) (code : ResultCode) (s : State) :
    (finish cmd code s).protoType = s.protoType := rfl
@[simp] theorem finish_seqState (cmd : HostCmd) (code : ResultCode) (s : State) :
    (finish cmd code s).seqState = s.seqState := rfl
@[simp] theorem finish_result (cmd : HostCmd) (code : ResultCode) (s : State) :
    (finish cmd code s).result = code := rfl
@[simp] theorem finish_busy (cmd : HostCmd) (code : ResultCode) (s : State) :
    (finish cmd code s).busy = false := rfl
@[simp] theorem finish_romsel (cmd : HostCmd) (code : ResultCode) (s : State) :
    (finish cmd code s).romsel = s.romsel := rfl
@[simp] theorem finish_upc (cmd : HostCmd) (code : ResultCode) (s : State) :
    (finish cmd code s).upc = s.upc := rfl
@[simp] theorem finish_clkEn (cmd : HostCmd) (code : ResultCode) (s : State) :
    (finish cmd code s).clkEn = s.clkEn := rfl
@[simp] theorem finish_rst (cmd : HostCmd) (code : ResultCode) (s : State) :
    (finish cmd code s).rst = s.rst := rfl
@[simp] theorem finish_regs (cmd : HostCmd) (code : ResultCode) (s : State) :
    (finish cmd code s).regs = s.regs := rfl
@[simp] theorem finish_pollT0 (cmd : HostCmd) (code : ResultCode) (s : State) :
    (finish cmd code s).pollT0 = s.pollT0 := rfl
@[simp] theorem finish_pollN (cmd : HostCmd) (code : ResultCode) (s : State) :
    (finish cmd code s).pollN = s.pollN := rfl
@[simp] theorem finish_hookIdx (cmd : HostCmd) (code : ResultCode) (s : State) :
    (finish cmd code s).hookIdx = s.hookIdx := rfl
@[simp] theorem finish_hookSub (cmd : HostCmd) (code : ResultCode) (s : State) :
    (finish cmd code s).hookSub = s.hookSub := rfl
@[simp] theorem finish_trace (cmd : HostCmd) (code : ResultCode) (s : State) :
    (finish cmd code s).trace = s.trace ++ [.result cmd code] := rfl
@[simp] theorem finish_cfg (cmd : HostCmd) (code : ResultCode) (s : State) :
    (finish cmd code s).cfg = s.cfg := rfl
@[simp] theorem finish_rom (cmd : HostCmd) (code : ResultCode) (s : State) :
    (finish cmd code s).rom = s.rom := rfl
@[simp] theorem finish_now (cmd : HostCmd) (code : ResultCode) (s : State) :
    (finish cmd code s).now = s.now := rfl
@[simp] theorem finish_hostCmds (cmd : HostCmd) (code : ResultCode) (s : State) :
    (finish cmd code s).hostCmds = s.hostCmds := rfl
@[simp] theorem finish_env (cmd : HostCmd) (code : ResultCode) (s : State) :
    (finish cmd code s).env = s.env := rfl

@[simp] theorem enterPoll_protoType (s : State) : (enterPoll s).protoType = s.protoType := rfl
@[simp] theorem enterPoll_seqState (s : State) : (enterPoll s).seqState = s.seqState := rfl
@[simp] theorem enterPoll_result (s : State) : (enterPoll s).result = s.result := rfl
@[simp] theorem enterPoll_busy (s : State) : (enterPoll s).busy = s.busy := rfl
@[simp] theorem enterPoll_romsel (s : State) : (enterPoll s).romsel = s.romsel := rfl
@[simp] theorem enterPoll_upc (s : State) : (enterPoll s).upc = s.upc := rfl
@[simp] theorem enterPoll_clkEn (s : State) : (enterPoll s).clkEn = s.clkEn := rfl
@[simp] theorem enterPoll_rst (s : State) : (enterPoll s).rst = s.rst := rfl
@[simp] theorem enterPoll_regs (s : State) : (enterPoll s).regs = s.regs := rfl
@[simp] theorem enterPoll_pollT0 (s : State) : (enterPoll s).pollT0 = (readNow s).1 := rfl
@[simp] theorem enterPoll_pollN (s : State) : (enterPoll s).pollN = 0 := rfl
@[simp] theorem enterPoll_hookIdx (s : State) : (enterPoll s).hookIdx = s.hookIdx := rfl
@[simp] theorem enterPoll_hookSub (s : State) : (enterPoll s).hookSub = s.hookSub := rfl
@[simp] theorem enterPoll_trace (s : State) : (enterPoll s).trace = s.trace := rfl
@[simp] theorem enterPoll_cfg (s : State) : (enterPoll s).cfg = s.cfg := rfl
@[simp] theorem enterPoll_rom (s : State) : (enterPoll s).rom = s.rom := rfl
@[simp] theorem enterPoll_now (s : State) : (enterPoll s).now = (readNow s).1 := rfl
@[simp] theorem enterPoll_hostCmds (s : State) : (enterPoll s).hostCmds = s.hostCmds := rfl
@[simp] theorem enterPoll_env (s : State) : (enterPoll s).env = (nextElapsed s.env).2 := rfl

@[simp] theorem leavePoll_protoType (s : State) : (leavePoll s).protoType = s.protoType := rfl
@[simp] theorem leavePoll_seqState (s : State) : (leavePoll s).seqState = s.seqState := rfl
@[simp] theorem leavePoll_result (s : State) : (leavePoll s).result = s.result := rfl
@[simp] theorem leavePoll_busy (s : State) : (leavePoll s).busy = s.busy := rfl
@[simp] theorem leavePoll_romsel (s : State) : (leavePoll s).romsel = s.romsel := rfl
@[simp] theorem leavePoll_upc (s : State) : (leavePoll s).upc = s.upc := rfl
@[simp] theorem leavePoll_clkEn (s : State) : (leavePoll s).clkEn = s.clkEn := rfl
@[simp] theorem leavePoll_rst (s : State) : (leavePoll s).rst = s.rst := rfl
@[simp] theorem leavePoll_regs (s : State) : (leavePoll s).regs = s.regs := rfl
@[simp] theorem leavePoll_hookIdx (s : State) : (leavePoll s).hookIdx = s.hookIdx := rfl
@[simp] theorem leavePoll_hookSub (s : State) : (leavePoll s).hookSub = s.hookSub := rfl
@[simp] theorem leavePoll_trace (s : State) : (leavePoll s).trace = s.trace := rfl
@[simp] theorem leavePoll_cfg (s : State) : (leavePoll s).cfg = s.cfg := rfl
@[simp] theorem leavePoll_rom (s : State) : (leavePoll s).rom = s.rom := rfl
@[simp] theorem leavePoll_now (s : State) : (leavePoll s).now = s.now := rfl
@[simp] theorem leavePoll_hostCmds (s : State) : (leavePoll s).hostCmds = s.hostCmds := rfl

@[simp] theorem leaveHook_protoType (s : State) : (leaveHook s).protoType = s.protoType := rfl
@[simp] theorem leaveHook_seqState (s : State) : (leaveHook s).seqState = s.seqState := rfl
@[simp] theorem leaveHook_result (s : State) : (leaveHook s).result = s.result := rfl
@[simp] theorem leaveHook_busy (s : State) : (leaveHook s).busy = s.busy := rfl
@[simp] theorem leaveHook_romsel (s : State) : (leaveHook s).romsel = s.romsel := rfl
@[simp] theorem leaveHook_upc (s : State) : (leaveHook s).upc = s.upc := rfl
@[simp] theorem leaveHook_clkEn (s : State) : (leaveHook s).clkEn = s.clkEn := rfl
@[simp] theorem leaveHook_rst (s : State) : (leaveHook s).rst = s.rst := rfl
@[simp] theorem leaveHook_regs (s : State) : (leaveHook s).regs = s.regs := rfl
@[simp] theorem leaveHook_pollT0 (s : State) : (leaveHook s).pollT0 = s.pollT0 := rfl
@[simp] theorem leaveHook_pollN (s : State) : (leaveHook s).pollN = s.pollN := rfl
@[simp] theorem leaveHook_trace (s : State) : (leaveHook s).trace = s.trace := rfl
@[simp] theorem leaveHook_cfg (s : State) : (leaveHook s).cfg = s.cfg := rfl
@[simp] theorem leaveHook_rom (s : State) : (leaveHook s).rom = s.rom := rfl
@[simp] theorem leaveHook_now (s : State) : (leaveHook s).now = s.now := rfl
@[simp] theorem leaveHook_hostCmds (s : State) : (leaveHook s).hostCmds = s.hostCmds := rfl

@[simp] theorem readNow_fst (s : State) : (readNow s).1 = s.now + (nextElapsed s.env).1 := rfl
@[simp] theorem busRead_fst (a : Nat) (s : State) :
    (busRead a s).1 = busAnswer s.cfg.widths (nextRead s.env).1 := rfl
@[simp] theorem busWrite_fst (a : Nat) (w : Nat) (s : State) :
    (busWrite a w s).1 = writeResp (nextWrite s.env).1 := rfl

end Sys2Proof.Machine
end

