-- ==== Sys2Proof/Laws/Ops.lean ====
section
/-!
SUPPORT. What each shared operation can do, said once: a later proof cites these lemmas and unfolds no operation.
-/

namespace Sys2Proof.Machine

/-! ### Going on, and the end of a micro-operation -/

@[simp] theorem andThen_done (s : State) (k : State → Act) : andThen (.done s) k = k s := rfl
@[simp] theorem andThen_raised (e : ErrorCode) (s : State) (k : State → Act) :
    andThen (.raised e s) k = .raised e s := rfl
@[simp] theorem andThen_fault (r : Fault) (k : State → Act) : andThen (.fault r) k = .fault r := rfl
@[simp] theorem onState_done (g : State → State) (s : State) : onState g (.done s) = .done (g s) := rfl
@[simp] theorem onState_raised (g : State → State) (e : ErrorCode) (s : State) :
    onState g (.raised e s) = .raised e (g s) := rfl
@[simp] theorem onState_fault (g : State → State) (r : Fault) : onState g (.fault r) = .fault r := rfl
@[simp] theorem complete_done (s : State) : complete (.done s) = .next (advance s) := rfl
@[simp] theorem complete_raised (e : ErrorCode) (s : State) : complete (.raised e s) = .next (abort e s) := rfl
@[simp] theorem complete_fault (r : Fault) : complete (.fault r) = .fault r := rfl

/-- A micro-operation answers a next state when it completed, or when it raised an error. -/
theorem complete_next {a : Act} {t : State} (h : complete a = .next t) :
    (∃ s, a = .done s ∧ t = advance s) ∨ (∃ e s, a = .raised e s ∧ t = abort e s) := by
  cases a with
  | done s => exact .inl ⟨s, rfl, by simpa using h.symm⟩
  | raised e s => exact .inr ⟨e, s, rfl, by simpa using h.symm⟩
  | fault r => simp at h

/-- A micro-operation never answers a refusal. -/
theorem complete_ne_refused (a : Act) (r : Refusal) : complete a ≠ .refused r := by
  cases a <;> simp

/-- How an action followed by another can end. -/
theorem andThen_cases (a : Act) (k : State → Act) :
    (∃ s, a = .done s ∧ andThen a k = k s) ∨ (∃ e s, a = .raised e s ∧ andThen a k = .raised e s) ∨
      (∃ r, a = .fault r ∧ andThen a k = .fault r) := by
  cases a with
  | done s => exact .inl ⟨s, rfl, rfl⟩
  | raised e s => exact .inr (.inl ⟨e, s, rfl, rfl⟩)
  | fault r => exact .inr (.inr ⟨r, rfl, rfl⟩)

/-! ### Abort -/

/-- What an abort leaves, field by field of what it changes. -/
theorem abort_eq (e : ErrorCode) (s : State) :
    abort e s = { s with
      seqState := if isBringUp s.romsel then .idle else s.seqState
      result := .error e
      busy := false
      trace := s.trace ++ (if isBringUp s.romsel then [.state .idle] else [])
        ++ [.result (imageCommand s.romsel) (.error e)] } := by
  unfold abort abortState finish emit
  split <;> simp_all

@[simp] theorem abort_protoType (e : ErrorCode) (s : State) : (abort e s).protoType = s.protoType := by
  rw [abort_eq]
@[simp] theorem abort_seqState (e : ErrorCode) (s : State) :
    (abort e s).seqState = if isBringUp s.romsel then .idle else s.seqState := by rw [abort_eq]
@[simp] theorem abort_result (e : ErrorCode) (s : State) : (abort e s).result = .error e := by rw [abort_eq]
@[simp] theorem abort_busy (e : ErrorCode) (s : State) : (abort e s).busy = false := by rw [abort_eq]
@[simp] theorem abort_romsel (e : ErrorCode) (s : State) : (abort e s).romsel = s.romsel := by rw [abort_eq]
@[simp] theorem abort_upc (e : ErrorCode) (s : State) : (abort e s).upc = s.upc := by rw [abort_eq]
@[simp] theorem abort_clkEn (e : ErrorCode) (s : State) : (abort e s).clkEn = s.clkEn := by rw [abort_eq]
@[simp] theorem abort_rst (e : ErrorCode) (s : State) : (abort e s).rst = s.rst := by rw [abort_eq]
@[simp] theorem abort_regs (e : ErrorCode) (s : State) : (abort e s).regs = s.regs := by rw [abort_eq]
@[simp] theorem abort_pollT0 (e : ErrorCode) (s : State) : (abort e s).pollT0 = s.pollT0 := by rw [abort_eq]
@[simp] theorem abort_pollN (e : ErrorCode) (s : State) : (abort e s).pollN = s.pollN := by rw [abort_eq]
@[simp] theorem abort_hookIdx (e : ErrorCode) (s : State) : (abort e s).hookIdx = s.hookIdx := by rw [abort_eq]
@[simp] theorem abort_hookSub (e : ErrorCode) (s : State) : (abort e s).hookSub = s.hookSub := by rw [abort_eq]
@[simp] theorem abort_trace (e : ErrorCode) (s : State) :
    (abort e s).trace = s.trace ++ (if isBringUp s.romsel then [.state .idle] else [])
      ++ [.result (imageCommand s.romsel) (.error e)] := by rw [abort_eq]
@[simp] theorem abort_cfg (e : ErrorCode) (s : State) : (abort e s).cfg = s.cfg := by rw [abort_eq]
@[simp] theorem abort_rom (e : ErrorCode) (s : State) : (abort e s).rom = s.rom := by rw [abort_eq]
@[simp] theorem abort_now (e : ErrorCode) (s : State) : (abort e s).now = s.now := by rw [abort_eq]
@[simp] theorem abort_hostCmds (e : ErrorCode) (s : State) : (abort e s).hostCmds = s.hostCmds := by rw [abort_eq]
@[simp] theorem abort_env (e : ErrorCode) (s : State) : (abort e s).env = s.env := by rw [abort_eq]

/-! ### Reset lines -/

@[simp] theorem getLine_setLine_same {α : Type} (p : PerLine α) (l : ResetLine) (x : α) :
    getLine (setLine p l x) l = x := by cases l <;> rfl

@[simp] theorem getLine_setLine_ne {α : Type} (p : PerLine α) {k l : ResetLine} (h : k ≠ l) (x : α) :
    getLine (setLine p l x) k = getLine p k := by cases k <;> cases l <;> first | rfl | exact absurd rfl h

/-- Two sets of lines that hold the same for each line are equal. -/
theorem perLine_ext {α : Type} {p q : PerLine α} (h : ∀ l, getLine p l = getLine q l) : p = q := by
  have h1 := h .ctrl
  have h2 := h .por
  have h3 := h .regbus
  have h4 := h .datapath
  cases p
  cases q
  simp_all [getLine]

/-- Driving a line changes nothing when it is absent, else its level and the trace. -/
theorem driveLine_cases (l : ResetLine) (b : Bool) (s : State) :
    (getLine s.rst l = none ∧ driveLine l b s = s) ∨
      ((∃ level, getLine s.rst l = some level) ∧
        driveLine l b s = emit (.rst l b) { s with rst := setLine s.rst l (some b) }) := by
  unfold driveLine
  cases h : getLine s.rst l with
  | none => exact .inl ⟨rfl, rfl⟩
  | some level => exact .inr ⟨⟨level, rfl⟩, rfl⟩

/-! ### Commands -/

/-- A command is refused while `BUSY = 1`, else performed with `BUSY = 1`. -/
theorem accept_cases (s : State) (k : State → Result) :
    (s.busy = true ∧ accept s k = .refused .commandWhileBusy) ∨
      (s.busy = false ∧ accept s k = k { s with busy := true }) := by
  unfold accept
  cases s.busy <;> simp

/-! ### The masked bitfield write -/

/-- Why an identifier names no field at an offset where a register lies, and the fault that is. -/
def FieldFault (f : FieldId) (s : State) (r : Fault) : Prop :=
  (lookupField s.cfg.variant f = none ∧ r = .undefinedField f) ∨
    ∃ fld, lookupField s.cfg.variant f = some fld ∧
      ((aligned s.cfg.widths fld.offset = false ∧ r = .misalignedOffset fld.offset) ∨
        (aligned s.cfg.widths fld.offset = true ∧ 2 ^ s.cfg.widths.addrBits ≤ fld.offset ∧
          r = .offsetOutOfRange fld.offset))

/-- What `withField` can do: stop, or go on with a field at an offset where a register lies. -/
theorem withField_cases (f : FieldId) (s : State) (k : RegisterField → Act) :
    (∃ r, FieldFault f s r ∧ withField f s k = .fault r) ∨
      (∃ fld, lookupField s.cfg.variant f = some fld ∧ aligned s.cfg.widths fld.offset = true ∧
        fld.offset < 2 ^ s.cfg.widths.addrBits ∧ withField f s k = k fld) := by
  unfold withField FieldFault
  cases h : lookupField s.cfg.variant f with
  | none => exact .inl ⟨_, .inl ⟨rfl, rfl⟩, rfl⟩
  | some fld =>
    cases ha : aligned s.cfg.widths fld.offset with
    | false => exact .inl ⟨_, .inr ⟨fld, rfl, .inl ⟨ha, rfl⟩⟩, by simp [ha]⟩
    | true =>
      by_cases hr : 2 ^ s.cfg.widths.addrBits ≤ fld.offset
      · exact .inl ⟨_, .inr ⟨fld, rfl, .inr ⟨ha, hr, rfl⟩⟩, by simp [ha, hr]⟩
      · exact .inr ⟨fld, rfl, ha, Nat.lt_of_not_le hr, by simp [ha, hr]⟩

/-- `withField` goes on with a field at an offset where a register lies. -/
theorem withField_ok {f : FieldId} {s : State} {fld : RegisterField} (h : lookupField s.cfg.variant f = some fld)
    (ha : aligned s.cfg.widths fld.offset = true) (hr : fld.offset < 2 ^ s.cfg.widths.addrBits)
    (k : RegisterField → Act) : withField f s k = k fld := by
  simp [withField, h, ha, Nat.not_le.2 hr]

/-- The field mask is within the data half. -/
theorem fieldMask_lt (n : Widths) (fld : RegisterField) : fieldMask n fld < 2 ^ n.half :=
  Nat.mod_lt _ (Nat.two_pow_pos _)

/-- The field data is within the data half. -/
theorem fieldData_lt (n : Widths) (fld : RegisterField) (e : Bool) : fieldData n fld e < 2 ^ n.half :=
  Nat.lt_of_le_of_lt Nat.and_le_right (fieldMask_lt n fld)

/-- The write word, as mask and data side by side. -/
theorem writeWord_eq_add (n : Widths) (fld : RegisterField) (e : Bool) :
    writeWord n fld e = 2 ^ n.half * fieldMask n fld + fieldData n fld e := by
  rw [writeWord, Nat.shiftLeft_eq, Nat.mul_comm, Nat.two_pow_add_eq_or_of_lt (fieldData_lt n fld e)]

@[simp] theorem maskHalf_writeWord (n : Widths) (fld : RegisterField) (e : Bool) :
    maskHalf n (writeWord n fld e) = fieldMask n fld := by
  rw [maskHalf, writeWord_eq_add, Nat.shiftRight_eq_div_pow, Nat.mul_add_div (Nat.two_pow_pos _),
    Nat.div_eq_of_lt (fieldData_lt n fld e), Nat.add_zero, Nat.mod_eq_of_lt (fieldMask_lt n fld)]

@[simp] theorem dataHalf_writeWord (n : Widths) (fld : RegisterField) (e : Bool) :
    dataHalf n (writeWord n fld e) = fieldData n fld e := by
  rw [dataHalf, writeWord_eq_add, Nat.mul_add_mod, Nat.mod_eq_of_lt (fieldData_lt n fld e)]

/-- What a masked bitfield write can do: stop, or issue its one transaction and go on or raise RegisterError as it
is answered. -/
theorem writeField_cases (f : FieldId) (e : Bool) (s : State) :
    (∃ r, FieldFault f s r ∧ writeField f e s = .fault r) ∨
      (∃ fld, lookupField s.cfg.variant f = some fld ∧ aligned s.cfg.widths fld.offset = true ∧
        fld.offset < 2 ^ s.cfg.widths.addrBits ∧
        (((nextWrite s.env).1 = .ok ∧
            writeField f e s = .done (busWrite fld.offset (writeWord s.cfg.widths fld e) s).2) ∨
          ((∃ landed, (nextWrite s.env).1 = .busErr landed) ∧
            writeField f e s =
              .raised .registerError (busWrite fld.offset (writeWord s.cfg.widths fld e) s).2))) := by
  unfold writeField
  rcases withField_cases f s _ with ⟨r, h, hw⟩ | ⟨fld, h, ha, hr, hw⟩
  · exact .inl ⟨r, h, hw⟩
  · refine .inr ⟨fld, h, ha, hr, ?_⟩
    rw [hw]
    cases hn : (nextWrite s.env).1 with
    | ok => exact .inl ⟨rfl, by simp [busWrite, hn, writeResp]⟩
    | busErr landed => exact .inr ⟨⟨landed, rfl⟩, by simp [busWrite, hn, writeResp]⟩

/-- The one change a transaction makes to the state, whatever its answer. -/
theorem busWrite_eq (a : Nat) (w : Nat) (s : State) :
    (busWrite a w s).2 = { s with
      regs := maskedWrite s.cfg.widths s.regs a (landedMask (maskHalf s.cfg.widths w) (nextWrite s.env).1)
        (dataHalf s.cfg.widths w)
      trace := s.trace ++ [.wr a w (writeResp (nextWrite s.env).1)]
      env := (nextWrite s.env).2 } := rfl

end Sys2Proof.Machine
end

