-- ==== Sys2Proof/Laws/Hook.lean ====
section
/-!
SUPPORT. What the fine-tuning hook can do.
-/

namespace Sys2Proof.Machine

/-- All a list of hook writes does to the state. -/
structure HookEffect (ids : List FieldId) (s t : State) : Prop where
  frame : t = { s with
    regs := t.regs, trace := t.trace, env := t.env, hookIdx := t.hookIdx, hookSub := t.hookSub }
  events : ∃ evs, t.trace = s.trace ++ evs ∧ ∀ ev ∈ evs, ∃ a w r, ev = .wr a w r
  canonical : widthsWf s.cfg.widths = true → memoryWf s.cfg.widths s.regs = true →
    memoryWf s.cfg.widths t.regs = true
  outside : ∀ a, (∀ f ∈ ids, ∀ fld, lookupField s.cfg.variant f = some fld →
    a < fld.offset ∨ fld.offset + regBytes s.cfg.widths ≤ a) → readByte t.regs a = readByte s.regs a

theorem hookEffect_refl (ids : List FieldId) (s : State) : HookEffect ids s s where
  frame := rfl
  events := ⟨[], (List.append_nil _).symm, by simp⟩
  canonical := fun _ h => h
  outside := fun _ _ => rfl

theorem hookEffect_trans {ids : List FieldId} {s t u : State} (h : HookEffect ids s t) (h' : HookEffect ids t u) :
    HookEffect ids s u where
  frame := by rw [h'.frame, h.frame]
  events := by
    obtain ⟨e1, h1, k1⟩ := h.events
    obtain ⟨e2, h2, k2⟩ := h'.events
    refine ⟨e1 ++ e2, by rw [h2, h1, List.append_assoc], fun ev hev => ?_⟩
    rcases List.mem_append.1 hev with hm | hm
    · exact k1 ev hm
    · exact k2 ev hm
  canonical := fun hn hw => by
    have hc : t.cfg = s.cfg := by rw [h.frame]
    have h2 := h'.canonical
    rw [hc] at h2
    exact h2 hn (h.canonical hn hw)
  outside := fun a ha => by
    have hc : t.cfg = s.cfg := by rw [h.frame]
    rw [h'.outside a (by rw [hc]; exact ha), h.outside a ha]

theorem hookEffect_mono {ids ids' : List FieldId} {s t : State} (h : HookEffect ids s t) (hs : ids ⊆ ids') :
    HookEffect ids' s t where
  frame := h.frame
  events := h.events
  canonical := h.canonical
  outside := fun a ha => h.outside a (fun f hf => ha f (hs hf))

theorem hookEffect_hookSub (ids : List FieldId) (s : State) (n : Nat) : HookEffect ids s { s with hookSub := n } where
  frame := rfl
  events := ⟨[], (List.append_nil _).symm, by simp⟩
  canonical := fun _ h => h
  outside := fun _ _ => rfl

theorem hookEffect_hookIdx (ids : List FieldId) (s : State) (n : Nat) : HookEffect ids s { s with hookIdx := n } where
  frame := rfl
  events := ⟨[], (List.append_nil _).symm, by simp⟩
  canonical := fun _ h => h
  outside := fun _ _ => rfl

theorem hookEffect_busWrite {f : FieldId} {fld : RegisterField} {s : State} (hl : lookupField s.cfg.variant f = some fld)
    (ha : aligned s.cfg.widths fld.offset = true) (hr : fld.offset < 2 ^ s.cfg.widths.addrBits) (w : Nat) :
    HookEffect [f] s (busWrite fld.offset w s).2 where
  frame := rfl
  events := ⟨[_], rfl, by simp⟩
  canonical := fun hn hw => memoryWf_maskedWrite hn ha hr hw _ _
  outside := fun a h => readByte_maskedWrite_outside (h f (by simp) fld hl) _ _ _

/-- An action of the hook ends in a state it has only changed as a hook may; a fault is of a field it named. -/
def HookAct (ids : List FieldId) (s : State) (a : Act) : Prop :=
  (∃ t, a = .done t ∧ HookEffect ids s t) ∨ (∃ e t, a = .raised e t ∧ HookEffect ids s t) ∨
    (∃ r, a = .fault r ∧ ∃ f ∈ ids, FieldFault f s r)

theorem hookAct_andThen {ids : List FieldId} {s : State} {a : Act} {k : State → Act} (h : HookAct ids s a)
    (hk : ∀ t, HookEffect ids s t → HookAct ids t (k t)) : HookAct ids s (andThen a k) := by
  rcases h with ⟨t, rfl, ht⟩ | ⟨e, t, rfl, ht⟩ | ⟨r, rfl, hr⟩
  · have hc : t.cfg = s.cfg := by rw [ht.frame]
    rcases hk t ht with ⟨u, hu, he⟩ | ⟨e, u, hu, he⟩ | ⟨r, hu, hr⟩
    · exact .inl ⟨u, hu, hookEffect_trans ht he⟩
    · exact .inr (.inl ⟨e, u, hu, hookEffect_trans ht he⟩)
    · simp only [FieldFault, hc] at hr
      exact .inr (.inr ⟨r, hu, hr⟩)
  · exact .inr (.inl ⟨e, t, rfl, ht⟩)
  · exact .inr (.inr ⟨r, rfl, hr⟩)

theorem hookAct_mono {ids ids' : List FieldId} {s : State} {a : Act} (h : HookAct ids s a) (hs : ids ⊆ ids') :
    HookAct ids' s a := by
  rcases h with ⟨t, rfl, ht⟩ | ⟨e, t, rfl, ht⟩ | ⟨r, rfl, f, hf, hr⟩
  · exact .inl ⟨t, rfl, hookEffect_mono ht hs⟩
  · exact .inr (.inl ⟨e, t, rfl, hookEffect_mono ht hs⟩)
  · exact .inr (.inr ⟨r, rfl, f, hs hf, hr⟩)

theorem hookAct_writeField (f : FieldId) (e : Bool) (s : State) : HookAct [f] s (writeField f e s) := by
  rcases writeField_cases f e s with ⟨r, hf, h⟩ | ⟨fld, hl, ha, hr, ⟨-, h⟩ | ⟨-, h⟩⟩
  · exact .inr (.inr ⟨r, h, f, by simp, hf⟩)
  · exact .inl ⟨_, h, hookEffect_busWrite hl ha hr _⟩
  · exact .inr (.inl ⟨_, _, h, hookEffect_busWrite hl ha hr _⟩)

/-- What the write list of a RATE entry can do. -/
theorem hookAct_runHookWrites (ws : List HookWrite) (s : State) :
    HookAct (ws.map (·.field)) s (runHookWrites ws s) := by
  induction ws generalizing s with
  | nil => exact .inl ⟨s, rfl, hookEffect_refl _ s⟩
  | cons w ws ih =>
    rw [runHookWrites]
    refine hookAct_andThen (hookAct_mono (hookAct_writeField _ _ s) (by simp)) (fun t _ => ?_)
    rcases ih { t with hookSub := t.hookSub + 1 } with ⟨u, hu, he⟩ | ⟨e, u, hu, he⟩ | ⟨r, hu, f, hf, hr⟩
    · exact .inl ⟨u, hu, hookEffect_trans (hookEffect_hookSub _ t _) (hookEffect_mono he (by simp))⟩
    · exact .inr (.inl ⟨e, u, hu, hookEffect_trans (hookEffect_hookSub _ t _) (hookEffect_mono he (by simp))⟩)
    · exact .inr (.inr ⟨r, hu, f, List.mem_cons_of_mem _ hf, hr⟩)

theorem runHookStep_rate (table : List RateEntry) (s : State) :
    runHookStep (.rate table) s =
      match rateEntry table s.cfg.refclkRateHz with
      | none => .raised .unsupportedClockRate s
      | some r => runHookWrites r.writes { s with hookSub := 0 } := rfl

/-- What one step of the hook can do. -/
theorem hookAct_runHookStep (st : HookStep) (s : State) :
    HookAct ((stepWrites st).map (·.field)) s (runHookStep st s) := by
  cases st with
  | write w => exact hookAct_writeField _ _ s
  | rate table =>
    rw [runHookStep_rate]
    cases hf : rateEntry table s.cfg.refclkRateHz with
    | none => exact .inr (.inl ⟨_, _, rfl, hookEffect_refl _ s⟩)
    | some r =>
      have hmem : r ∈ table := List.mem_of_find?_eq_some hf
      have hsub : r.writes.map (·.field) ⊆ (stepWrites (.rate table)).map (·.field) := by
        intro f hm
        obtain ⟨w, hw, rfl⟩ := List.mem_map.1 hm
        exact List.mem_map.2 ⟨w, List.mem_flatMap.2 ⟨r, hmem, hw⟩, rfl⟩
      rcases hookAct_mono (hookAct_runHookWrites r.writes { s with hookSub := 0 }) hsub with
        ⟨u, hu, he⟩ | ⟨e, u, hu, he⟩ | ⟨q, hu, f, hf', hr⟩
      · exact .inl ⟨u, hu, hookEffect_trans (hookEffect_hookSub _ s _) he⟩
      · exact .inr (.inl ⟨e, u, hu, hookEffect_trans (hookEffect_hookSub _ s _) he⟩)
      · exact .inr (.inr ⟨q, hu, f, hf', hr⟩)

/-- What the steps of the hook can do. -/
theorem hookAct_runHookSteps (sts : List HookStep) (s : State) :
    HookAct ((sts.flatMap stepWrites).map (·.field)) s (runHookSteps sts s) := by
  induction sts generalizing s with
  | nil => exact .inl ⟨s, rfl, hookEffect_refl _ s⟩
  | cons st sts ih =>
    rw [runHookSteps]
    refine hookAct_andThen (hookAct_mono (hookAct_runHookStep st s) (by simp)) (fun t _ => ?_)
    rcases ih { t with hookIdx := t.hookIdx + 1 } with ⟨u, hu, he⟩ | ⟨e, u, hu, he⟩ | ⟨r, hu, f, hf, hr⟩
    · exact .inl ⟨u, hu, hookEffect_trans (hookEffect_hookIdx _ t _) (hookEffect_mono he (by simp))⟩
    · exact .inr (.inl ⟨e, u, hu, hookEffect_trans (hookEffect_hookIdx _ t _) (hookEffect_mono he (by simp))⟩)
    · refine .inr (.inr ⟨r, hu, f, ?_, hr⟩)
      rw [List.flatMap_cons, List.map_append]
      exact List.mem_append_right _ hf

/-- The steps of the hook for a protocol name only fields that `hookWrites` lists. -/
theorem hookSteps_subset {v : VariantConfig} {h : TuneHook} (hv : v.tuneHook = some h) (p : ProtoType) :
    ((hookSteps h p).flatMap stepWrites).map (·.field) ⊆ (hookWrites v).map (·.field) := by
  intro f hf
  obtain ⟨w, hw, rfl⟩ := List.mem_map.1 hf
  obtain ⟨st, hst, hw⟩ := List.mem_flatMap.1 hw
  refine List.mem_map.2 ⟨w, ?_, rfl⟩
  unfold hookWrites
  rw [hv]
  refine List.mem_flatMap.2 ⟨st, ?_, hw⟩
  unfold hookSteps at hst
  split at hst
  · exact List.mem_append_left _ hst
  · exact List.mem_append_right _ hst

end Sys2Proof.Machine
end

