-- ==== Sys2Proof/Laws/PerInstr.lean ====
section
/-!
SUPPORT. A statement made for each instruction as syntax: its word is of the format its kind has (spec/30_encoding.md
R70, R86), a command word for a host command, a micro-operation word for a micro-operation.
-/

namespace Sys2Proof.Laws.FormatOfEncoding

/-- The word of `i` is a command word exactly when `i` is a host command. -/
def Statement (i : Instr) : Prop :=
  (∃ w, encode i = .cmd w) ↔ i.isCommand = true

theorem of_cmd {i : Instr} {w : CmdWord} (h : encode i = .cmd w) (hc : i.isCommand = true) : Statement i :=
  ⟨fun _ => hc, fun _ => ⟨w, h⟩⟩

theorem of_uop {i : Instr} {w : UopWord} (h : encode i = .uop w) (hc : i.isCommand = false) : Statement i :=
  ⟨fun ⟨v, hv⟩ => (by rw [h] at hv; cases hv), fun h' => (by rw [hc] at h'; cases h')⟩

theorem assignType (t : BitVec 8) : Statement (.assignType t) := of_cmd rfl rfl
theorem init : Statement .init := of_cmd rfl rfl
theorem exit : Statement .exit := of_cmd rfl rfl
theorem complianceTest : Statement .complianceTest := of_cmd rfl rfl
theorem endOp : Statement .endOp := of_uop rfl rfl
theorem setst (st : SeqState) : Statement (.setst st) := of_uop rfl rfl
theorem rsta (l : ResetLine) : Statement (.rsta l) := of_uop rfl rfl
theorem rstd (l : ResetLine) : Statement (.rstd l) := of_uop rfl rfl
theorem clken : Statement .clken := of_uop rfl rfl
theorem clkdis : Statement .clkdis := of_uop rfl rfl
theorem delay (k : DelayKind) : Statement (.delay k) := of_uop rfl rfl
theorem wrf (f : FieldId) (e : Bool) : Statement (.wrf f e) := of_uop rfl rfl
theorem poll (f : FieldId) (c : TimeoutCode) : Statement (.poll f c) := of_uop rfl rfl
theorem hook : Statement .hook := of_uop rfl rfl

end Sys2Proof.Laws.FormatOfEncoding
end

