-- ==== Sys2Proof/Laws/Poll.lean ====
section
/-!
SUPPORT. What the loop of POLL can do.
-/

namespace Sys2Proof.Machine

/-- The state after one read of a poll. -/
def afterRead (fld : RegisterField) (s : State) : State := { (busRead fld.offset s).2 with pollN := s.pollN + 1 }

/-- The state after a read that did not match, its time check and its wait. -/
def afterRound (fld : RegisterField) (s : State) : State :=
  wait .pollInterval s.cfg.pollIntervalUs (readNow (afterRead fld s)).2

/-- One round of the loop: the four ways it goes. -/
theorem pollLoop_succ (fld : RegisterField) (c : TimeoutCode) (n : Nat) (s : State) :
    ((busRead fld.offset s).1 = .busErr ∧ pollLoop fld c (n + 1) s = .raised .registerError (afterRead fld s)) ∨
    (∃ w, (busRead fld.offset s).1 = .word w ∧
      ((fieldMatches fld w = true ∧ pollLoop fld c (n + 1) s = .done (afterRead fld s)) ∨
       (fieldMatches fld w = false ∧ s.cfg.pollTimeoutUs < (readNow (afterRead fld s)).1 - s.pollT0 ∧
          pollLoop fld c (n + 1) s = .raised (timeoutError c) (readNow (afterRead fld s)).2) ∨
       (fieldMatches fld w = false ∧ (readNow (afterRead fld s)).1 - s.pollT0 ≤ s.cfg.pollTimeoutUs ∧
          pollLoop fld c (n + 1) s = pollLoop fld c n (afterRound fld s)))) := by
  rw [pollLoop]
  dsimp only
  cases hr : (busRead fld.offset s).1 with
  | busErr => exact .inl ⟨rfl, rfl⟩
  | word w =>
    refine .inr ⟨w, rfl, ?_⟩
    cases hm : fieldMatches fld w with
    | true => exact .inl ⟨rfl, by simp [hm, afterRead]⟩
    | false =>
      by_cases ht : s.cfg.pollTimeoutUs < (readNow (afterRead fld s)).1 - s.pollT0
      · exact .inr (.inl ⟨rfl, ht, by
          simp only [hm, Bool.false_eq_true, if_false]
          exact if_pos ht⟩)
      · exact .inr (.inr ⟨rfl, by omega, by
          simp only [hm, Bool.false_eq_true, if_false]
          exact if_neg ht⟩)

/-- The events of a poll: reads of its field's register and re-read waits. -/
def PollEvent (fld : RegisterField) (ev : Event) : Prop :=
  (∃ r, ev = .rd fld.offset r) ∨ ∃ us, ev = .delay .pollInterval us

/-- All a poll does to the state while it loops. -/
structure PollEffect (fld : RegisterField) (s t : State) : Prop where
  frame : t = { s with pollN := t.pollN, trace := t.trace, now := t.now, env := t.env }
  events : ∃ evs, t.trace = s.trace ++ evs ∧ ∀ ev ∈ evs, PollEvent fld ev
  time : s.now ≤ t.now

theorem pollEffect_trans {fld : RegisterField} {s t u : State} (h : PollEffect fld s t) (h' : PollEffect fld t u) :
    PollEffect fld s u where
  frame := by rw [h'.frame, h.frame]
  events := by
    obtain ⟨e1, h1, k1⟩ := h.events
    obtain ⟨e2, h2, k2⟩ := h'.events
    refine ⟨e1 ++ e2, by rw [h2, h1, List.append_assoc], fun ev hev => ?_⟩
    rcases List.mem_append.1 hev with hm | hm
    · exact k1 ev hm
    · exact k2 ev hm
  time := Nat.le_trans h.time h'.time

theorem pollEffect_afterRead (fld : RegisterField) (s : State) : PollEffect fld s (afterRead fld s) where
  frame := rfl
  events := ⟨[.rd fld.offset (busRead fld.offset s).1], rfl, by simp [PollEvent]⟩
  time := Nat.le_refl _

theorem pollEffect_readNow (fld : RegisterField) (s : State) : PollEffect fld s (readNow s).2 where
  frame := rfl
  events := ⟨[], (List.append_nil _).symm, by simp⟩
  time := Nat.le_add_right _ _

theorem pollEffect_afterRound (fld : RegisterField) (s : State) : PollEffect fld s (afterRound fld s) := by
  refine pollEffect_trans (pollEffect_trans (pollEffect_afterRead fld s) (pollEffect_readNow fld _)) ?_
  exact
    { frame := rfl
      events := ⟨[.delay .pollInterval s.cfg.pollIntervalUs], rfl, by simp [PollEvent]⟩
      time := Nat.le_add_right _ _ }

/-- What the loop can do: run out of its bound; end with the read that matched; raise RegisterError or its timeout
error. -/
theorem pollLoop_cases (fld : RegisterField) (c : TimeoutCode) (n : Nat) (s : State) :
    pollLoop fld c n s = .fault .pollBoundExceeded ∨
    (∃ t w evs, pollLoop fld c n s = .done t ∧ PollEffect fld s t ∧ fieldMatches fld w = true ∧
      t.trace = s.trace ++ evs ++ [.rd fld.offset (.word w)] ∧ ∀ ev ∈ evs, PollEvent fld ev) ∨
    (∃ t e, pollLoop fld c n s = .raised e t ∧ PollEffect fld s t ∧ (e = .registerError ∨ e = timeoutError c)) := by
  induction n generalizing s with
  | zero => exact .inl rfl
  | succ n ih =>
    rcases pollLoop_succ fld c n s with ⟨-, h⟩ | ⟨w, hw, ⟨hm, h⟩ | ⟨-, -, h⟩ | ⟨-, -, h⟩⟩
    · exact .inr (.inr ⟨_, _, h, pollEffect_afterRead fld s, .inl rfl⟩)
    · refine .inr (.inl ⟨_, w, [], h, pollEffect_afterRead fld s, hm, ?_, by simp⟩)
      rw [← hw, List.append_nil]
      rfl
    · exact .inr (.inr ⟨_, _, h, pollEffect_trans (pollEffect_afterRead fld s) (pollEffect_readNow fld _), .inr rfl⟩)
    · rw [h]
      have hr := pollEffect_afterRound fld s
      rcases ih (afterRound fld s) with h' | ⟨t, w, evs, h', he, hm, ht, hev⟩ | ⟨t, e, h', he, hx⟩
      · exact .inl h'
      · obtain ⟨e1, h1, k1⟩ := hr.events
        refine .inr (.inl ⟨t, w, e1 ++ evs, h', pollEffect_trans hr he, hm, ?_, fun ev hev' => ?_⟩)
        · rw [ht, h1]
          simp
        · rcases List.mem_append.1 hev' with hmem | hmem
          · exact k1 ev hmem
          · exact hev ev hmem
      · exact .inr (.inr ⟨t, e, h', pollEffect_trans hr he, hx⟩)

/-- The loop does not run out of its bound when the delays so far, and those to come, exceed the timeout (R126). -/
theorem pollLoop_ne_fault (fld : RegisterField) (c : TimeoutCode) (n k : Nat) (s : State)
    (ht : s.pollT0 + k * s.cfg.pollIntervalUs ≤ s.now)
    (hn : s.cfg.pollTimeoutUs < (k + n) * s.cfg.pollIntervalUs) (r : Fault) :
    pollLoop fld c (n + 1) s ≠ .fault r := by
  induction n generalizing k s with
  | zero =>
    rcases pollLoop_succ fld c 0 s with ⟨-, h⟩ | ⟨w, -, ⟨-, h⟩ | ⟨-, -, h⟩ | ⟨-, hle, -⟩⟩
    · simp [h]
    · simp [h]
    · simp [h]
    · simp [afterRead] at hle
      simp at hn
      omega
  | succ n ih =>
    rcases pollLoop_succ fld c (n + 1) s with ⟨-, h⟩ | ⟨w, -, ⟨-, h⟩ | ⟨-, -, h⟩ | ⟨-, -, h⟩⟩
    · simp [h]
    · simp [h]
    · simp [h]
    · rw [h]
      refine ih (k + 1) (afterRound fld s) ?_ ?_
      · simp [afterRound, afterRead, Nat.add_mul]
        omega
      · simpa [afterRound, afterRead, Nat.add_assoc, Nat.add_comm, Nat.add_left_comm] using hn

end Sys2Proof.Machine
end

