-- ==== Sys2Proof/Laws/Step.lean ====
section
/-!
SUPPORT. What a step can do: inversion of the step and of the fetch, and which format an instruction comes from.
-/

namespace Sys2Proof.Machine

/-- What a next state of the step comes from: a micro-operation of the image, nothing, or a host command. -/
theorem step_cases {s t : State} (h : step s = .next t) :
    (s.busy = true ∧ ∃ w i, (selectImage s.rom s.romsel)[s.upc.toNat]? = some w ∧ decodeUop w = some i ∧
      exec i s = .next t) ∨
    (s.busy = false ∧ s.hostCmds = [] ∧ t = s) ∨
    (s.busy = false ∧ ∃ w rest i, s.hostCmds = w :: rest ∧ decodeCmd w = some i ∧
      exec i { s with hostCmds := rest } = .next t) := by
  unfold step fetch at h
  cases hb : s.busy with
  | true =>
    simp only [hb, if_true, fetchMicroOp, fetchUop] at h
    cases hw : (selectImage s.rom s.romsel)[s.upc.toNat]? with
    | none => simp [hw] at h
    | some w =>
      cases hi : decodeUop w with
      | none => simp [hw, hi] at h
      | some i => exact .inl ⟨rfl, w, i, rfl, hi, by simpa [hw, hi] using h⟩
  | false =>
    simp only [hb, Bool.false_eq_true, if_false, fetchHostCommand, fetchCommand] at h
    cases hc : s.hostCmds with
    | nil => exact .inr (.inl ⟨rfl, rfl, by simpa [hc] using h.symm⟩)
    | cons w rest =>
      cases hi : decodeCmd w with
      | none => simp [hc, hi] at h
      | some i => exact .inr (.inr ⟨rfl, w, rest, i, rfl, hi, by simpa [hc, hi] using h⟩)

/-- A command word decodes to a host command. -/
theorem isCommand_of_decodeCmd {w : CmdWord} {i : Instr} (h : decodeCmd w = some i) : i.isCommand = true := by
  simp only [decodeCmd] at h
  repeat' split at h
  all_goals cases h
  all_goals rfl

/-- A micro-operation word decodes to a micro-operation. -/
theorem isCommand_of_decodeUop {w : UopWord} {i : Instr} (h : decodeUop w = some i) : i.isCommand = false := by
  simp only [decodeUop, fieldOperand] at h
  repeat' split at h
  all_goals first
    | (obtain ⟨_, _, rfl⟩ := Option.map_eq_some_iff.1 h; rfl)
    | (cases h; rfl)
    | cases h

end Sys2Proof.Machine
end

