-- ==== Sys2Proof/Tests/Slice0.lean ====
section
/-!
SUPPORT. Tests of the model, and a witness for the hypotheses of every statement that has some. The expected values
are those of spec/95_test_vectors.md (V-…), worked out there from the rules, and of the examples beside the
rules cited.
-/

namespace Sys2Proof.Tests

open Sys2Proof Sys2Proof.Machine

/-! ### Helpers -/

/-- The outcome is a next state with this property. -/
def nextHas (o : Result) (p : State → Bool) : Bool :=
  match o with
  | .next t => p t
  | .fault _ => false
  | .refused _ => false

/-- The outcome is this fault. -/
def isFault (o : Result) (r : Fault) : Bool :=
  match o with
  | .fault q => q == r
  | .next _ => false
  | .refused _ => false

/-- The outcome is this refusal. -/
def isRefused (o : Result) (r : Refusal) : Bool :=
  match o with
  | .refused q => q == r
  | .next _ => false
  | .fault _ => false

/-- An environment that gives these answers. -/
def answers (writes : List WriteAnswer) (reads : List ReadAnswer) (clocks : List Bool) (elapsed : List Nat) : Draws :=
  { writes := writes, reads := reads, clocks := clocks, elapsed := elapsed, tick := 0 }

/-- The board after reset, with a type. -/
def typed (p : ProtoType) : State := { State.reset with protoType := p }

/-- A USB3 instance that runs an image. -/
def running (env : Draws) : State := { typed .usb3 with busy := true, romsel := .usb3, env := env }

/-- A parameter set with a variant and a reference clock rate. -/
def onBoard (v : VariantConfig) (rateHz : BitVec 32) (s : State) : State := { s with cfg := defaultParams v rateHz }

/-- Registers of 64 bits at offsets of 16 bits. -/
def wide : Widths := { regBits := 64, half := 32, addrBits := 16 }

/-- A state with other widths, and one field, at the top data bit of its register. -/
def onWidths (n : Widths) (s : State) : State :=
  { s with cfg := { s.cfg with
      widths := n, variant := { variantVX with fields := [(0x01#8, vxField 8 (n.half - 1) (n.half - 1) 1)] } } }

/-- The low half of a register. -/
def low (s : State) (a : Nat) : Nat := dataHalf s.cfg.widths (readReg s.cfg.widths s.regs a)

/-! ### Well-formedness -/

/-- R84: the identifiers `0x00` and `0x12` to `0x1F` are reserved. -/
theorem test_wf_refuses_reserved_field :
    (Instr.wrf 0x00#8 true).wf = false ∧ (Instr.wrf 0x12#8 true).wf = false ∧
    (Instr.wrf 0x1F#8 false).wf = false ∧ (Instr.poll 0x00#8 .pllLock).wf = false ∧
    (Instr.poll 0x15#8 .laneReady).wf = false := by decide

theorem test_wf_admits_other_fields :
    (Instr.wrf 0x01#8 true).wf = true ∧ (Instr.wrf 0x11#8 true).wf = true ∧ (Instr.wrf 0x20#8 true).wf = true ∧
    (Instr.poll 0xFF#8 .pllLock).wf = true := by decide

/-- R143 to R147: VX and VX0 pass; each change breaks the check it names. -/
theorem test_variant_checks :
    variantWf {} variantVX = true ∧ variantWf {} variantVX0 = true ∧
    checkWF1 {} { variantVX with fields := (0x20#8, vxField 0 5 4 1) :: vxFields } = false ∧
    checkWF2 { variantVX with fields := (0x20#8, vxField 0 4 5 4) :: vxFields } = false ∧
    checkWF3 {} { variantVX with fields := (0x01#8, vxField 0 16 16 1) :: vxFields } = false ∧
    checkWF4 {} { variantVX with fields := (0x20#8, vxField 2 4 5 1) :: vxFields } = false ∧
    checkWF5 { variantVX with cmplHook := false } = false ∧
    checkWF6 { variantVX with tuneHook := some { vxTuneHook with pcie := [.write { field := 0x30#8, enabled := true }] } }
      = false ∧
    checkWF7 { variantVX with tuneHook := some { vxTuneHook with pcie := [] } } = false ∧
    checkWF8 { variantVX with tuneHook := some { vxTuneHook with
      pcie := [.rate [{ rateHz := 1#32, writes := [] }, { rateHz := 1#32, writes := [] }]] } } = false ∧
    checkWF9 { variantVX with fields := (0x01#8, vxField 0x10 0 3 1) :: vxFields } = false ∧
    checkWF10 { variantVX with tuneHook := some { vxTuneHook with
      pcie := [.write { field := 0x0E#8, enabled := true }] } } = false := by decide

/-- R8: the defaults fit together; a mask half that is no half, and a register of no whole bytes, do not. WF1, WF3 and
WF4 follow the widths: a field that ends at bit 63, a written one at bit 31, an offset past `2^ADDR_BITS`. -/
theorem test_widths :
    widthsWf {} = true ∧ widthsWf wide = true ∧ widthsWf { half := 8 } = false ∧
    widthsWf { regBits := 12, half := 6 } = false ∧ variantWf wide variantVX = false ∧
    (let v := { variantVX with fields := [(0x0E#8, vxField 0x10 63 63 1), (0x01#8, vxField 8 31 31 1)] }
     checkWF1 {} v = false ∧ checkWF3 {} v = false ∧ checkWF4 {} v = true ∧
     checkWF1 wide v = true ∧ checkWF3 wide v = true ∧ checkWF4 wide v = true) ∧
    checkWF4 {} { variantVX with fields := [(0x01#8, vxField 0x100000000 0 0 1)] } = false ∧
    checkWF4 wide { variantVX with fields := [(0x01#8, vxField 0x4 0 0 1)] } = false := by decide

/-! ### Decoding: words of spec/95_test_vectors.md 2.1 and of the encodings beside each instruction -/

theorem test_decode_assign_type :
    decodeCmd 0x00000021#32 = some (.assignType 0x02#8) ∧ decodeCmd 0x00000041#32 = some (.assignType 0x04#8) ∧
    decodeCmd 0x00000001#32 = some (.assignType 0x00#8) ∧ decodeCmd 0x00000FF1#32 = some (.assignType 0xFF#8) := by
  decide

theorem test_decode_commands :
    decodeCmd 0x00000002#32 = some .init ∧ decodeCmd 0x00000003#32 = some .exit ∧
    decodeCmd 0x00000004#32 = some .complianceTest := by decide

theorem test_decode_invalid_commands :
    decodeCmd 0x00000000#32 = none ∧ decodeCmd 0x00000005#32 = none ∧ decodeCmd 0x0000000F#32 = none ∧
    decodeCmd 0x00001002#32 = none ∧ decodeCmd 0xFFFFFFFF#32 = none ∧ decodeCmd 0x00000012#32 = none ∧
    decodeCmd 0x00001021#32 = none ∧ decodeCmd 0x80000021#32 = none := by decide

theorem test_decode_setst :
    decodeUop 0x1000#16 = some (.setst .idle) ∧ decodeUop 0x1001#16 = some (.setst .poweringOn) ∧
    decodeUop 0x1005#16 = some (.setst .ready) ∧ decodeUop 0x1006#16 = some (.setst .exiting) ∧
    decodeUop 0x1007#16 = none ∧ decodeUop 0x1008#16 = none := by decide

theorem test_decode_end : decodeUop 0x0000#16 = some .endOp ∧ decodeUop 0x0001#16 = none := by decide

theorem test_decode_rsta :
    decodeUop 0x2000#16 = some (.rsta .ctrl) ∧ decodeUop 0x2001#16 = some (.rsta .por) ∧
    decodeUop 0x2002#16 = some (.rsta .regbus) ∧ decodeUop 0x2003#16 = some (.rsta .datapath) ∧
    decodeUop 0x2004#16 = none := by decide

theorem test_decode_rstd :
    decodeUop 0x3000#16 = some (.rstd .ctrl) ∧ decodeUop 0x3001#16 = some (.rstd .por) ∧
    decodeUop 0x3003#16 = some (.rstd .datapath) ∧ decodeUop 0x3004#16 = none := by decide

theorem test_decode_clock :
    decodeUop 0x4000#16 = some .clken ∧ decodeUop 0x4001#16 = none ∧ decodeUop 0x5000#16 = some .clkdis ∧
    decodeUop 0x5800#16 = none := by decide

theorem test_decode_delay :
    decodeUop 0x6000#16 = some (.delay .settle) ∧ decodeUop 0x6001#16 = some (.delay .prelockPcie) ∧
    decodeUop 0x6002#16 = some (.delay .prelockUsb3) ∧ decodeUop 0x6003#16 = none := by decide

theorem test_decode_wrf :
    decodeUop 0x7101#16 = some (.wrf 0x01#8 true) ∧ decodeUop 0x7003#16 = some (.wrf 0x03#8 false) ∧
    decodeUop 0x7120#16 = some (.wrf 0x20#8 true) ∧ decodeUop 0x7210#16 = none ∧ decodeUop 0x7100#16 = none ∧
    decodeUop 0x7112#16 = none ∧ decodeUop 0x711F#16 = none := by decide

theorem test_decode_poll :
    decodeUop 0x850E#16 = some (.poll 0x0E#8 .pllLock) ∧ decodeUop 0x860F#16 = some (.poll 0x0F#8 .laneReady) ∧
    decodeUop 0x870E#16 = none ∧ decodeUop 0x840F#16 = none ∧ decodeUop 0x8500#16 = none := by decide

theorem test_decode_hook : decodeUop 0x9000#16 = some .hook ∧ decodeUop 0x9001#16 = none := by decide

theorem test_decode_reserved_uopc :
    decodeUop 0xA000#16 = none ∧ decodeUop 0xB000#16 = none ∧ decodeUop 0xC000#16 = none ∧
    decodeUop 0xD000#16 = none ∧ decodeUop 0xE000#16 = none ∧ decodeUop 0xF000#16 = none := by decide

theorem test_encode :
    encode (.assignType 0x04#8) = .cmd 0x00000041#32 ∧ encode (.poll 0x0F#8 .laneReady) = .uop 0x860F#16 ∧
    encode (.wrf 0x0D#8 true) = .uop 0x710D#16 ∧ encode (.delay .prelockUsb3) = .uop 0x6002#16 := by decide

/-- The first words of ROM_USB3 as the assembler writes them (R87, R89, R201). -/
theorem test_assemble :
    assemble "SETST" [.name "POWERING_ON"] = some [.setst .poweringOn] ∧
    assemble "SETTLE" [] = some [.delay .settle] ∧
    assemble "WRPAIR" [.name "RATE_SET", .name "RATE_SEL"] = some [.wrf 0x07#8 true, .wrf 0x08#8 true] ∧
    assemble "POLL" [.name "PLL_LOCK", .name "PLL_LOCK_TIMEOUT"] = some [.poll 0x0E#8 .pllLock] ∧
    assemble "WRF" [.hash 0x20, .digit 1] = some [.wrf 0x20#8 true] ∧
    assemble "WRF" [.hash 0x12, .digit 1] = none ∧ assemble "ASSIGN_TYPE" [.hash 5] = some [.assignType 0x05#8] := by
  decide

/-! ### Host commands (V-AT, V-IN, V-EX, V-CT) -/

theorem test_assign_type_first :
    nextHas (exec (.assignType 0x02#8) State.reset)
      (fun t => t.protoType == .pcie && t.result == .ok && t.trace == [.result .assignType .ok]) = true := by decide

theorem test_assign_type_errors :
    nextHas (exec (.assignType 0x04#8) (typed .pcie))
      (fun t => t.protoType == .pcie && t.result == .error .typeConflict) = true ∧
    nextHas (exec (.assignType 0x00#8) (typed .usb3))
      (fun t => t.protoType == .usb3 && t.result == .error .invalidType) = true := by decide

theorem test_init_without_type :
    nextHas (exec .init State.reset)
      (fun t => t == { State.reset with
        result := .error .invalidType, trace := [.result .init (.error .invalidType)] }) = true := by decide

theorem test_init_starts_image :
    nextHas (exec .init { typed .pcie with romsel := .usb3, upc := 7#6 })
      (fun t => t.busy && t.romsel == .pcie && t.upc == 0#6 && t.trace == []) = true ∧
    isRefused (exec .init { typed .pcie with seqState := .ready }) .initWhileReady = true := by decide

theorem test_exit_starts_image :
    nextHas (exec .exit State.reset) (fun t => t.busy && t.romsel == .exit && t.upc == 0#6) = true ∧
    isRefused (exec .exit { State.reset with busy := true }) .commandWhileBusy = true := by decide

theorem test_compliance_test :
    nextHas (exec .complianceTest (typed .pcie)) (fun t => t.result == .error .typeMismatch && !t.busy) = true ∧
    nextHas (exec .complianceTest (onBoard variantVX0 24000000#32 (typed .usb3)))
      (fun t => t.result == .ok && !t.busy && t.trace == [.result .complianceTest .ok]) = true ∧
    nextHas (exec .complianceTest (typed .usb3)) (fun t => t.busy && t.romsel == .cmpl && t.upc == 0#6) = true := by
  decide

/-! ### SETST and END (V-SEQ) -/

theorem test_setst :
    nextHas (exec (.setst .ready) (running (answers [] [] [] [])))
      (fun t => t.seqState == .ready && t.trace == [.state .ready] && t.upc == 1#6) = true ∧
    nextHas (exec (.setst .idle) (running (answers [] [] [] []))) (fun t => t.trace == [.state .idle]) = true := by
  decide

theorem test_end :
    nextHas (exec .endOp { running (answers [] [] [] []) with romsel := .exit, seqState := .idle, upc := 7#6 })
      (fun t => !t.busy && t.result == .ok && t.seqState == .idle && t.upc == 7#6
        && t.trace == [.result .exit .ok]) = true := by decide

/-! ### Reset lines, clock, delays (V-RC) -/

theorem test_rsta :
    nextHas (exec (.rsta .ctrl) State.reset)
      (fun t => t.rst == State.reset.rst && t.trace == [.rst .ctrl true] && t.upc == 1#6) = true ∧
    nextHas (exec (.rsta .ctrl) { State.reset with rst := { State.reset.rst with ctrl := none } })
      (fun t => t.rst.ctrl == none && t.trace == [] && t.upc == 1#6) = true := by decide

theorem test_rstd :
    nextHas (exec (.rstd .por) State.reset)
      (fun t => t.rst == { State.reset.rst with por := some false } && t.trace == [.rst .por false]) = true := by
  decide

theorem test_clken :
    nextHas (exec .clken (running (answers [] [] [true] [])))
      (fun t => t.clkEn && t.trace == [.clk true] && t.upc == 1#6) = true ∧
    nextHas (exec .clken (running (answers [] [] [false] [])))
      (fun t => !t.clkEn && !t.busy && t.seqState == .idle && t.result == .error .resourceUnavailable
        && t.trace == [.clkFail, .state .idle, .result .init (.error .resourceUnavailable)]) = true := by decide

theorem test_clkdis :
    nextHas (exec .clkdis { State.reset with clkEn := true })
      (fun t => !t.clkEn && t.trace == [.clk false] && t.upc == 1#6) = true := by decide

theorem test_delay :
    nextHas (exec (.delay .prelockPcie) State.reset)
      (fun t => t.trace == [.delay .prelockPcie 300] && t.now == 300 && t.upc == 1#6) = true ∧
    nextHas (exec (.delay .prelockUsb3) State.reset) (fun t => t.trace == [.delay .prelockUsb3 5]) = true := by decide

/-! ### WRF (V-WRF) -/

theorem test_wrf_sets_field :
    nextHas (exec (.wrf 0x03#8 true)
        { running (answers [.ok] [] [] []) with regs := [(0, 0xFF#8), (1, 0xFF#8), (2, 0x5A#8)] })
      (fun t => low t 0 == 0xFFEF && readByte t.regs 2 == 0x5A#8 && t.upc == 1#6
        && t.trace == [.wr 0 0x00180008 .ok]) = true ∧
    nextHas (exec (.wrf 0x0D#8 false) { running (answers [.ok] [] [] []) with regs := [(5, 0x80#8)] })
      (fun t => t.regs == [] && t.trace == [.wr 4 0x80000000 .ok]) = true := by decide

/-- The same write with registers of 64 bits: the mask stands in bits 63..32. -/
theorem test_wrf_wide :
    nextHas (exec (.wrf 0x01#8 true) (onWidths wide
        { running (answers [.ok] [] [] []) with regs := [(4, 0xFF#8), (8, 0xFF#8)] }))
      (fun t => t.trace == [.wr 8 0x8000000080000000 .ok] && t.regs == [(4, 0xFF#8), (8, 0xFF#8), (11, 0x80#8)])
      = true := by decide

theorem test_wrf_bus_error :
    nextHas (exec (.wrf 0x03#8 true) { running (answers [.busErr 0x0008] [] [] []) with regs := [(0, 0x07#8)] })
      (fun t => low t 0 == 0x000F && !t.busy && t.result == .error .registerError
        && t.trace == [.wr 0 0x00180008 .busErr, .state .idle, .result .init (.error .registerError)]) = true ∧
    isFault (exec (.wrf 0x11#8 true) State.reset) (.undefinedField 0x11#8) = true := by decide

/-! ### POLL (V-POLL) -/

theorem test_poll_success :
    nextHas (exec (.poll 0x0E#8 .pllLock)
        (running (answers [] [.word 0, .word 0xFFFFFFFE, .word 1] [] [0, 0, 0])))
      (fun t => t.busy && t.upc == 1#6 && t.now == 20 && t.trace ==
        [.rd 0x10 (.word 0), .delay .pollInterval 10, .rd 0x10 (.word 0xFFFFFFFE),
         .delay .pollInterval 10, .rd 0x10 (.word 1)]) = true ∧
    nextHas (exec (.poll 0x0F#8 .laneReady)
        (running (answers [] [.word 0xFFFFFFFE] [] [0])))
      (fun t => t.busy && t.trace == [.rd 0x10 (.word 0xFFFFFFFE)]) = true := by decide

theorem test_poll_errors :
    nextHas (exec (.poll 0x0E#8 .pllLock) (running (answers [] [.word 0, .word 0] [] [0, 0, 2000])))
      (fun t => !t.busy && t.result == .error .pllLockTimeout && t.upc == 0#6 && t.trace ==
        [.rd 0x10 (.word 0), .delay .pollInterval 10, .rd 0x10 (.word 0), .state .idle,
         .result .init (.error .pllLockTimeout)]) = true ∧
    nextHas (exec (.poll 0x0E#8 .pllLock) (running (answers [] [.busErr] [] [0])))
      (fun t => t.result == .error .registerError && t.trace ==
        [.rd 0x10 .busErr, .state .idle, .result .init (.error .registerError)]) = true := by decide

/-! ### HOOK (V-HOOK) -/

theorem test_hook_writes :
    nextHas (exec .hook (onBoard variantVX 25000000#32 (running (answers [.ok, .ok, .ok] [] [] []))))
      (fun t => low t 0x0C == 0x0AB0 && t.upc == 1#6 && t.trace ==
        [.wr 0x0C 0x0F000A00 .ok, .wr 0x0C 0x00100010 .ok, .wr 0x0C 0x00E000A0 .ok]) = true ∧
    nextHas (exec .hook (onBoard variantVX0 13000000#32 (running (answers [] [] [] []))))
      (fun t => t.trace == [] && t.upc == 1#6 && t.busy) = true := by decide

theorem test_hook_aborts :
    nextHas (exec .hook (onBoard variantVX 13000000#32 (running (answers [] [] [] []))))
      (fun t => t.regs == [] && t.trace == [.state .idle, .result .init (.error .unsupportedClockRate)]) = true ∧
    nextHas (exec .hook (running (answers [.busErr 0] [] [] [])))
      (fun t => t.regs == [] && t.trace == [.wr 0x0C 0x00100010 .busErr, .state .idle,
        .result .init (.error .registerError)]) = true := by decide

/-! ### STATUS and the step (V-ST) -/

theorem test_status :
    statusWord State.reset = 0x01FE0000#32 ∧
    statusWord { typed .usb3 with
      busy := true, seqState := .configuring, clkEn := true
      rst := { ctrl := some true, por := some false, regbus := some false, datapath := some true } }
      = 0x01F3004A#32 ∧
    resultWord (.error .typeConflict) = 0x00000002#32 := by decide

theorem test_step_runs_placed_word :
    nextHas (step (State.reset.withFetchWord 32 0x41)) (fun t => t.protoType == .usb3) = true ∧
    nextHas (step (State.reset.withFetchWord 16 0x3001)) (fun t => t.rst.por == some false) = true ∧
    isRefused (step (State.reset.withFetchWord 32 0x12)) .invalidCommand = true ∧
    isRefused (step (State.reset.withFetchWord 16 0x711F)) .invalidMicroOp = true := by decide

/-! ### Witnesses: for each statement with hypotheses, a state and operands that meet them all -/

/-- A legal state in the middle of ROM_PCIE: PLL lock is confirmed, and the next micro-operation deasserts the
data-path reset. -/
def midPcie : State :=
  { typed .pcie with
    busy := true, romsel := .pcie, upc := 12#6, seqState := .waitingLaneReady, clkEn := true
    rst := { ctrl := some true, por := some false, regbus := some false, datapath := some true }
    trace := [.state .poweringOn, .clk true, .rst .por false, .rst .regbus false, .rd 0x10 (.word 1),
      .state .waitingLaneReady]
    env := answers [] [.word 0x20000] [] [0] }

/-- A PHY that is up, with a command from the host. -/
def upUsb3 (w : CmdWord) : State :=
  { typed .usb3 with
    seqState := .ready, clkEn := true, hostCmds := [w]
    rst := { ctrl := some false, por := some false, regbus := none, datapath := some false } }

theorem midPcie_inv : midPcie.Inv := ⟨by decide, by decide, by decide, by decide⟩
theorem upUsb3_inv (w : CmdWord) : (upUsb3 w).Inv := ⟨rfl, (by decide : paramsWf defaultBoard = true), rfl, rfl⟩

theorem witness_DecodeOfEncode : (Instr.wrf 0x20#8 true).wf = true ∧ (Instr.poll 0xFF#8 .laneReady).wf = true := by
  decide

theorem witness_EncodeOfDecode :
    decode (.cmd 0x00000FF1#32) = some (.assignType 0xFF#8) ∧ decode (.uop 0x7120#16) = some (.wrf 0x20#8 true) := by
  decide

/-- One word for each clause, at the ends of its range. -/
theorem witness_ReservedCommandWordsRefused :
    decodeCmd 0x00001002#32 = none ∧ decodeCmd 0x00000FF0#32 = none ∧ decodeCmd 0x00000005#32 = none ∧
    decodeCmd 0x0000000F#32 = none ∧ decodeCmd 0x00000012#32 = none ∧ decodeCmd 0x00000FF4#32 = none ∧
    decodeCmd 0x00000FF1#32 = some (.assignType 0xFF#8) ∧
    (upUsb3 0x00000012#32).busy = false ∧ (upUsb3 0x00000012#32).hostCmds = [0x00000012#32] := by decide

/-- The words on both sides of each bound. -/
theorem witness_ReservedMicroOpWordsInvalid :
    decodeUop 0xA000#16 = none ∧ decodeUop 0x9001#16 = none ∧ decodeUop 0x1007#16 = none ∧
    decodeUop 0x1006#16 = some (.setst .exiting) ∧ decodeUop 0x2004#16 = none ∧ decodeUop 0x6003#16 = none ∧
    decodeUop 0x7301#16 = none ∧ decodeUop 0x7200#16 = none ∧ decodeUop 0x71FF#16 = some (.wrf 0xFF#8 true) ∧
    decodeUop 0x7011#16 = some (.wrf 0x11#8 false) ∧ decodeUop 0x7012#16 = none ∧ decodeUop 0x701F#16 = none ∧
    decodeUop 0x7020#16 = some (.wrf 0x20#8 false) ∧ decodeUop 0x8401#16 = none ∧ decodeUop 0x8701#16 = none := by
  decide

theorem witness_AssembledLinesAreWellFormed :
    assemble "WRF" [.hash 0x20, .digit 1] = some [.wrf 0x20#8 true] ∧
    argField (.name "RATE_SET") = some 0x07#8 ∧ argField (.hash 0xFF) = some 0xFF#8 := by decide

theorem witness_StepRunsFetchedInstruction :
    (running (answers [] [] [] [])).busy = true ∧ romUsb3[0]? = some 0x1001#16 ∧
    decodeUop 0x1001#16 = some (.setst .poweringOn) ∧
    (upUsb3 3#32).busy = false ∧ (upUsb3 3#32).hostCmds = [3#32] ∧ decodeCmd 3#32 = some .exit := by decide

theorem witness_IdleBlockWaits : State.reset.busy = false ∧ State.reset.hostCmds = [] := by decide

/-- An unsupported type; a first type; the same type again; another type. -/
theorem witness_AssignTypeResult :
    State.reset.busy = false ∧ (0x03#8 ≠ 0x02#8 ∧ 0x03#8 ≠ 0x04#8) ∧ State.reset.protoType = .unassigned ∧
    (typed .usb3).busy = false ∧ (typed .usb3).protoType = .usb3 ∧ (typed .pcie).protoType ≠ .usb3 ∧
    (typed .pcie).protoType ≠ .unassigned := by decide

theorem witness_InitPreconditions :
    State.reset.busy = false ∧ State.reset.protoType = .unassigned ∧
    (upUsb3 2#32).busy = false ∧ (upUsb3 2#32).protoType ≠ .unassigned ∧ (upUsb3 2#32).seqState = .ready ∧
    (typed .pcie).busy = false ∧ (typed .pcie).seqState ≠ .ready := by decide

/-- COMPLIANCE_TEST on a PHY that is up, its write answered OK or BUSERR. -/
def complianceOk : State := { upUsb3 4#32 with env := answers [.ok] [] [] [] }
def complianceErr : State := { upUsb3 4#32 with env := answers [.busErr 0x0008] [] [] [] }

/-- A wrong type; no hook; a hook, with the write answered OK and answered BUSERR. -/
theorem witness_ComplianceTestResult :
    ((typed .pcie).busy = false ∧ (typed .pcie).protoType ≠ .usb3) ∧
    (let s := onBoard variantVX0 24000000#32 (typed .usb3)
     s.busy = false ∧ s.protoType = .usb3 ∧ s.cfg.variant.cmplHook = false) ∧
    (complianceOk.Inv ∧ complianceOk.busy = false ∧ complianceOk.protoType = .usb3 ∧
      complianceOk.cfg.variant.cmplHook = true ∧ complianceOk.hostCmds = [0x00000004#32] ∧
      lookupField complianceOk.cfg.variant fieldRxNegpulse = some (vxField 0x0008 3 3 1) ∧
      (nextWrite complianceOk.env).1 = .ok) ∧
    (complianceErr.Inv ∧ complianceErr.busy = false ∧ complianceErr.protoType = .usb3 ∧
      complianceErr.cfg.variant.cmplHook = true ∧ complianceErr.hostCmds = [0x00000004#32] ∧
      lookupField complianceErr.cfg.variant fieldRxNegpulse = some (vxField 0x0008 3 3 1) ∧
      (nextWrite complianceErr.env).1 = .busErr 0x0008) :=
  ⟨by decide, by decide, ⟨⟨by decide, by decide, by decide, by decide⟩, by decide⟩,
    ⟨⟨by decide, by decide, by decide, by decide⟩, by decide⟩⟩

theorem witness_CommandsRefusedWhileBusy :
    Instr.isCommand .exit = true ∧ (running (answers [] [] [] [])).busy = true := by decide

theorem witness_RstaRstdResult :
    getLine (upUsb3 3#32).rst .regbus = none ∧ getLine (upUsb3 3#32).rst .datapath = some false ∧
    getLine State.reset.rst .ctrl = some true := by decide

theorem witness_ClkenResult :
    (nextClock (answers [] [] [true] [])).1 = true ∧ (nextClock (answers [] [] [false] [])).1 = false := by decide

/-- HOOKF_PLLDIV of VX, and a field that ends at the top data bit. -/
theorem witness_FieldMaskIsBitRange :
    (vxField 0x0C 8 11 0xA).bitStart ≤ (vxField 0x0C 8 11 0xA).bitEnd ∧
    (vxField 0x0C 8 11 0xA).bitEnd < Widths.half {} ∧
    fieldMask {} (vxField 0x0C 8 11 0xA) = 0x0F00 ∧ fieldMask {} (vxField 0x04 15 15 1) = 0x8000 := by decide

theorem witness_WriteWordHoldsMaskAndValue :
    (vxField 0x04 15 15 1).bitStart ≤ (vxField 0x04 15 15 1).bitEnd ∧ (vxField 0x04 15 15 1).bitEnd < Widths.half {} ∧
    1 < 2 ^ (15 - 15 + 1) ∧ writeWord {} (vxField 0 2 4 5) true = 0x001C0014 := by decide

theorem witness_MaskedWriteTakesSelectedBits :
    widthsWf {} = true ∧ memoryWf {} [(0, 0xFF#8), (3, 0x01#8)] = true ∧ registerAt {} 0xFFFFFFFC ∧ registerAt {} 0 ∧
    widthsWf wide = true ∧ memoryWf wide [(0, 0xFF#8), (7, 0x01#8)] = true ∧ registerAt wide 0xFFF8 := by decide

theorem witness_WriteTransactionAnswers :
    widthsWf (running (answers [] [] [] [])).cfg.widths = true ∧ registerAt {} 0xFFFFFFFC ∧
    (memoryWf {} (running (answers [.ok] [] [] [])).regs = true ∧
      (nextWrite (running (answers [.ok] [] [] [])).env).1 = .ok) ∧
    (memoryWf {} (running (answers [.busErr 0xFF00] [] [] [])).regs = true ∧
      (nextWrite (running (answers [.busErr 0xFF00] [] [] [])).env).1 = .busErr 0xFF00) := by decide

theorem witness_WrfIssuesOneTransaction :
    registerAt {} (vxField 0x04 15 15 1).offset ∧
    (let s := running (answers [.ok] [] [] [])
     lookupField s.cfg.variant 0x0D#8 = some (vxField 0x04 15 15 1) ∧ (nextWrite s.env).1 = .ok) ∧
    (let s := running (answers [.busErr 0] [] [] [])
     lookupField s.cfg.variant 0x0D#8 = some (vxField 0x04 15 15 1) ∧ (nextWrite s.env).1 = .busErr 0) := by
  decide

theorem witness_WrfAltersOnlyItsField :
    let s := running (answers [.ok] [] [] [])
    let fld := vxField 0x04 15 15 1
    lookupField s.cfg.variant 0x0D#8 = some fld ∧ registerAt s.cfg.widths fld.offset ∧ fld.bitStart ≤ fld.bitEnd ∧
    fld.bitEnd < s.cfg.widths.half ∧ widthsWf s.cfg.widths = true ∧ fld.enableValue < 2 ^ (fld.bitEnd - fld.bitStart + 1) ∧
    memoryWf s.cfg.widths s.regs = true ∧
    (nextWrite s.env).1 = .ok := by decide

/-- A field VX does not define; a field at an offset that is no multiple of 4; one past the register space. -/
theorem witness_FieldAccessStops :
    lookupField variantVX 0x11#8 = none ∧
    lookupField { variantVX with fields := [(0x01#8, vxField 0x2 0 0 1)] } 0x01#8 = some (vxField 0x2 0 0 1) ∧
    aligned {} (vxField 0x2 0 0 1).offset = false ∧
    lookupField { variantVX with fields := [(0x01#8, vxField 0x100000000 0 0 1)] } 0x01#8 =
      some (vxField 0x100000000 0 0 1) ∧
    aligned {} (vxField 0x100000000 0 0 1).offset = true ∧
    2 ^ Widths.addrBits {} ≤ (vxField 0x100000000 0 0 1).offset := by decide

/-- LANE_READY of VX, above the data half, and a field that ends at bit 31. -/
theorem witness_ExtractReadsFieldBits :
    (vxField 0x10 17 17 1).bitStart ≤ (vxField 0x10 17 17 1).bitEnd ∧
    extractField (vxField 0x10 17 17 1) 0x00020000 = 1 ∧ extractField (vxField 0x10 28 31 1) 0xA0000000 = 10 := by
  decide

/-- The hypotheses that the statements about the loop of POLL share, for PLL_LOCK of VX. -/
def PollReady (s : State) (fld : RegisterField) : Prop :=
  lookupField s.cfg.variant fieldPllLock = some fld ∧ registerAt s.cfg.widths fld.offset ∧ 0 < s.cfg.pollIntervalUs

theorem running_pollReady (env : Draws) : PollReady (running env) (vxField 0x10 0 0 1) :=
  ⟨rfl, ⟨(by decide : aligned {} 0x10 = true), Nat.le_of_ble_eq_true rfl⟩, Nat.le_of_ble_eq_true rfl⟩

theorem small (env : Draws) (ws : List Nat) (h : ws.all (· < 2 ^ 32) = true := by decide) :
    ∀ x ∈ ws, x < 2 ^ (running env).cfg.widths.regBits := fun x hx =>
  of_decide_eq_true (List.all_eq_true.1 h x hx)
theorem mismatches : ∀ x ∈ [0, 2], extractField (vxField 0x10 0 0 1) x ≠ 1 :=
  List.forall_mem_cons.2 ⟨by decide, List.forall_mem_cons.2 ⟨by decide, by simp⟩⟩
theorem mismatch : ∀ x ∈ [0], extractField (vxField 0x10 0 0 1) x ≠ 1 :=
  List.forall_mem_cons.2 ⟨by decide, by simp⟩

/-- V-POLL-2: two reads that do not match and one that does. -/
theorem witness_PollSucceedsAtFirstMatch :
    let s := running (answers [] [.word 0, .word 2, .word 1] [] [7, 0, 0])
    let fld := vxField 0x10 0 0 1
    let ws := [0, 2]
    PollReady s fld ∧ s.env.reads = ws.map ReadAnswer.word ++ .word 1 :: [] ∧
    (∀ x ∈ 1 :: ws, x < 2 ^ s.cfg.widths.regBits) ∧
    (∀ x ∈ ws, extractField fld x ≠ fld.enableValue) ∧ extractField fld 1 = fld.enableValue ∧
    s.env.elapsed = 7 :: ([0, 0] ++ []) ∧ [0, 0].length = ws.length ∧
    [0, 0].sum + (ws.length - 1) * s.cfg.pollIntervalUs ≤ s.cfg.pollTimeoutUs :=
  ⟨running_pollReady _, rfl, small _ _, mismatches, rfl, rfl, rfl, Nat.le_of_ble_eq_true rfl⟩

/-- V-POLL-5: the time source jumps, so that the second check finds the timeout exceeded. -/
theorem witness_PollTimesOutWithItsError :
    let s := running (answers [] [.word 0, .word 0] [] [0, 0, 2000])
    let fld := vxField 0x10 0 0 1
    let ws := [0]
    PollReady s fld ∧ s.env.reads = ws.map ReadAnswer.word ++ .word 0 :: [] ∧
    (∀ x ∈ 0 :: ws, x < 2 ^ s.cfg.widths.regBits) ∧
    (∀ x ∈ ws, extractField fld x ≠ fld.enableValue) ∧ extractField fld 0 ≠ fld.enableValue ∧
    s.env.elapsed = 0 :: ([0] ++ 2000 :: []) ∧ [0].length = ws.length ∧
    [0].sum + (ws.length - 1) * s.cfg.pollIntervalUs ≤ s.cfg.pollTimeoutUs ∧
    s.cfg.pollTimeoutUs < [0].sum + 2000 + ws.length * s.cfg.pollIntervalUs :=
  ⟨running_pollReady _, rfl, small _ _, mismatch, by decide, rfl, rfl, Nat.le_of_ble_eq_true rfl,
    Nat.le_of_ble_eq_true rfl⟩

/-- V-POLL-6, after one read that does not match. -/
theorem witness_PollAbortsOnReadError :
    let s := running (answers [] [.word 0, .busErr] [] [0, 0])
    let fld := vxField 0x10 0 0 1
    let ws := [0]
    PollReady s fld ∧ s.env.reads = ws.map ReadAnswer.word ++ .busErr :: [] ∧
    (∀ x ∈ ws, x < 2 ^ s.cfg.widths.regBits) ∧
    (∀ x ∈ ws, extractField fld x ≠ fld.enableValue) ∧ s.env.elapsed = 0 :: ([0] ++ []) ∧
    [0].length = ws.length ∧ [0].sum + (ws.length - 1) * s.cfg.pollIntervalUs ≤ s.cfg.pollTimeoutUs :=
  ⟨running_pollReady _, rfl, small _ _, mismatch, rfl, rfl, Nat.le_of_ble_eq_true rfl⟩

theorem witness_PollReadsAreBounded :
    defaultBoard.pollTimeoutUs = 1000 ∧ defaultBoard.pollIntervalUs = 10 ∧
    PollReady (running (answers [] [] [] [])) (vxField 0x10 0 0 1) :=
  ⟨rfl, rfl, running_pollReady _⟩

theorem witness_PollFrame :
    nextHas (exec (.poll 0x0E#8 .pllLock) (running (answers [] [.word 1] [] [0]))) (fun t => t.busy) = true ∧
    nextHas (exec (.poll 0x0E#8 .pllLock) (running (answers [] [.busErr] [] [0]))) (fun t => !t.busy) = true := by decide

/-- V-HOOK-7, without a hook; V-HOOK-2, three writes. -/
theorem witness_HookWritesItsPlan :
    (onBoard variantVX0 13000000#32 (running (answers [] [] [] []))).cfg.variant.tuneHook = none ∧
    (let s := onBoard variantVX 25000000#32 (running (answers [.ok, .ok, .ok] [] [] []))
     let ws : List HookWrite := [{ field := 0x20#8, enabled := true }, { field := 0x21#8, enabled := true },
        { field := 0x22#8, enabled := true }]
     variantWf s.cfg.widths s.cfg.variant = true ∧ s.cfg.variant.tuneHook = some vxTuneHook ∧
      hookPlan s.cfg.refclkRateHz (if s.protoType = .pcie then vxTuneHook.pcie else vxTuneHook.usb3) = some ws ∧
      s.env.writes = List.replicate ws.length .ok ++ []) := by decide

/-- V-HOOK-3: 13 MHz, with no write before the RATE step. -/
theorem witness_HookUnknownRateAborts :
    let s := onBoard variantVX 13000000#32 (running (answers [] [] [] []))
    let table : List RateEntry := [{ rateHz := 24000000#32, writes := [] },
      { rateHz := 25000000#32, writes := [{ field := 0x20#8, enabled := true }] }]
    variantWf s.cfg.widths s.cfg.variant = true ∧ s.cfg.variant.tuneHook = some vxTuneHook ∧
    (if s.protoType = .pcie then vxTuneHook.pcie else vxTuneHook.usb3) = [].map HookStep.write ++ .rate table ::
      [.write { field := 0x21#8, enabled := true }, .write { field := 0x22#8, enabled := true }] ∧
    (∀ r ∈ table, r.rateHz ≠ s.cfg.refclkRateHz) ∧ s.env.writes = List.replicate 0 .ok ++ [] := by decide

/-- A hook that writes before its RATE step, which knows 24 MHz only. -/
def writesFirst : VariantConfig :=
  { variantVX with tuneHook := some { vxTuneHook with
      usb3 := [.write { field := 0x21#8, enabled := true }, .rate [{ rateHz := 24000000#32, writes := [] }]] } }

/-- V-HOOK-8, the first write answered BUSERR; and one answered BUSERR before a RATE step that does not know the
rate. -/
theorem witness_HookBusErrorAborts :
    (let s := running (answers [.busErr 0x10] [] [] [])
     variantWf s.cfg.widths s.cfg.variant = true ∧ s.cfg.variant.tuneHook = some vxTuneHook ∧
     hookIssued s.cfg.refclkRateHz (if s.protoType = .pcie then vxTuneHook.pcie else vxTuneHook.usb3) =
       [] ++ { field := 0x21#8, enabled := true } :: [{ field := 0x22#8, enabled := true }] ∧
     lookupField s.cfg.variant 0x21#8 = some (vxField 0x0C 4 4 1) ∧
     s.env.writes = List.replicate 0 .ok ++ .busErr 0x10 :: []) ∧
    (let s := onBoard writesFirst 13000000#32 (running (answers [.busErr 0x10] [] [] []))
     variantWf s.cfg.widths s.cfg.variant = true ∧
     (∃ h, s.cfg.variant.tuneHook = some h ∧
       hookPlan s.cfg.refclkRateHz (if s.protoType = .pcie then h.pcie else h.usb3) = none ∧
       hookIssued s.cfg.refclkRateHz (if s.protoType = .pcie then h.pcie else h.usb3) =
         [] ++ { field := 0x21#8, enabled := true } :: []) ∧
     s.env.writes = List.replicate 0 .ok ++ .busErr 0x10 :: []) :=
  ⟨by decide, by decide, ⟨_, rfl, by decide⟩, by decide⟩

theorem witness_HookFrame :
    nextHas (exec .hook (running (answers [.ok, .ok] [] [] [])))
      (fun t => low t 0x0C == 0x00B0 && low t 0 == 0) = true := by decide

theorem witness_AbortRule :
    (typed .pcie).romsel = .pcie ∧ ({ typed .usb3 with romsel := .cmpl } : State).romsel = .cmpl ∧
    0x2000#16 ∈ romExit true ∧ decodeUop 0x2000#16 = some (.rsta .ctrl) ∧
    nextHas (exec (.rsta .ctrl) { typed .usb3 with romsel := .exit, busy := true }) (fun t => t.busy) = true := by decide

theorem witness_TypeIsAssignedOnce :
    nextHas (exec (.assignType 0x04#8) State.reset) (fun t => t.protoType != State.reset.protoType) = true := by decide

/-- Through SETST, and through an abort of a bring-up. -/
theorem witness_StateChangesOnlyBySetstOrAbort :
    nextHas (exec (.setst .exiting) State.reset) (fun t => t.seqState != .idle) = true ∧
    nextHas (exec .clken { midPcie with env := answers [] [] [false] [] })
      (fun t => t.seqState != midPcie.seqState) = true := by decide

theorem witness_LinesOnlyByRstaRstd :
    nextHas (exec (.rstd .datapath) midPcie) (fun t => getLine t.rst .datapath != getLine midPcie.rst .datapath) = true ∧
    (∀ l, l ∈ [ResetLine.ctrl, .por, .regbus, .datapath] →
      (getLine State.reset.rst l).isSome = (getLine midPcie.rst l).isSome) := by decide

theorem witness_ConfigurationIsFixed :
    nextHas (exec (.rstd .datapath) midPcie) (fun t => t.rst != midPcie.rst) = true := by decide

theorem witness_ClockAndRegistersOnlyByTheirWriters :
    nextHas (exec .clkdis midPcie) (fun t => t.clkEn != midPcie.clkEn) = true ∧
    nextHas (exec .clken (running (answers [] [] [true] []))) (fun t => t.clkEn) = true := by decide

/-- A command that ends at once; a micro-operation that ends none. -/
theorem witness_OneResultPerCommand :
    State.reset.busy = !(Instr.isCommand (.assignType 0x02#8)) ∧
    nextHas (exec (.assignType 0x02#8) State.reset) (fun t => !t.busy) = true ∧
    midPcie.busy = !(Instr.isCommand (.rstd .datapath)) ∧
    nextHas (exec (.rstd .datapath) midPcie) (fun t => t.busy) = true := by decide

theorem witness_TraceAndTimeOnlyGrow :
    nextHas (exec (.delay .settle) midPcie) (fun t => t.now == 5 && t.trace != midPcie.trace) = true := by decide

theorem witness_ConstructionRequirements :
    (match construct [(1, variantVX)] defaultBoard
        { chip := 1, refclk := some 100000000#32, regSpaceOwned := false
          linePresent := { ctrl := false, por := true, regbus := true, datapath := true } } defaultOpenValues with
      | .ok s => s.cfg.refclkRateHz == 100000000#32 && s.rst.ctrl == none
      | .error _ => false) = true := by decide

theorem witness_OpenValuesAreNotRead :
    Instr.isCommand .exit = true ∧
    nextHas (exec .exit { State.reset with romsel := .cmpl, upc := 63#6, pollN := 9 })
      (fun t => t.romsel == .exit && t.upc == 0#6) = true := by decide

/-- A written field in the register of a status field, with no bit of it. -/
theorem witness_WritesSpareStatusBits :
    let v := { variantVX with fields := (0x11#8, vxField 0x10 1 3 1) :: variantVX.fields }
    variantWf {} v = true ∧ isWrittenField v 0x11#8 = true ∧ lookupField v 0x11#8 = some (vxField 0x10 1 3 1) ∧
    lookupField v fieldPllLock = some (vxField 0x10 0 0 1) := by decide

/-- Construction on the default board, with the CTRL line absent. -/
theorem witness_ConstructedIsLegal :
    ∃ s, construct [(1, variantVX)] defaultBoard
        { chip := 1, refclk := some 24000000#32, regSpaceOwned := false
          linePresent := { ctrl := false, por := true, regbus := true, datapath := true } }
        { defaultOpenValues with regs := [(0, 0x5A#8)] } = .ok s ∧
      widthsWf defaultBoard.widths = true ∧ memoryWf defaultBoard.widths [(0, 0x5A#8)] = true ∧
      0 < defaultBoard.pollIntervalUs :=
  ⟨_, rfl, by decide, by decide, by decide⟩

theorem witness_StepKeepsLegal : midPcie.Inv ∧ ∃ t, step midPcie = .next t :=
  ⟨midPcie_inv, _, rfl⟩

theorem midPcie_powered : midPcie.Powered where
  lines := by
    intro _ l level
    unfold lineIs
    cases l <;> cases level <;> decide
  clock := by decide
  readyType := by decide
  readyClock := by decide
  readyLines := by intro h; exact absurd h (by decide)
  readyCtrl := by intro h; exact absurd h (by decide)

theorem witness_StepKeepsPowered : midPcie.Inv ∧ midPcie.Powered ∧ ∃ t, step midPcie = .next t :=
  ⟨midPcie_inv, midPcie_powered, _, rfl⟩

/-- A legal state in the middle of ROM_USB3, which holds controller reset: a write comes next. -/
def midUsb3 : State :=
  { running (answers [.ok] [] [] []) with
    upc := 8#6, seqState := .configuring, clkEn := true
    rst := { ctrl := some true, por := some false, regbus := some false, datapath := some true }
    trace := [.state .poweringOn, .rst .ctrl true, .clk true, .rst .por false, .delay .settle 5, .rst .regbus false,
      .delay .settle 5, .state .configuring] }

/-- R287: before controller reset is asserted, or once it is deasserted, no write of an INIT of type USB3 is in order. -/
theorem test_trace_order :
    scanTrace variantVX true Scan.start [.state .poweringOn, .wr 0 0x00030003 .ok] = none ∧
    scanTrace variantVX true Scan.start [.state .poweringOn, .clk true] = none ∧
    scanTrace variantVX false Scan.start [.state .poweringOn, .rst .ctrl false] = none ∧
    scanTrace variantVX false Scan.start [.state .poweringOn, .rst .datapath false] = none ∧
    scanTrace variantVX true Scan.start [.wr 8 0x00080008 .ok, .rst .por true] = some Scan.start ∧
    holdsCtrl midUsb3 = true := by decide

theorem witness_StepKeepsTraceOrdered :
    (midPcie.Inv ∧ midPcie.OrderedTrace ∧ ∃ t, step midPcie = .next t) ∧
    midUsb3.Inv ∧ midUsb3.OrderedTrace ∧ ∃ t, step midUsb3 = .next t :=
  ⟨⟨midPcie_inv,
      ⟨{ inInit := true, ctrlHeld := false, pllLocked := true, laneReady := false }, by decide, by decide, by decide⟩,
      _, rfl⟩,
    ⟨by decide, by decide, by decide, by decide⟩,
    ⟨{ inInit := true, ctrlHeld := true, pllLocked := false, laneReady := false }, by decide, by decide, by decide⟩,
    _, rfl⟩

/-- A legal state, one with a word that is no command, and INIT in state Ready. -/
theorem witness_LegalStateNeverFaults :
    midPcie.Inv ∧ (upUsb3 0#32).Inv ∧ isRefused (step (upUsb3 0#32)) .invalidCommand = true ∧
    (upUsb3 2#32).Inv ∧ isRefused (step (upUsb3 2#32)) .initWhileReady = true :=
  ⟨midPcie_inv, upUsb3_inv _, by decide, upUsb3_inv _, by decide⟩

theorem witness_EveryImageEnds : midPcie.Inv ∧ midPcie.busy = true := ⟨midPcie_inv, rfl⟩

theorem witness_ExitTearsDown :
    (upUsb3 3#32).rom = fixedImages (upUsb3 3#32).cfg.exitAssertsCtrl ∧ (upUsb3 3#32).busy = false ∧
    (upUsb3 3#32).hostCmds = [0x00000003#32] ∧ (getLine (upUsb3 3#32).rst .regbus).isSome = false := by decide

/-- V-IN-3. -/
def pcieStart : State :=
  onBoard variantVX0 24000000#32 { typed .pcie with
    hostCmds := [0x00000002#32]
    env := answers [] [.word 0xFFFFFFFF, .word 0xFFFFFFFF] [true] [] }

theorem witness_PcieInitReachesReady :
    pcieStart.Inv ∧ pcieStart.busy = false ∧ pcieStart.seqState = .idle ∧ pcieStart.protoType = .pcie ∧
    pcieStart.cfg.variant.tuneHook = none ∧ pcieStart.hostCmds = [0x00000002#32] ∧ pcieStart.env.clocks = [true] ∧
    pcieStart.env.reads = [.word 0xFFFFFFFF, .word 0xFFFFFFFF] ∧
    0xFFFFFFFF < 2 ^ pcieStart.cfg.widths.regBits ∧
    lookupField pcieStart.cfg.variant fieldPllLock = some (vxField 0x10 0 0 1) ∧
    lookupField pcieStart.cfg.variant fieldLaneReady = some (vxField 0x10 17 17 1) ∧
    extractField (vxField 0x10 0 0 1) 0xFFFFFFFF = 1 ∧ extractField (vxField 0x10 17 17 1) 0xFFFFFFFF = 1 ∧
    pcieStart.rst.por ≠ none ∧ pcieStart.rst.regbus ≠ none ∧ pcieStart.rst.datapath ≠ none :=
  ⟨⟨by decide, by decide, by decide, by decide⟩, by decide⟩

end Sys2Proof.Tests
end

/-!
PROOFS. The STATUS view (spec/10_state.md R27): what a line shows in its level and its presence bit, one lemma per field
of the word, and the layout assembled from them. The word is a concatenation from bit 31 down to bit 0, so a field is
read by dropping the parts below it. The library's append lemmas ask for a width that is written as a sum: STATE, the
lowest part, is dropped by `refine`, because the type of the whole word says 32, and `-Nat.reduceAdd` leaves the widths
of the parts above it as sums while `simp` drops the rest.
-/

namespace Sys2Proof.Machine

/-- An absent line shows level 0, as a deasserted one does. -/
@[simp] theorem levelBit_getElem_zero (x : Option Bool) : (levelBit x)[0] = (x == some true) := by
  cases x with
  | none => rfl
  | some level => cases level <;> rfl

@[simp] theorem presentBit_getElem_zero (x : Option Bool) : (presentBit x)[0] = x.isSome := by
  simp [presentBit]

section fields

variable (s : State)

@[simp] theorem statusWord_state : (statusWord s).extractLsb' 0 3 = seqStateCode s.seqState :=
  BitVec.extractLsb'_append_eq_right

theorem statusWord_busy : (statusWord s).getLsbD 3 = s.busy := by
  refine BitVec.getLsbD_append.trans ?_
  simp [-Nat.reduceAdd, BitVec.getElem_append]

@[simp] theorem statusWord_type : (statusWord s).extractLsb' 4 8 = protoCode s.protoType := by
  refine (BitVec.extractLsb'_append_eq_of_le (by decide)).trans ?_
  simp [-Nat.reduceAdd, BitVec.extractLsb'_append_eq_of_le, BitVec.extractLsb'_append_eq_right]

@[simp] theorem statusWord_result : (statusWord s).extractLsb' 12 4 = resultCode s.result := by
  refine (BitVec.extractLsb'_append_eq_of_le (by decide)).trans ?_
  simp [-Nat.reduceAdd, BitVec.extractLsb'_append_eq_of_le, BitVec.extractLsb'_append_eq_right]

theorem statusWord_clkEn : (statusWord s).getLsbD 16 = s.clkEn := by
  refine BitVec.getLsbD_append.trans ?_
  simp [-Nat.reduceAdd, BitVec.getElem_append]

/-- The level bits stand in the order of the line codes, CTRL lowest. -/
theorem statusWord_level (l : ResetLine) :
    (statusWord s).getLsbD (17 + (lineCode l).toNat) = (getLine s.rst l == some true) := by
  refine BitVec.getLsbD_append.trans ?_
  cases l <;> simp [-Nat.reduceAdd, lineCode, getLine, BitVec.getElem_append]

/-- The presence bits stand in the same order above the level bits. -/
theorem statusWord_present (l : ResetLine) :
    (statusWord s).getLsbD (21 + (lineCode l).toNat) = (getLine s.rst l).isSome := by
  refine BitVec.getLsbD_append.trans ?_
  cases l <;> simp [-Nat.reduceAdd, lineCode, getLine, BitVec.getElem_append]

@[simp] theorem statusWord_upper_zero : (statusWord s).extractLsb' 25 7 = 0#7 := by
  refine (BitVec.extractLsb'_append_eq_of_le (by decide)).trans ?_
  simp [-Nat.reduceAdd, BitVec.extractLsb'_append_eq_of_le]

end fields

/-- Settles O44: the fields of the word, one by one. -/
theorem statusLayout : Obligations.StatusLayout := fun s =>
  ⟨statusWord_state s, statusWord_busy s, statusWord_type s, statusWord_result s, statusWord_clkEn s,
    statusWord_level s, statusWord_present s, statusWord_upper_zero s⟩

end Sys2Proof.Machine

/-!
PROOFS. The write transaction (spec/20_memory.md R52, R56): the two halves of a transaction word bit by bit, and the one
fact both answers share. The transaction takes the data bits of the selected bits that landed, whichever those are; the
answer only says which they are.
-/

namespace Sys2Proof.Machine

@[simp] theorem maskHalf_testBit (n : Widths) (w i : Nat) :
    (maskHalf n w).testBit i = (decide (i < n.half) && w.testBit (i + n.half)) := by
  rw [maskHalf, Nat.testBit_mod_two_pow, Nat.testBit_shiftRight, Nat.add_comm]

@[simp] theorem dataHalf_testBit (n : Widths) (w i : Nat) :
    (dataHalf n w).testBit i = (decide (i < n.half) && w.testBit i) :=
  Nat.testBit_mod_two_pow w n.half i

@[simp] theorem landedMask_ok_testBit (mask i : Nat) : (landedMask mask .ok).testBit i = mask.testBit i := rfl

@[simp] theorem landedMask_busErr_testBit (mask landed i : Nat) :
    (landedMask mask (.busErr landed)).testBit i = (mask.testBit i && landed.testBit i) :=
  Nat.testBit_and mask landed i

/-- Only a selected bit lands (R52, R56). -/
theorem testBit_of_landedMask {mask i : Nat} {ans : WriteAnswer} (h : (landedMask mask ans).testBit i = true) :
    mask.testBit i = true := by
  cases ans with
  | ok => exact h
  | busErr landed =>
    rw [landedMask_busErr_testBit, Bool.and_eq_true] at h
    exact h.1

/-- A masked write takes the selected bits from the data and keeps the others. -/
theorem readReg_maskedWrite_testBit {n : Widths} {a : Nat} (hn : widthsWf n = true) (ha : registerAt n a)
    {m : Memory} (hm : memoryWf n m = true) (mask data : Nat) {i : Nat} (hi : i < n.regBits) :
    (readReg n (maskedWrite n m a mask data) a).testBit i =
      if mask.testBit i then data.testBit i else (readReg n m a).testBit i := by
  rw [readReg_maskedWrite_same hn ha.1 ha.2 hm, Nat.testBit_mod_two_pow, maskedValue_testBit]
  simp [hi]

/-- A bit that landed is below `HALF`, where the data half and the word agree. -/
theorem readReg_busWrite_testBit {a w : Nat} {s : State} (hn : widthsWf s.cfg.widths = true)
    (hm : memoryWf s.cfg.widths s.regs = true) (ha : registerAt s.cfg.widths a) {i : Nat}
    (hi : i < s.cfg.widths.regBits) :
    (readReg s.cfg.widths (busWrite a w s).2.regs a).testBit i =
      if (landedMask (maskHalf s.cfg.widths w) (nextWrite s.env).1).testBit i then w.testBit i
      else (readReg s.cfg.widths s.regs a).testBit i := by
  rw [busWrite_regs, readReg_maskedWrite_testBit hn ha hm _ _ hi]
  split
  · next hlanded =>
    have hselected := testBit_of_landedMask hlanded
    rw [maskHalf_testBit, Bool.and_eq_true, decide_eq_true_eq] at hselected
    simp [hselected.1]
  · rfl

/-- Settles O22: the bits that landed, for each of the two answers. -/
theorem writeTransactionAnswers : Obligations.WriteTransactionAnswers := by
  intro a w s hn hm ha
  refine ⟨fun hok => ⟨?_, ?_, fun i hi => ?_⟩, fun landed herr => ⟨?_, ?_, fun i hi => ?_⟩⟩
  · rw [busWrite_fst, hok, writeResp]
  · rw [busWrite_trace, busWrite_fst, hok, writeResp]
  · rw [readReg_busWrite_testBit hn hm ha hi, hok, landedMask_ok_testBit, maskHalf_testBit]
  · rw [busWrite_fst, herr, writeResp]
  · rw [busWrite_trace, busWrite_fst, herr, writeResp]
  · rw [readReg_busWrite_testBit hn hm ha hi, herr, landedMask_busErr_testBit, maskHalf_testBit]

end Sys2Proof.Machine

/-!
PROOFS. The reserved command words (spec/30_encoding.md R83). The decoder reads the three parts of a command word as bit
vectors and R83 bounds them as numbers, so each part is first read as a number; the reserved forms are then the branches
of the decoder that answer nothing. A word of such a form stops at the fetch, before any instruction runs (R228).
`-Nat.div_eq_zero_iff` keeps bits 31..12 spelled as the quotient that the hypothesis on them speaks of.
-/

namespace Sys2Proof.Machine

section parts

variable (w : CmdWord)

/-- OP is bits 3..0. -/
theorem cmdOp_toNat : (w.extractLsb' 0 4).toNat = w.toNat % 16 := by
  simp

/-- TARG is bits 11..4. -/
theorem cmdTarg_eq_zero_iff : w.extractLsb' 4 8 = 0#8 ↔ w.toNat / 16 % 256 = 0 := by
  simp [BitVec.toNat_eq, Nat.shiftRight_eq_div_pow]

/-- Bits 31..12 are the whole rest of the word, so that no remainder is taken. -/
theorem cmdUpper_eq_zero_iff : w.extractLsb' 12 20 = 0#20 ↔ w.toNat / 4096 = 0 := by
  have hw := w.isLt
  simp only [BitVec.toNat_eq, BitVec.extractLsb'_toNat, BitVec.toNat_ofNat, Nat.shiftRight_eq_div_pow]
  omega

/-- The words without an instruction (R83), one alternative for each reserved form. -/
theorem decodeCmd_eq_none_iff :
    decodeCmd w = none ↔
      w.toNat / 4096 ≠ 0 ∨ w.toNat % 16 = 0 ∨ 5 ≤ w.toNat % 16 ∨
        (2 ≤ w.toNat % 16 ∧ w.toNat % 16 ≤ 4 ∧ w.toNat / 16 % 256 ≠ 0) := by
  simp only [decodeCmd, ne_eq, cmdOp_toNat, cmdTarg_eq_zero_iff, cmdUpper_eq_zero_iff]
  by_cases hupper : w.toNat / 4096 = 0
  · rw [if_neg (not_not.2 hupper)]
    split
    case h_1 hop | h_2 hop | h_3 hop | h_4 hop => simp [-Nat.div_eq_zero_iff, hupper, hop]
    case h_5 hne1 hne2 hne3 hne4 =>
      rw [imp_false] at hne1 hne2 hne3 hne4
      have hreserved : w.toNat % 16 = 0 ∨ 5 ≤ w.toNat % 16 := by omega
      exact iff_of_true rfl (.inr (hreserved.imp_right .inl))
  · simp [-Nat.div_eq_zero_iff, hupper]

end parts

/-- The fetch decodes the word at the head of the host's commands, and a word that decodes to nothing stops there. -/
theorem step_of_decodeCmd_eq_none {w : CmdWord} {rest : List CmdWord} {s : State} (hb : s.busy = false)
    (hc : s.hostCmds = w :: rest) (hw : decodeCmd w = none) : step s = .refused .invalidCommand := by
  simp [step, fetch, fetchHostCommand, fetchCommand, hb, hc, hw]

/-- Settles O3: the decoder's branches without an instruction, and the fetch of a word of such a branch. -/
theorem reservedCommandWordsRefused : Obligations.ReservedCommandWordsRefused := fun w =>
  ⟨decodeCmd_eq_none_iff w, fun hw _ _ hb hc => step_of_decodeCmd_eq_none hb hc hw⟩

end Sys2Proof.Machine

/-!
PROOFS. The result word (spec/30_encoding.md R75): the 4-bit code of the result, widened with zeros. What holds of the
code, its value and its bound, holds of the word.
-/

namespace Sys2Proof.Machine

/-- The codes end at 8, the last error of the taxonomy. -/
theorem resultCode_toNat_le (code : ResultCode) : (resultCode code).toNat ≤ 8 := by
  cases code with
  | ok => decide
  | error e => cases e <;> decide

@[simp] theorem resultWord_toNat (code : ResultCode) : (resultWord code).toNat = (resultCode code).toNat :=
  BitVec.toNat_setWidth_of_le (by decide)

theorem resultWord_upper_zero (code : ResultCode) : (resultWord code).extractLsb' 4 28 = 0#28 := by
  have hcode := (resultCode code).isLt
  simp only [BitVec.toNat_eq, BitVec.extractLsb'_toNat, BitVec.toNat_ofNat, Nat.shiftRight_eq_div_pow,
    resultWord_toNat]
  omega

/-- Settles O45: the nine words by value, and what every word keeps of its code. -/
theorem resultWordCodes : Obligations.ResultWordCodes :=
  ⟨rfl, rfl, rfl, rfl, rfl, rfl, rfl, rfl, rfl, fun code =>
    ⟨resultWord_upper_zero code, (resultWord_toNat code).trans_le (resultCode_toNat_le code)⟩⟩

end Sys2Proof.Machine

/-!
PROOFS. The Bitfield Register Port (spec/41_register_port.md R101 to R103): the mask and the data of a field bit by bit,
the write word made of them, and the frame of WRF. The masked write is a statement about bits of a register and R103 one
about bits and bytes, so a byte of a register is read as eight of its bits.
-/

namespace Sys2Proof.Machine

/-! ### The mask and the data of a field -/

@[simp] theorem ones_testBit (k i : Nat) : (ones k).testBit i = decide (i < k) :=
  Nat.testBit_two_pow_sub_one k i

/-- The mask is cut to the data half. -/
theorem fieldMask_testBit {f : RegisterField} (hf : f.bitStart ≤ f.bitEnd) (n : Widths) (i : Nat) :
    (fieldMask n f).testBit i = (decide (i < n.half) && (decide (f.bitStart ≤ i) && decide (i ≤ f.bitEnd))) := by
  have hrange : f.bitStart ≤ i → (i - f.bitStart < fieldWidth f ↔ i ≤ f.bitEnd) := by
    unfold fieldWidth
    omega
  rw [fieldMask, Nat.testBit_mod_two_pow, Nat.testBit_shiftLeft, ones_testBit]
  by_cases hi : f.bitStart ≤ i <;> simp [hi, hrange]

/-- The mask of a field within the data half loses no bit to the cut. -/
theorem fieldMask_eq_shiftLeft {n : Widths} {f : RegisterField} (hf : f.bitStart ≤ f.bitEnd)
    (hhalf : f.bitEnd < n.half) : fieldMask n f = ones (fieldWidth f) <<< f.bitStart := by
  have hlast : fieldWidth f + f.bitStart ≤ n.half := by
    unfold fieldWidth
    omega
  have hones : ones (fieldWidth f) < 2 ^ fieldWidth f := Nat.sub_one_lt (Nat.two_pow_pos _).ne'
  exact Nat.mod_eq_of_lt ((Nat.shiftLeft_lt hones).trans_le (Nat.pow_le_pow_right (by decide) hlast))

/-- Within the mask, the data is the value from `bitStart` on. -/
theorem fieldData_testBit (n : Widths) (f : RegisterField) (e : Bool) (i : Nat) :
    (fieldData n f e).testBit i =
      (decide (f.bitStart ≤ i) && (fieldValue f e).testBit (i - f.bitStart) && (fieldMask n f).testBit i) := by
  rw [fieldData, Nat.testBit_and, Nat.testBit_shiftLeft]

/-- A value that fits its field, and a field that fits the data half: masking the shifted value removes no bit. -/
theorem fieldData_eq_shiftLeft {n : Widths} {f : RegisterField} {e : Bool} (hf : f.bitStart ≤ f.bitEnd)
    (hhalf : f.bitEnd < n.half) (hv : fieldValue f e < 2 ^ fieldWidth f) :
    fieldData n f e = fieldValue f e <<< f.bitStart := by
  rw [fieldData, fieldMask_eq_shiftLeft hf hhalf, ← Nat.shiftLeft_and_distrib, ones,
    Nat.and_two_pow_sub_one_of_lt_two_pow hv]

/-- Settles O19: the mask within the data half, its bound, and its bits. -/
theorem fieldMaskIsBitRange : Obligations.FieldMaskIsBitRange := fun n f hf =>
  ⟨fieldMask_eq_shiftLeft hf, fieldMask_lt n f, fun i hi => by
    rw [fieldMask_testBit hf, decide_eq_true hi, Bool.true_and]⟩

/-! ### The write word -/

theorem writeWord_div (n : Widths) (f : RegisterField) (e : Bool) : writeWord n f e / 2 ^ n.half = fieldMask n f := by
  rw [writeWord_eq_add, Nat.mul_add_div (Nat.two_pow_pos _), Nat.div_eq_of_lt (fieldData_lt n f e), Nat.add_zero]

theorem writeWord_lt (n : Widths) (f : RegisterField) (e : Bool) : writeWord n f e < 2 ^ (2 * n.half) := by
  have hdiv : writeWord n f e / 2 ^ n.half < 2 ^ n.half := writeWord_div n f e ▸ fieldMask_lt n f
  rw [Nat.two_mul, Nat.pow_add]
  exact Nat.lt_mul_of_div_lt hdiv (Nat.two_pow_pos _)

/-- Settles O20: the two halves of the word, its bound, and the data of a value that fits. -/
theorem writeWordHoldsMaskAndValue : Obligations.WriteWordHoldsMaskAndValue := fun n f e =>
  ⟨writeWord_div n f e, dataHalf_writeWord n f e, fun hn => hn ▸ writeWord_lt n f e,
    fun hf hhalf hv => (dataHalf_writeWord n f e).trans (fieldData_eq_shiftLeft hf hhalf hv)⟩

/-! ### The frame of WRF -/

/-- A byte of a register is eight of its bits (R58). -/
theorem readByte_getLsbD {n : Widths} {a c : Nat} (hl : a ≤ c) (hr : c < a + regBytes n) (m : Memory) {j : Nat}
    (hj : j < 8) : (readByte m c).getLsbD j = (readReg n m a).testBit (8 * (c - a) + j) := by
  have hbyte : a + (8 * (c - a) + j) / 8 = c := by omega
  have hbit : (8 * (c - a) + j) % 8 = j := by omega
  have hin : 8 * (c - a) + j < 8 * regBytes n := by omega
  rw [readReg, readBytes_testBit, hbyte, hbit, decide_eq_true hin, Bool.true_and]

/-- A masked write leaves every byte above its mask, those of the same register too. -/
theorem readByte_maskedWrite_above_mask {n : Widths} {a : Nat} (hn : widthsWf n = true) (ha : registerAt n a)
    {m : Memory} (hm : memoryWf n m = true) {mask k : Nat} (hmask : mask < 2 ^ k) (data : Nat) {c : Nat}
    (hc : a + (k + 7) / 8 ≤ c) : readByte (maskedWrite n m a mask data) c = readByte m c := by
  by_cases hin : c < a + regBytes n
  · refine BitVec.eq_of_getLsbD_eq fun j hj => ?_
    have hreg : 8 * (c - a) + j < n.regBits := by
      rw [← regBits_eq hn]
      omega
    have habove : mask.testBit (8 * (c - a) + j) = false :=
      Nat.testBit_lt_two_pow (hmask.trans_le (Nat.pow_le_pow_right (by decide) (by omega)))
    rw [readByte_getLsbD (by omega) hin _ hj, readByte_getLsbD (by omega) hin _ hj,
      readReg_maskedWrite_testBit hn ha hm _ _ hreg, habove, if_neg Bool.false_ne_true]
  · exact readByte_maskedWrite_outside (.inr (Nat.not_lt.1 hin)) m mask data

/-- The masked write of a field puts its value in its bit range (R103). -/
theorem readReg_fieldWrite_testBit {n : Widths} {f : RegisterField} (hn : widthsWf n = true)
    (ha : registerAt n f.offset) (hf : f.bitStart ≤ f.bitEnd) (hhalf : f.bitEnd < n.half) {m : Memory}
    (hm : memoryWf n m = true) (e : Bool) {i : Nat} (hi : i < n.regBits) :
    (readReg n (maskedWrite n m f.offset (fieldMask n f) (fieldData n f e)) f.offset).testBit i =
      if decide (f.bitStart ≤ i) && decide (i ≤ f.bitEnd) then (fieldValue f e).testBit (i - f.bitStart)
      else (readReg n m f.offset).testBit i := by
  have hcut : (fieldMask n f).testBit i = (decide (f.bitStart ≤ i) && decide (i ≤ f.bitEnd)) := by
    rw [fieldMask_testBit hf]
    by_cases hlast : i ≤ f.bitEnd
    · rw [decide_eq_true (hlast.trans_lt hhalf), Bool.true_and]
    · simp [hlast]
  rw [readReg_maskedWrite_testBit hn ha hm _ _ hi, fieldData_testBit, hcut]
  split
  · next hin => rw [hin, (Bool.and_eq_true_iff.1 hin).1, Bool.true_and, Bool.and_true]
  · rfl

/-- WRF is the masked bitfield write, and the step of `UPC` or the abort that ends it (R100). -/
theorem exec_wrf (f : FieldId) (e : Bool) (s : State) : exec (.wrf f e) s = complete (writeField f e s) := rfl

/-- A masked bitfield write that is answered OK goes on after its one transaction. -/
theorem writeField_of_ok {f : FieldId} {fld : RegisterField} {s : State} (hl : lookupField s.cfg.variant f = some fld)
    (ha : registerAt s.cfg.widths fld.offset) (hok : (nextWrite s.env).1 = .ok) (e : Bool) :
    writeField f e s = .done (busWrite fld.offset (writeWord s.cfg.widths fld e) s).2 := by
  rw [writeField, withField_ok hl ha.1 ha.2]
  simp [busWrite, hok, writeResp]

/-- Settles O24: the one change to the register space is the masked write of the field, whose mask is below `HALF`. -/
theorem wrfAltersOnlyItsField : Obligations.WrfAltersOnlyItsField := by
  intro f e fld s hl ha hf hhalf hn _ hm hok
  have hregs : (advance (busWrite fld.offset (writeWord s.cfg.widths fld e) s).2).regs =
      maskedWrite s.cfg.widths s.regs fld.offset (fieldMask s.cfg.widths fld) (fieldData s.cfg.widths fld e) := by
    rw [advance_regs, busWrite_regs, hok, maskHalf_writeWord, dataHalf_writeWord, landedMask]
  refine ⟨_, by rw [exec_wrf, writeField_of_ok hl ha hok, complete_done], ?_⟩
  rw [hregs]
  refine ⟨fun i hi => readReg_fieldWrite_testBit hn ha hf hhalf hm e hi,
    fun b hb hne => readReg_maskedWrite_ne ha.1 hb.1 hne _ _ _, fun a hout => ?_⟩
  rcases hout with hbelow | habove
  · exact readByte_maskedWrite_outside (.inl hbelow) _ _ _
  · exact readByte_maskedWrite_above_mask hn ha hm (fieldMask_lt _ fld) _ habove

end Sys2Proof.Machine

/-!
PROOFS. The Status Poller (spec/42_status_poller.md R121, R125, R127, R128). The three statements about its loop share
all but its last round: reads that do not match, each followed by a time check in time and a wait. Those rounds are one
induction, over the words read; how a poll ends is then one equation of the loop.
-/

namespace Sys2Proof.Machine

/-! ### The extracted value -/

@[simp] theorem extractField_testBit (f : RegisterField) (r i : Nat) :
    (extractField f r).testBit i = (decide (i < fieldWidth f) && r.testBit (f.bitStart + i)) := by
  rw [extractField, Nat.testBit_and, Nat.testBit_shiftRight, ones_testBit, Bool.and_comm]

theorem extractField_lt (f : RegisterField) (r : Nat) : extractField f r < 2 ^ fieldWidth f :=
  Nat.and_lt_two_pow _ (Nat.sub_one_lt (Nat.two_pow_pos _).ne')

/-- Settles O26: the shift and the mask, the bound of the mask, and the bits. -/
theorem extractReadsFieldBits : Obligations.ExtractReadsFieldBits := fun f r _ =>
  ⟨rfl, extractField_lt f r, extractField_testBit f r⟩

/-! ### One round of the loop -/

theorem fieldMatches_eq_true_iff (f : RegisterField) (r : Nat) :
    fieldMatches f r = true ↔ extractField f r = f.enableValue := beq_iff_eq

theorem nextRead_of_cons {d : Draws} {a : ReadAnswer} {rest : List ReadAnswer} (h : d.reads = a :: rest) :
    nextRead d = (a, { d with reads := rest }) := by
  rw [nextRead, h]

theorem nextElapsed_of_cons {d : Draws} {e : Nat} {rest : List Nat} (h : d.elapsed = e :: rest) :
    nextElapsed d = (e, { d with elapsed := rest }) := by
  rw [nextElapsed, h]

theorem nextElapsed_reads (d : Draws) : (nextElapsed d).2.reads = d.reads := by
  unfold nextElapsed
  split <;> rfl

section round

variable {fld : RegisterField} {c : TimeoutCode} {s : State} {n w e : Nat} {rest : List ReadAnswer} {more : List Nat}

/-- A word as wide as the bus is read as it stands. -/
theorem busRead_fst_of_word (hr : s.env.reads = .word w :: rest) (hw : w < 2 ^ s.cfg.widths.regBits) (a : Nat) :
    (busRead a s).1 = .word w := by
  rw [busRead_fst, nextRead_of_cons hr, busAnswer, Nat.mod_eq_of_lt hw]

theorem busRead_fst_of_busErr (hr : s.env.reads = .busErr :: rest) (a : Nat) : (busRead a s).1 = .busErr := by
  rw [busRead_fst, nextRead_of_cons hr, busAnswer]

theorem afterRead_trace (fld : RegisterField) (s : State) :
    (afterRead fld s).trace = s.trace ++ [.rd fld.offset (busRead fld.offset s).1] := rfl

/-- The read takes one answer of the script, and leaves the elapsed times. -/
theorem afterRead_env {a : ReadAnswer} (hr : s.env.reads = a :: rest) (fld : RegisterField) :
    (afterRead fld s).env = { s.env with reads := rest } := congrArg Prod.snd (nextRead_of_cons hr)

/-- The time check after the read takes one elapsed time. -/
theorem nextElapsed_afterRead {a : ReadAnswer} (hr : s.env.reads = a :: rest) (he : s.env.elapsed = e :: more)
    (fld : RegisterField) :
    nextElapsed (afterRead fld s).env = (e, { s.env with reads := rest, elapsed := more }) := by
  rw [afterRead_env hr]
  exact nextElapsed_of_cons he

theorem readNow_afterRead {a : ReadAnswer} (hr : s.env.reads = a :: rest) (he : s.env.elapsed = e :: more)
    (fld : RegisterField) : (readNow (afterRead fld s)).1 = s.now + e := by
  rw [readNow_fst, nextElapsed_afterRead hr he]
  rfl

/-- A read answered BUSERR ends the loop (R125). -/
theorem pollLoop_of_busErr (h : (busRead fld.offset s).1 = .busErr) :
    pollLoop fld c (n + 1) s = .raised .registerError (afterRead fld s) := by
  rw [pollLoop, h]
  rfl

/-- A word that is read ends the loop when it matches (R128), or when the time check after it finds the timeout exceeded
(R127), and else the loop goes on after the wait. -/
theorem pollLoop_of_word (h : (busRead fld.offset s).1 = .word w) :
    pollLoop fld c (n + 1) s =
      if extractField fld w = fld.enableValue then .done (afterRead fld s)
      else if s.pollT0 + s.cfg.pollTimeoutUs < (readNow (afterRead fld s)).1 then
        .raised (timeoutError c) (readNow (afterRead fld s)).2
      else pollLoop fld c n (afterRound fld s) := by
  have hword : pollLoop fld c (n + 1) s =
      if fieldMatches fld w then .done (afterRead fld s)
      else if s.cfg.pollTimeoutUs < (readNow (afterRead fld s)).1 - s.pollT0 then
        .raised (timeoutError c) (readNow (afterRead fld s)).2
      else pollLoop fld c n (afterRound fld s) := by
    rw [pollLoop, h]
    rfl
  simp only [hword, fieldMatches_eq_true_iff, Nat.lt_sub_iff_add_lt']

end round

/-! ### The reads that do not match -/

theorem pollEffect_cfg {fld : RegisterField} {s t : State} (h : PollEffect fld s t) : t.cfg = s.cfg := by
  rw [h.frame]

theorem pollEffect_pollT0 {fld : RegisterField} {s t : State} (h : PollEffect fld s t) : t.pollT0 = s.pollT0 := by
  rw [h.frame]

/-- The script of the environment begins with the words `ws`, none of which matches, and the elapsed times `es`, with
which no time check after one of them finds the timeout exceeded. The last wait, which no check of theirs follows,
stands on both sides of `inTime`. -/
structure MismatchesAhead (fld : RegisterField) (ws es : List Nat) (rest : List ReadAnswer) (more : List Nat)
    (s : State) : Prop where
  reads : s.env.reads = ws.map .word ++ rest
  fits : ∀ x ∈ ws, x < 2 ^ s.cfg.widths.regBits
  mismatch : ∀ x ∈ ws, extractField fld x ≠ fld.enableValue
  elapsed : s.env.elapsed = es ++ more
  length : es.length = ws.length
  inTime : s.now + es.sum + ws.length * s.cfg.pollIntervalUs ≤
    s.pollT0 + s.cfg.pollTimeoutUs + s.cfg.pollIntervalUs

/-- What the rounds of those words have done once they are over. -/
structure MismatchesPast (fld : RegisterField) (ws es : List Nat) (rest : List ReadAnswer) (more : List Nat)
    (s u : State) : Prop where
  effect : PollEffect fld s u
  trace : u.trace = s.trace ++ pollRounds fld.offset s.cfg.pollIntervalUs ws
  reads : u.env.reads = rest
  elapsed : u.env.elapsed = more
  now : u.now = s.now + es.sum + ws.length * s.cfg.pollIntervalUs

section rounds

variable {fld : RegisterField} {c : TimeoutCode} {s u v : State} {w e n : Nat} {ws es ws' es' : List Nat}
  {rest rest' : List ReadAnswer} {more more' : List Nat}

theorem MismatchesPast.refl (fld : RegisterField) (s : State) :
    MismatchesPast fld [] [] s.env.reads s.env.elapsed s s where
  effect := ⟨rfl, ⟨[], (List.append_nil _).symm, by simp⟩, Nat.le_refl _⟩
  trace := (List.append_nil _).symm
  reads := rfl
  elapsed := rfl
  now := by simp

theorem MismatchesPast.trans (h : MismatchesPast fld ws es rest more s u)
    (h' : MismatchesPast fld ws' es' rest' more' u v) :
    MismatchesPast fld (ws ++ ws') (es ++ es') rest' more' s v where
  effect := pollEffect_trans h.effect h'.effect
  trace := by
    rw [h'.trace, h.trace, pollEffect_cfg h.effect, List.append_assoc]
    simp only [pollRounds, List.flatMap_append]
  reads := h'.reads
  elapsed := h'.elapsed
  now := by
    rw [h'.now, h.now, pollEffect_cfg h.effect, List.sum_append, List.length_append, Nat.add_mul]
    omega

/-- The word a script begins with is what the next read shows. -/
theorem MismatchesAhead.busRead_fst (h : MismatchesAhead fld (w :: ws) es rest more s) (a : Nat) :
    (busRead a s).1 = .word w :=
  busRead_fst_of_word h.reads (h.fits w List.mem_cons_self) a

/-- One round: its read, its time check and its wait. -/
theorem MismatchesAhead.past_afterRound (h : MismatchesAhead fld (w :: ws) (e :: es) rest more s) :
    MismatchesPast fld [w] [e] (ws.map .word ++ rest) (es ++ more) s (afterRound fld s) where
  effect := pollEffect_afterRound fld s
  trace := by
    have htrace : (afterRound fld s).trace =
        s.trace ++ [.rd fld.offset (busRead fld.offset s).1] ++ [.delay .pollInterval s.cfg.pollIntervalUs] := rfl
    rw [htrace, h.busRead_fst, List.append_assoc]
    rfl
  reads := congrArg (·.2.reads) (nextElapsed_afterRead h.reads h.elapsed fld)
  elapsed := congrArg (·.2.elapsed) (nextElapsed_afterRead h.reads h.elapsed fld)
  now := by
    have hnow : (afterRound fld s).now = (readNow (afterRead fld s)).1 + s.cfg.pollIntervalUs := rfl
    simp only [hnow, readNow_afterRead h.reads h.elapsed, List.sum_singleton, List.length_singleton, Nat.one_mul]

/-- After one round, the rest of the words is still ahead. -/
theorem MismatchesAhead.ahead_afterRound (h : MismatchesAhead fld (w :: ws) (e :: es) rest more s) :
    MismatchesAhead fld ws es rest more (afterRound fld s) := by
  have hround := h.past_afterRound
  refine ⟨hround.reads, fun x hx => h.fits x (List.mem_cons_of_mem w hx),
    fun x hx => h.mismatch x (List.mem_cons_of_mem w hx), hround.elapsed, Nat.succ.inj h.length, ?_⟩
  have htime := h.inTime
  rw [hround.now, pollEffect_pollT0 hround.effect, pollEffect_cfg hround.effect]
  simp only [List.sum_cons, List.length_cons, Nat.add_mul, List.sum_nil, List.length_nil] at htime ⊢
  omega

/-- The first round of a script that begins with a word that does not match is not the last one. -/
theorem MismatchesAhead.pollLoop_succ (h : MismatchesAhead fld (w :: ws) (e :: es) rest more s) :
    pollLoop fld c (n + 1) s = pollLoop fld c n (afterRound fld s) := by
  have hcheck : ¬ s.pollT0 + s.cfg.pollTimeoutUs < (readNow (afterRead fld s)).1 := by
    have htime := h.inTime
    rw [readNow_afterRead h.reads h.elapsed]
    simp only [List.sum_cons, List.length_cons, Nat.add_mul] at htime
    omega
  rw [pollLoop_of_word (h.busRead_fst _), if_neg (h.mismatch w List.mem_cons_self), if_neg hcheck]

/-- The loop runs through the words that do not match, one round each. -/
theorem MismatchesAhead.pollLoop_add (h : MismatchesAhead fld ws es rest more s) :
    ∃ u, pollLoop fld c (ws.length + n) s = pollLoop fld c n u ∧ MismatchesPast fld ws es rest more s u := by
  induction ws generalizing es s with
  | nil =>
    obtain rfl := List.eq_nil_of_length_eq_zero h.length
    obtain rfl : s.env.reads = rest := h.reads
    obtain rfl : s.env.elapsed = more := h.elapsed
    exact ⟨s, by simp, .refl fld s⟩
  | cons w ws ih =>
    obtain ⟨e, es, rfl⟩ := List.exists_cons_of_length_eq_add_one h.length
    obtain ⟨u, hloop, hpast⟩ := ih h.ahead_afterRound
    refine ⟨u, ?_, h.past_afterRound.trans hpast⟩
    rw [List.length_cons, Nat.add_right_comm, h.pollLoop_succ, hloop]

end rounds

/-! ### The whole poll -/

theorem exec_poll {f : FieldId} {fld : RegisterField} {s : State} (hl : lookupField s.cfg.variant f = some fld)
    (ha : registerAt s.cfg.widths fld.offset) (c : TimeoutCode) :
    exec (.poll f c) s = complete (onState leavePoll (pollLoop fld c (pollFuel s) (enterPoll s))) :=
  congrArg complete (withField_ok hl ha.1 ha.2 _)

section poll

variable {f : FieldId} {fld : RegisterField} {c : TimeoutCode} {s v : State} {e0 : Nat} {ws es more : List Nat}
  {a : ReadAnswer} {rest : List ReadAnswer}

/-- The script of the statements about the loop, from its start on (R123): the start takes the first elapsed time. -/
theorem mismatchesAhead_enterPoll (hreads : s.env.reads = ws.map .word ++ rest)
    (hfits : ∀ x ∈ ws, x < 2 ^ s.cfg.widths.regBits)
    (hmismatch : ∀ x ∈ ws, extractField fld x ≠ fld.enableValue)
    (helapsed : s.env.elapsed = e0 :: (es ++ more)) (hlength : es.length = ws.length)
    (htime : es.sum + (ws.length - 1) * s.cfg.pollIntervalUs ≤ s.cfg.pollTimeoutUs) :
    MismatchesAhead fld ws es rest more (enterPoll s) := by
  have henv : (enterPoll s).env = { s.env with elapsed := es ++ more } :=
    congrArg Prod.snd (nextElapsed_of_cons helapsed)
  refine ⟨by rw [henv, hreads], hfits, hmismatch, by rw [henv], hlength, ?_⟩
  have hwaits : ws.length * s.cfg.pollIntervalUs ≤
      (ws.length - 1) * s.cfg.pollIntervalUs + s.cfg.pollIntervalUs := by
    rw [← Nat.succ_mul]
    exact Nat.mul_le_mul_right _ (by omega)
  rw [enterPoll_now, enterPoll_pollT0, enterPoll_cfg]
  omega

/-- A poll whose script begins with words that do not match comes to the read of the answer after them, and has the
bound for that read left. -/
theorem exec_poll_past_mismatches (hl : lookupField s.cfg.variant f = some fld)
    (ha : registerAt s.cfg.widths fld.offset) (h : MismatchesAhead fld ws es (a :: rest) more (enterPoll s)) :
    ∃ n u, exec (.poll f c) s = complete (onState leavePoll (pollLoop fld c (n + 1) u)) ∧
      MismatchesPast fld ws es (a :: rest) more (enterPoll s) u := by
  have hfuel : pollFuel s = ws.length + (maxPollReads s.cfg + rest.length + 1) := by
    rw [pollFuel, ← nextElapsed_reads, ← enterPoll_env, h.reads, List.length_append, List.length_map,
      List.length_cons]
    omega
  obtain ⟨u, hloop, hpast⟩ := h.pollLoop_add (c := c) (n := maxPollReads s.cfg + rest.length + 1)
  exact ⟨_, u, by rw [exec_poll hl ha, hfuel, hloop], hpast⟩

/-- Leaving a poll after what its loop does: the trace, the time, the script and the poll's scratch state change. -/
theorem leavePoll_frame (h : PollEffect fld (enterPoll s) v) :
    leavePoll v = { s with
      trace := (leavePoll v).trace, pollT0 := (leavePoll v).pollT0, pollN := (leavePoll v).pollN,
      now := (leavePoll v).now, env := (leavePoll v).env } := by
  rw [h.frame]
  rfl

end poll

/-- Settles O27: the last round reads the word that matches. -/
theorem pollSucceedsAtFirstMatch : Obligations.PollSucceedsAtFirstMatch := by
  intro f c fld s ws w rest e0 es more hl ha _ hreads hfits hmismatch hmatch helapsed hlength htime
  obtain ⟨hw, hws⟩ := List.forall_mem_cons.1 hfits
  obtain ⟨n, u, hexec, hpast⟩ := exec_poll_past_mismatches (c := c) hl ha
    (mismatchesAhead_enterPoll hreads hws hmismatch helapsed hlength htime)
  have hcfg : u.cfg = s.cfg := (pollEffect_cfg hpast.effect).trans (enterPoll_cfg s)
  have hword : (busRead fld.offset u).1 = .word w := busRead_fst_of_word hpast.reads (hcfg ▸ hw) _
  have hframe := leavePoll_frame (pollEffect_trans hpast.effect (pollEffect_afterRead fld u))
  refine ⟨advance (leavePoll (afterRead fld u)), ?_, ?_, ?_, ?_⟩
  · rw [hexec, pollLoop_of_word hword, if_pos hmatch, onState_done, complete_done]
  · rw [hframe]
    rfl
  · rw [advance_trace, leavePoll_trace, afterRead_trace, hword, hpast.trace]
    rfl
  · rw [hframe]
    rfl

/-- Settles O28: the last round reads a word that does not match, and its time check ends the poll. -/
theorem pollTimesOutWithItsError : Obligations.PollTimesOutWithItsError := by
  refine ⟨rfl, rfl, ?_⟩
  intro f c fld s ws w rest e0 e es more hl ha _ hreads hfits hmismatch hlast helapsed hlength htime hexceeded
  obtain ⟨hw, hws⟩ := List.forall_mem_cons.1 hfits
  obtain ⟨n, u, hexec, hpast⟩ := exec_poll_past_mismatches (c := c) hl ha
    (mismatchesAhead_enterPoll hreads hws hmismatch helapsed hlength htime)
  have hcfg : u.cfg = s.cfg := (pollEffect_cfg hpast.effect).trans (enterPoll_cfg s)
  have hT0 : u.pollT0 = (enterPoll s).now := pollEffect_pollT0 hpast.effect
  have hword : (busRead fld.offset u).1 = .word w := busRead_fst_of_word hpast.reads (hcfg ▸ hw) _
  have hcheck : u.pollT0 + u.cfg.pollTimeoutUs < (readNow (afterRead fld u)).1 := by
    rw [readNow_afterRead hpast.reads hpast.elapsed, hpast.now, hT0, hcfg, enterPoll_cfg]
    omega
  refine ⟨leavePoll (readNow (afterRead fld u)).2, ?_, ?_, leavePoll_frame (pollEffect_trans hpast.effect
    (pollEffect_trans (pollEffect_afterRead fld u) (pollEffect_readNow fld _)))⟩
  · rw [hexec, pollLoop_of_word hword, if_neg hlast, if_pos hcheck, onState_raised, complete_raised]
  · rw [leavePoll_trace, readNow_trace, afterRead_trace, hword, hpast.trace]
    rfl

/-- Settles O29: the last round is a read answered BUSERR. -/
theorem pollAbortsOnReadError : Obligations.PollAbortsOnReadError := by
  intro f c fld s ws rest e0 es more hl ha _ hreads hfits hmismatch helapsed hlength htime
  obtain ⟨n, u, hexec, hpast⟩ := exec_poll_past_mismatches (c := c) hl ha
    (mismatchesAhead_enterPoll hreads hfits hmismatch helapsed hlength htime)
  have hbusErr : (busRead fld.offset u).1 = .busErr := busRead_fst_of_busErr hpast.reads _
  refine ⟨leavePoll (afterRead fld u), ?_, ?_,
    leavePoll_frame (pollEffect_trans hpast.effect (pollEffect_afterRead fld u))⟩
  · rw [hexec, pollLoop_of_busErr hbusErr, onState_raised, complete_raised]
  · rw [leavePoll_trace, afterRead_trace, hbusErr, hpast.trace]
    rfl

end Sys2Proof.Machine

/-!
PROOFS. The Reset/Clock Resource Set (spec/44_reset_clock.md R171 to R177): the words of its micro-operations, and what
each of them answers, in the terms of the statements.
-/

namespace Sys2Proof.Machine

/-! ### Words -/

/-- A word whose only operand is two bits at its low end (R77, R81, R82) is the micro-opcode or-ed with the operand. -/
theorem uopWord_twoBit_operand (op : BitVec 4) (x : BitVec 2) :
    uopWord op (0#10 ++ x) = (op ++ 0#12) ||| x.setWidth 16 := by
  have hoperand : (0#10 ++ x : BitVec 12) = x.setWidth 12 := (BitVec.setWidth_eq_append (by decide)).symm
  rw [uopWord, hoperand]
  ext i hi
  simp only [BitVec.getElem_append, BitVec.getElem_or, BitVec.getElem_setWidth]
  split
  · simp
  · next hhigh => simp [BitVec.getLsbD_of_ge x i (by omega)]

/-! ### Reset lines -/

section lines

variable {l : ResetLine} {s : State}

theorem exec_rsta (l : ResetLine) (s : State) : exec (.rsta l) s = .next (advance (driveLine l true s)) := rfl
theorem exec_rstd (l : ResetLine) (s : State) : exec (.rstd l) s = .next (advance (driveLine l false s)) := rfl

theorem driveLine_of_absent (h : getLine s.rst l = none) (b : Bool) : driveLine l b s = s := by
  rw [driveLine, h]

/-- A present line is driven whatever its level was. -/
theorem driveLine_of_present {level : Bool} (h : getLine s.rst l = some level) (b : Bool) :
    driveLine l b s = emit (.rst l b) { s with rst := setLine s.rst l (some b) } := by
  rw [driveLine, h]

/-- Driving a present line, in the form of R171 and R172. -/
theorem advance_driveLine_of_present {level : Bool} (h : getLine s.rst l = some level) (b : Bool) :
    ∃ p : PerLine (Option Bool), getLine p l = some b ∧ (∀ k, k ≠ l → getLine p k = getLine s.rst k) ∧
      advance (driveLine l b s) = { s with rst := p, trace := s.trace ++ [.rst l b], upc := s.upc + 1#6 } := by
  refine ⟨setLine s.rst l (some b), getLine_setLine_same .., fun k hk => getLine_setLine_ne _ hk _, ?_⟩
  rw [driveLine_of_present h]
  rfl

end lines

/-- Settles O15: the words, an absent line, and a present line at either level. -/
theorem rstaRstdResult : Obligations.RstaRstdResult := by
  intro l s
  refine ⟨congrArg CodeWord.uop (uopWord_twoBit_operand _ _), congrArg CodeWord.uop (uopWord_twoBit_operand _ _),
    fun habsent => ?_, fun level hpresent => ?_⟩
  · rw [exec_rsta, exec_rstd, driveLine_of_absent habsent, driveLine_of_absent habsent]
    exact ⟨rfl, rfl⟩
  · constructor
    · obtain ⟨p, hlevel, hothers, hdriven⟩ := advance_driveLine_of_present hpresent true
      exact ⟨p, hlevel, hothers, by rw [exec_rsta, hdriven]⟩
    · obtain ⟨p, hlevel, hothers, hdriven⟩ := advance_driveLine_of_present hpresent false
      exact ⟨p, hlevel, hothers, by rw [exec_rstd, hdriven]⟩

/-! ### The clock and the delays -/

theorem exec_clken_of_prepared {s : State} (h : (nextClock s.env).1 = true) :
    exec .clken s = .next (advance (emit (.clk true) { s with env := (nextClock s.env).2, clkEn := true })) := by
  simp [exec, execClken, h]

theorem exec_clken_of_unprepared {s : State} (h : (nextClock s.env).1 = false) :
    exec .clken s =
      .next (abort .resourceUnavailable (emit .clkFail { s with env := (nextClock s.env).2 })) := by
  simp [exec, execClken, h]

theorem exec_clkdis (s : State) :
    exec .clkdis s = .next (advance (emit (.clk false) { s with clkEn := false })) := rfl

theorem exec_delay (k : DelayKind) (s : State) :
    exec (.delay k) s = .next (advance (wait (delayWait k) (delayUs s.cfg k) s)) := rfl

/-- Settles O16: the two answers of the provider. -/
theorem clkenResult : Obligations.ClkenResult :=
  ⟨rfl, fun _ => ⟨fun h => exec_clken_of_prepared h, fun h => exec_clken_of_unprepared h⟩⟩

/-- Settles O17: the micro-operation asks no one, so that one state is all it answers. -/
theorem clkdisResult : Obligations.ClkdisResult := ⟨rfl, exec_clkdis⟩

/-- Settles O18: the word, and the wait of each kind. -/
theorem delayResult : Obligations.DelayResult := by
  intro k s
  refine ⟨congrArg CodeWord.uop (uopWord_twoBit_operand _ _), ?_⟩
  rw [exec_delay]
  cases k <;> rfl

end Sys2Proof.Machine

/-!
PROOFS. The reset lines as outputs (spec/44_reset_clock.md R173). Both halves of R173 are one fact: an instruction other
than RSTA and RSTD, run with the lines replaced, answers what it answers without, with the lines of the next state
replaced. Replacing the lines by themselves shows that it does not write them; replacing them by others, that it does
not read them. So each operation is shown to commute with the replacement.
-/

namespace Sys2Proof.Machine

/-! ### Changing the state an outcome leaves -/

@[simp] theorem overNext_next (g : State → State) (s : State) : overNext g (.next s) = .next (g s) := rfl
@[simp] theorem overNext_fault (g : State → State) (r : Fault) : overNext g (.fault r) = .fault r := rfl
@[simp] theorem overNext_refused (g : State → State) (r : Refusal) : overNext g (.refused r) = .refused r := rfl

theorem overNext_overNext (g h : State → State) (o : Result) : overNext g (overNext h o) = overNext (g ∘ h) o := by
  cases o <;> rfl

/-- An action and its continuation that commute with a change of the state do so together. -/
theorem andThen_onState {g : State → State} {k : State → Act} (hk : ∀ s, k (g s) = onState g (k s)) (a : Act) :
    andThen (onState g a) k = onState g (andThen a k) := by
  cases a with
  | done s => exact hk s
  | raised e s => rfl
  | fault r => rfl

theorem onState_commute {g h : State → State} (hgh : Function.Commute g h) :
    Function.Commute (onState g) (onState h)
  | .done s => congrArg Act.done (hgh s)
  | .raised e s => congrArg (Act.raised e) (hgh s)
  | .fault _ => rfl

/-! ### HOOK -/

theorem exec_hook_of_none {s : State} (h : s.cfg.variant.tuneHook = none) : exec .hook s = .next (advance s) := by
  simp only [exec, execHook, h]

theorem exec_hook_of_some {s : State} {hook : TuneHook} (h : s.cfg.variant.tuneHook = some hook) :
    exec .hook s =
      complete (onState leaveHook (runHookSteps (hookSteps hook s.protoType) { s with hookIdx := 0 })) := by
  simp only [exec, execHook, h]

/-! ### Replacing the lines -/

/-- The state with other reset lines. -/
def withLines (p : PerLine (Option Bool)) (s : State) : State := { s with rst := p }

section withLines

variable (p : PerLine (Option Bool))

theorem withLines_self (s : State) : withLines s.rst s = s := rfl

theorem overNext_withLines_withLines (q : PerLine (Option Bool)) (o : Result) :
    overNext (withLines p) (overNext (withLines q) o) = overNext (withLines p) o :=
  overNext_overNext (withLines p) (withLines q) o

theorem abort_withLines (e : ErrorCode) (s : State) : abort e (withLines p s) = withLines p (abort e s) := by
  rw [abort_eq, abort_eq]
  rfl

theorem complete_withLines (a : Act) :
    complete (onState (withLines p) a) = overNext (withLines p) (complete a) := by
  cases a with
  | done s => rfl
  | raised e s => exact congrArg Host.Outcome.next (abort_withLines p e s)
  | fault r => rfl

/-! ### Commands -/

theorem accept_withLines {k : State → Result} (hk : ∀ s, k (withLines p s) = overNext (withLines p) (k s))
    (s : State) : accept (withLines p s) k = overNext (withLines p) (accept s k) := by
  rw [accept, accept, apply_ite (overNext _), ← hk]
  rfl

theorem exec_assignType_withLines (t : BitVec 8) (s : State) :
    exec (.assignType t) (withLines p s) = overNext (withLines p) (exec (.assignType t) s) := by
  rw [exec, exec]
  refine accept_withLines p (fun s => ?_) s
  cases requestedType t with
  | none => rfl
  | some q =>
    simp only [withLines, apply_ite (overNext _)]
    rfl

theorem exec_init_withLines (s : State) : exec .init (withLines p s) = overNext (withLines p) (exec .init s) := by
  rw [exec, exec]
  refine accept_withLines p (fun s => ?_) s
  simp only [withLines, apply_ite (overNext _)]
  rfl

theorem exec_exit_withLines (s : State) : exec .exit (withLines p s) = overNext (withLines p) (exec .exit s) := by
  rw [exec, exec]
  exact accept_withLines p (fun _ => rfl) s

theorem exec_complianceTest_withLines (s : State) :
    exec .complianceTest (withLines p s) = overNext (withLines p) (exec .complianceTest s) := by
  rw [exec, exec]
  refine accept_withLines p (fun s => ?_) s
  simp only [withLines, apply_ite (overNext _)]
  rfl

/-! ### The clock -/

theorem exec_clken_withLines (s : State) :
    exec .clken (withLines p s) = overNext (withLines p) (exec .clken s) := by
  cases h : (nextClock s.env).1 with
  | true =>
    rw [exec_clken_of_prepared h, exec_clken_of_prepared (s := withLines p s) h]
    rfl
  | false =>
    rw [exec_clken_of_unprepared h, exec_clken_of_unprepared (s := withLines p s) h, overNext_next,
      ← abort_withLines]
    rfl

/-! ### The register port -/

theorem withField_withLines {k k' : RegisterField → Act} (hk : ∀ fld, k' fld = onState (withLines p) (k fld))
    (f : FieldId) (s : State) : withField f (withLines p s) k' = onState (withLines p) (withField f s k) := by
  obtain rfl : k' = fun fld => onState (withLines p) (k fld) := funext hk
  simp only [withField, withLines]
  cases lookupField s.cfg.variant f with
  | none => rfl
  | some fld =>
    simp only [apply_ite (onState _)]
    rfl

theorem writeField_withLines (f : FieldId) (e : Bool) (s : State) :
    writeField f e (withLines p s) = onState (withLines p) (writeField f e s) := by
  refine withField_withLines p (fun fld => ?_) f s
  simp only [busWrite, withLines]
  cases (nextWrite s.env).1 with
  | ok => rfl
  | busErr landed => rfl

theorem exec_wrf_withLines (f : FieldId) (e : Bool) (s : State) :
    exec (.wrf f e) (withLines p s) = overNext (withLines p) (exec (.wrf f e) s) := by
  rw [exec_wrf, exec_wrf, writeField_withLines, complete_withLines]

/-! ### The poll -/

theorem pollLoop_withLines (fld : RegisterField) (c : TimeoutCode) (n : Nat) (s : State) :
    pollLoop fld c n (withLines p s) = onState (withLines p) (pollLoop fld c n s) := by
  induction n generalizing s with
  | zero => rfl
  | succ n ih =>
    cases h : (busRead fld.offset s).1 with
    | busErr =>
      rw [pollLoop_of_busErr h, pollLoop_of_busErr (s := withLines p s) h]
      rfl
    | word w =>
      rw [pollLoop_of_word h, pollLoop_of_word (s := withLines p s) h, apply_ite (onState _), apply_ite (onState _),
        ← ih (afterRound fld s)]
      rfl

theorem leavePoll_withLines : Function.Commute leavePoll (withLines p) := fun _ => rfl

theorem exec_poll_withLines (f : FieldId) (c : TimeoutCode) (s : State) :
    exec (.poll f c) (withLines p s) = overNext (withLines p) (exec (.poll f c) s) := by
  rw [exec, exec, execPoll, execPoll, ← complete_withLines]
  refine congrArg complete (withField_withLines p (fun fld => ?_) f s)
  rw [← onState_commute (leavePoll_withLines p) _, ← pollLoop_withLines]
  rfl

/-! ### The hook -/

theorem runHookWrites_withLines (ws : List HookWrite) (s : State) :
    runHookWrites ws (withLines p s) = onState (withLines p) (runHookWrites ws s) := by
  induction ws generalizing s with
  | nil => rfl
  | cons w ws ih =>
    rw [runHookWrites, runHookWrites, writeField_withLines]
    exact andThen_onState (fun t => ih { t with hookSub := t.hookSub + 1 }) _

theorem runHookStep_withLines (st : HookStep) (s : State) :
    runHookStep st (withLines p s) = onState (withLines p) (runHookStep st s) := by
  cases st with
  | write w => exact writeField_withLines p w.field w.enabled s
  | rate table =>
    simp only [runHookStep_rate, withLines]
    cases rateEntry table s.cfg.refclkRateHz with
    | none => rfl
    | some r => exact runHookWrites_withLines p r.writes { s with hookSub := 0 }

theorem runHookSteps_withLines (sts : List HookStep) (s : State) :
    runHookSteps sts (withLines p s) = onState (withLines p) (runHookSteps sts s) := by
  induction sts generalizing s with
  | nil => rfl
  | cons st sts ih =>
    rw [runHookSteps, runHookSteps, runHookStep_withLines]
    exact andThen_onState (fun t => ih { t with hookIdx := t.hookIdx + 1 }) _

theorem leaveHook_withLines : Function.Commute leaveHook (withLines p) := fun _ => rfl

theorem exec_hook_withLines (s : State) :
    exec .hook (withLines p s) = overNext (withLines p) (exec .hook s) := by
  cases h : s.cfg.variant.tuneHook with
  | none =>
    rw [exec_hook_of_none h, exec_hook_of_none (s := withLines p s) h]
    rfl
  | some hook =>
    rw [exec_hook_of_some h, exec_hook_of_some (s := withLines p s) h, ← complete_withLines,
      ← onState_commute (leaveHook_withLines p) _, ← runHookSteps_withLines]
    rfl

/-! ### Every instruction -/

/-- No instruction but RSTA and RSTD reads or writes a line. -/
theorem exec_withLines {i : Instr} (hi : ∀ l, i ≠ .rsta l ∧ i ≠ .rstd l) (s : State) :
    exec i (withLines p s) = overNext (withLines p) (exec i s) := by
  cases i with
  | assignType t => exact exec_assignType_withLines p t s
  | init => exact exec_init_withLines p s
  | exit => exact exec_exit_withLines p s
  | complianceTest => exact exec_complianceTest_withLines p s
  | endOp => rfl
  | setst st => rfl
  | rsta l => exact absurd rfl (hi l).1
  | rstd l => exact absurd rfl (hi l).2
  | clken => exact exec_clken_withLines p s
  | clkdis => rfl
  | delay k => rfl
  | wrf f e => exact exec_wrf_withLines p f e s
  | poll f c => exact exec_poll_withLines p f c s
  | hook => exact exec_hook_withLines p s

/-- Driving a line depends on its presence alone: its level goes only into the lines. -/
theorem withLines_driveLine {l : ResetLine} {s : State} (hp : (getLine p l).isSome = (getLine s.rst l).isSome)
    (b : Bool) : withLines p (driveLine l b (withLines p s)) = withLines p (driveLine l b s) := by
  cases hs : getLine s.rst l with
  | none =>
    rw [hs, Option.isSome_none, Option.isSome_eq_false_iff, Option.isNone_iff_eq_none] at hp
    rw [driveLine_of_absent hs, driveLine_of_absent (s := withLines p s) hp]
    rfl
  | some level =>
    rw [hs, Option.isSome_some, Option.isSome_iff_exists] at hp
    obtain ⟨level', hp⟩ := hp
    rw [driveLine_of_present hs, driveLine_of_present (s := withLines p s) hp]
    rfl

end withLines

/-- What the lines were at shows in no outcome, once the lines are replaced in it. -/
theorem overNext_withLines_exec {p : PerLine (Option Bool)} {s : State}
    (hp : ∀ l, (getLine p l).isSome = (getLine s.rst l).isSome) (i : Instr) :
    overNext (withLines p) (exec i (withLines p s)) = overNext (withLines p) (exec i s) := by
  cases i with
  | rsta l => exact congrArg (fun t => Host.Outcome.next (advance t)) (withLines_driveLine p (hp l) true)
  | rstd l => exact congrArg (fun t => Host.Outcome.next (advance t)) (withLines_driveLine p (hp l) false)
  | _ => rw [exec_withLines p (by simp), overNext_withLines_withLines]

/-- An instruction other than RSTA and RSTD leaves every line, since it leaves those it is given in place of them. -/
theorem exec_rst {i : Instr} (hi : ∀ l, i ≠ .rsta l ∧ i ≠ .rstd l) {s t : State} (h : exec i s = .next t) :
    t.rst = s.rst := by
  have hlines := exec_withLines s.rst hi s
  rw [withLines_self, h, overNext_next] at hlines
  have ht : t = withLines s.rst t := Host.Outcome.next.inj hlines
  rw [ht]
  rfl

/-- Driving a line leaves every other line. -/
theorem getLine_driveLine_ne {k l : ResetLine} (h : k ≠ l) (b : Bool) (s : State) :
    getLine (driveLine l b s).rst k = getLine s.rst k := by
  rcases driveLine_cases l b s with ⟨-, hd⟩ | ⟨-, hd⟩
  · rw [hd]
  · rw [hd, emit_rst, getLine_setLine_ne _ h]

/-- An instruction that does not drive a line leaves it. -/
theorem exec_getLine {i : Instr} {l : ResetLine} (hi : i ≠ .rsta l ∧ i ≠ .rstd l) {s t : State}
    (h : exec i s = .next t) : getLine t.rst l = getLine s.rst l := by
  cases i with
  | rsta k =>
    rw [← Host.Outcome.next.inj h, advance_rst, getLine_driveLine_ne (Ne.symm (mt (congrArg _) hi.1))]
  | rstd k =>
    rw [← Host.Outcome.next.inj h, advance_rst, getLine_driveLine_ne (Ne.symm (mt (congrArg _) hi.2))]
  | _ => rw [exec_rst (by simp) h]

/-- Settles O39: an instruction that does not drive a line leaves it, and no outcome tells what the lines were at. -/
theorem linesOnlyByRstaRstd : Obligations.LinesOnlyByRstaRstd :=
  ⟨fun _ _ _ _ h hne => by_contra fun hnot => hne (exec_getLine (not_or.1 hnot) h),
    fun i _ _ hp => overNext_withLines_exec hp i⟩

end Sys2Proof.Machine

/-!
PROOFS. The sequencer (spec/45_sequencer.md R192, R201, R202): the word of SETST and what it answers, and ROM_USB3 read as
the micro-operations its words stand for, from which its register writes are picked out.
-/

namespace Sys2Proof.Machine

/-! ### SETST -/

/-- The micro-opcode is the high four bits, so that the argument is or-ed in below it (R76). -/
theorem uopWord_eq_or (op : BitVec 4) (arg : BitVec 12) : uopWord op arg = (op ++ 0#12) ||| arg.setWidth 16 := by
  rw [uopWord, BitVec.append_def, BitVec.append_def]
  simp

/-- An argument whose only operand is three bits at its low end (R79) adds that operand to the micro-opcode. -/
theorem uopWord_threeBit_operand (op : BitVec 4) (x : BitVec 3) :
    uopWord op (0#9 ++ x) = (op ++ 0#12) ||| x.setWidth 16 := by
  have hoperand : (0#9 ++ x : BitVec 12) = x.setWidth 12 := (BitVec.setWidth_eq_append (by decide)).symm
  rw [uopWord_eq_or, hoperand, BitVec.setWidth_setWidth (by decide)]

theorem exec_setst (st : SeqState) (s : State) :
    exec (.setst st) s = .next (advance (emit (.state st) { s with seqState := st })) := rfl

/-- Settles O13: the word, and the next state, in which the event stands whatever the state was before. -/
theorem setstResult : Obligations.SetstResult := fun st s =>
  ⟨congrArg CodeWord.uop (uopWord_threeBit_operand _ _), exec_setst st s⟩

/-! ### The writes of ROM_USB3 -/

/-- ROM_USB3 as micro-operations (R201). -/
def usb3Instrs : List Instr :=
  [.setst .poweringOn, .rsta .ctrl, .clken, .rstd .por, .delay .settle, .rstd .regbus, .delay .settle,
   .setst .configuring,
   .wrf 0x01#8 true, .wrf 0x02#8 true, .wrf 0x03#8 true, .wrf 0x04#8 true, .wrf 0x05#8 true, .wrf 0x06#8 true,
   .wrf 0x07#8 true, .wrf 0x08#8 true, .wrf 0x09#8 true, .wrf 0x0A#8 true, .wrf 0x0B#8 true, .wrf 0x0C#8 true,
   .wrf 0x0D#8 true,
   .hook, .setst .waitingPllLock, .delay .prelockUsb3, .poll fieldPllLock .pllLock,
   .setst .waitingLaneReady, .rstd .datapath, .poll fieldLaneReady .laneReady, .rstd .ctrl, .setst .ready, .endOp]

/-- The words of ROM_USB3 all decode, each to the micro-operation at its place. -/
theorem romUsb3_map_decodeUop : romUsb3.map decodeUop = usb3Instrs.map some := by decide

/-- Where every word has an instruction, dropping the words without one leaves the instructions. -/
theorem filterMap_decodeUop_of_map_eq {ws : List UopWord} {is : List Instr} (h : ws.map decodeUop = is.map some) :
    ws.filterMap decodeUop = is :=
  calc ws.filterMap decodeUop
    _ = (ws.map decodeUop).filterMap id := by rw [List.filterMap_map, Function.id_comp]
    _ = (is.map some).filterMap id := by rw [h]
    _ = is := by rw [List.filterMap_map, Function.id_comp, List.filterMap_some]

/-- Settles O47: no micro-operation of ROM_USB3 outside the block of R202 is a WRF, and the block is in its order. -/
theorem setBeforeSelect : Obligations.SetBeforeSelect := by
  unfold Obligations.SetBeforeSelect
  rw [filterMap_decodeUop_of_map_eq romUsb3_map_decodeUop]
  rfl

end Sys2Proof.Machine

/-!
PROOFS. Straight-line runs (spec/45_sequencer.md R190, R191, R196): a step runs the instruction that stands at the fetch,
so that a run of an image goes through the micro-operations that stand ahead of the sequencer one after another.
-/

namespace Sys2Proof.Machine

/-! ### One step of a run -/

theorem run_succ_of_step {s t : State} (h : step s = .next t) (n : Nat) :
    Host.Core.run Sys2Proof.core (n + 1) s = Host.Core.run Sys2Proof.core n t := by
  simp only [Host.Core.run, show Sys2Proof.core.step s = .next t from h]

/-- The fetch of the word of an image at `UPC` (R191). -/
theorem step_of_fetchUop {s : State} {w : UopWord} {i : Instr} (hb : s.busy = true) (hw : fetchUop s = some w)
    (hi : decodeUop w = some i) : step s = exec i s := by
  simp [step, fetch, fetchMicroOp, hb, hw, hi]

/-- The fetch of the host's word, which is taken from the port (R220). -/
theorem step_of_decodeCmd_eq_some {w : CmdWord} {rest : List CmdWord} {i : Instr} {s : State} (hb : s.busy = false)
    (hc : s.hostCmds = w :: rest) (hi : decodeCmd w = some i) : step s = exec i { s with hostCmds := rest } := by
  simp [step, fetch, fetchHostCommand, fetchCommand, hb, hc, hi]

/-! ### The micro-operations ahead -/

/-- The sequencer runs, and these micro-operations are all that the image holds from `UPC` on. `UPC` can count through
them. -/
structure UopsAhead (is : List Instr) (s : State) : Prop where
  busy : s.busy = true
  words : ((selectImage s.rom s.romsel).drop s.upc.toNat).map decodeUop = is.map some
  fits : s.upc.toNat + is.length < 2 ^ 6

section ahead

variable {i : Instr} {is : List Instr} {s t : State}

/-- The image a command has just started is ahead as a whole. -/
theorem uopsAhead_startImage {r : RomSel} (hwords : (selectImage s.rom r).map decodeUop = is.map some)
    (hfits : is.length < 2 ^ 6) : UopsAhead is (startImage r s) where
  busy := rfl
  words := hwords
  fits := by simpa using hfits

theorem UopsAhead.step_eq (h : UopsAhead (i :: is) s) : step s = exec i s := by
  obtain ⟨w, ws, hdrop, hdecode, -⟩ := List.map_eq_cons_iff.1 h.words
  refine step_of_fetchUop h.busy ?_ hdecode
  rw [fetchUop, ← List.head?_drop, hdrop, List.head?_cons]

/-- A run goes on from what the micro-operation at the fetch answers. -/
theorem UopsAhead.run_succ (h : UopsAhead (i :: is) s) (hexec : exec i s = .next t) (n : Nat) :
    Host.Core.run Sys2Proof.core (n + 1) s = Host.Core.run Sys2Proof.core n t :=
  run_succ_of_step (h.step_eq.trans hexec) n

/-- A micro-operation that changes nothing of the fetch but to advance it has the rest ahead. -/
theorem UopsAhead.ahead_advance (h : UopsAhead (i :: is) s) (hbusy : t.busy = s.busy) (hrom : t.rom = s.rom)
    (hromsel : t.romsel = s.romsel) (hupc : t.upc = s.upc) : UopsAhead is (advance t) := by
  have hfits := h.fits
  rw [List.length_cons] at hfits
  have hnext : (s.upc + 1#6).toNat = s.upc.toNat + 1 := by
    rw [BitVec.toNat_add, BitVec.toNat_ofNat]
    omega
  obtain ⟨w, ws, hdrop, -, hdecode⟩ := List.map_eq_cons_iff.1 h.words
  refine ⟨hbusy.trans h.busy, ?_, ?_⟩
  · rw [advance_rom, advance_romsel, advance_upc, hrom, hromsel, hupc, hnext, ← List.tail_drop, hdrop,
      List.tail_cons, hdecode]
  · rw [advance_upc, hupc, hnext]
    omega

/-- A run through such a micro-operation, with what it leaves ahead. -/
theorem UopsAhead.run_advance (h : UopsAhead (i :: is) s) (hexec : exec i s = .next (advance t))
    (hbusy : t.busy = s.busy) (hrom : t.rom = s.rom) (hromsel : t.romsel = s.romsel) (hupc : t.upc = s.upc) :
    UopsAhead is (advance t) ∧
      ∀ n, Host.Core.run Sys2Proof.core (n + 1) s = Host.Core.run Sys2Proof.core n (advance t) :=
  ⟨h.ahead_advance hbusy hrom hromsel hupc, h.run_succ hexec⟩

end ahead

end Sys2Proof.Machine

/-!
PROOFS. The host commands (spec/46_host_commands.md R220 to R227): what each answers while `BUSY = 0`, and the runs of
ROM_CMPL and ROM_EXIT to their ends.
-/

namespace Sys2Proof.Machine

/-! ### Acceptance and the end of a command -/

section accepted

variable {s : State}

theorem accept_of_idle (hb : s.busy = false) (k : State → Result) : accept s k = k { s with busy := true } := by
  simp [accept, hb]

/-- A command that ends in the step that accepts it leaves `BUSY` as it was. -/
theorem finish_of_idle (hb : s.busy = false) (cmd : HostCmd) (code : ResultCode) :
    finish cmd code { s with busy := true } =
      { s with result := code, trace := s.trace ++ [.result cmd code] } := by
  simp [finish, emit, hb]

end accepted

/-! ### ASSIGN_TYPE -/

/-- The operand stands above the four bits of the opcode (R71, R73). -/
theorem cmdWord_eq_or (op : BitVec 4) (targ : BitVec 8) :
    cmdWord op targ = op.setWidth 32 ||| targ.setWidth 32 <<< 4 := by
  rw [cmdWord, BitVec.append_def, BitVec.append_def, BitVec.or_comm]
  simp [BitVec.shiftLeftZeroExtend_eq]

theorem requestedType_eq_none {t : BitVec 8} (h2 : t ≠ 0x02#8) (h4 : t ≠ 0x04#8) : requestedType t = none := by
  rw [requestedType, if_neg h2, if_neg h4]

theorem requestedType_eq_some {t : BitVec 8} {p : ProtoType}
    (h : (p = .pcie ∧ t = 0x02#8) ∨ (p = .usb3 ∧ t = 0x04#8)) : requestedType t = some p := by
  rcases h with ⟨rfl, rfl⟩ | ⟨rfl, rfl⟩ <;> rfl

section assignType

variable {t : BitVec 8} {p : ProtoType} {s : State}

theorem exec_assignType_of_unsupported (hb : s.busy = false) (ht : requestedType t = none) :
    exec (.assignType t) s = .next (finish .assignType (.error .invalidType) { s with busy := true }) := by
  simp only [exec, execAssignType, accept_of_idle hb, ht]

/-- A supported type is compared with the recorded one. -/
theorem exec_assignType_of_supported (hb : s.busy = false) (ht : requestedType t = some p) :
    exec (.assignType t) s = .next
      (if s.protoType = .unassigned then finish .assignType .ok { s with busy := true, protoType := p }
      else if s.protoType = p then finish .assignType .ok { s with busy := true }
      else finish .assignType (.error .typeConflict) { s with busy := true }) := by
  simp only [exec, execAssignType, accept_of_idle hb, ht]
  split_ifs <;> rfl

end assignType

/-- Settles O9: an unsupported type, and the three comparisons of a supported one. -/
theorem assignTypeResult : Obligations.AssignTypeResult := by
  intro t s hb
  refine ⟨congrArg CodeWord.cmd (cmdWord_eq_or _ _), fun h2 h4 => ?_, fun p hp => ?_⟩
  · rw [exec_assignType_of_unsupported hb (requestedType_eq_none h2 h4), finish_of_idle hb]
  · rw [exec_assignType_of_supported hb (requestedType_eq_some hp)]
    refine ⟨fun hfirst => ?_, fun hsame => ?_, fun htyped hother => ?_⟩
    · rw [if_pos hfirst, finish_of_idle (s := { s with protoType := p }) hb]
    · have htyped : s.protoType ≠ .unassigned := by
        rcases hp with ⟨rfl, -⟩ | ⟨rfl, -⟩ <;> simp [hsame]
      rw [if_neg htyped, if_pos hsame, finish_of_idle hb]
    · rw [if_neg htyped, if_neg hother, finish_of_idle hb]

/-! ### INIT -/

theorem bringUpImage_eq_ite (p : ProtoType) : bringUpImage p = if p = .pcie then .pcie else .usb3 := by
  cases p <;> rfl

theorem exec_init_of_idle {s : State} (hb : s.busy = false) :
    exec .init s =
      if s.protoType = .unassigned then .next (finish .init (.error .invalidType) { s with busy := true })
      else if s.seqState = .ready then .refused .initWhileReady
      else .next (startImage (bringUpImage s.protoType) s) := by
  rw [exec, execInit, accept_of_idle hb]
  rfl

/-- Settles O10: the three cases in the order of R224. -/
theorem initPreconditions : Obligations.InitPreconditions := by
  intro s hb
  rw [exec_init_of_idle hb]
  refine ⟨fun huntyped => ?_, fun htyped hready => ?_, fun htyped hready => ?_⟩
  · rw [if_pos huntyped, finish_of_idle hb]
  · rw [if_neg htyped, if_pos hready]
  · rw [if_neg htyped, if_neg hready, bringUpImage_eq_ite, startImage]

/-! ### The end of an image -/

theorem exec_endOp (s : State) : exec .endOp s = .next (finish (imageCommand s.romsel) .ok s) := rfl

/-! ### COMPLIANCE_TEST -/

theorem exec_complianceTest_of_idle {s : State} (hb : s.busy = false) :
    exec .complianceTest s = .next
      (if s.protoType ≠ .usb3 then finish .complianceTest (.error .typeMismatch) { s with busy := true }
      else if s.cfg.variant.cmplHook then startImage .cmpl s
      else finish .complianceTest .ok { s with busy := true }) := by
  simp only [exec, execComplianceTest, accept_of_idle hb]
  split_ifs <;> rfl

/-- A field of a well-formed variant lies at a register (WF4, R143). -/
theorem registerAt_of_variantWf {n : Widths} {v : VariantConfig} (hv : variantWf n v = true) {f : FieldId}
    {fld : RegisterField} (hl : lookupField v f = some fld) : registerAt n fld.offset := by
  have hwf4 : checkWF4 n v = true := by
    simp only [variantWf, Bool.and_eq_true] at hv
    tauto
  obtain ⟨l₁, l₂, hfields, -⟩ := List.lookup_eq_some_iff.1 hl
  have hfield := List.all_eq_true.1 hwf4 (f, fld) (by simp [hfields])
  simpa using hfield

/-- A field of a legal state lies at a register. -/
theorem State.Inv.registerAt {s : State} (h : s.Inv) {f : FieldId} {fld : RegisterField}
    (hl : lookupField s.cfg.variant f = some fld) : registerAt s.cfg.widths fld.offset := by
  have hparams := h.params
  simp only [paramsWf, Bool.and_eq_true] at hparams
  obtain ⟨⟨-, hv⟩, -⟩ := hparams
  exact registerAt_of_variantWf hv hl

theorem writeField_of_busErr {f : FieldId} {fld : RegisterField} {s : State}
    (hl : lookupField s.cfg.variant f = some fld) (ha : registerAt s.cfg.widths fld.offset) {landed : Nat}
    (herr : (nextWrite s.env).1 = .busErr landed) (e : Bool) :
    writeField f e s = .raised .registerError (busWrite fld.offset (writeWord s.cfg.widths fld e) s).2 := by
  rw [writeField, withField_ok hl ha.1 ha.2]
  simp [busWrite, herr, writeResp]

/-- ROM_CMPL as micro-operations (R204). -/
def cmplInstrs : List Instr := [.wrf fieldRxNegpulse true, .endOp]

theorem romCmpl_map_decodeUop : romCmpl.map decodeUop = cmplInstrs.map some := by decide

section compliance

variable {s : State} {fld : RegisterField}

/-- The command runs its image with the right type and a hook. -/
theorem exec_complianceTest_of_hook (hb : s.busy = false) (hp : s.protoType = .usb3)
    (hh : s.cfg.variant.cmplHook = true) : exec .complianceTest s = .next (startImage .cmpl s) := by
  rw [exec_complianceTest_of_idle hb, if_neg (not_not.2 hp), if_pos hh]

theorem uopsAhead_cmplInstrs (himages : s.rom = fixedImages s.cfg.exitAssertsCtrl) :
    UopsAhead cmplInstrs (startImage .cmpl s) :=
  uopsAhead_startImage (by rw [himages]; exact romCmpl_map_decodeUop) (by decide)

/-- ROM_CMPL with its write answered OK: the write, and the END. -/
theorem run_cmplInstrs_of_ok (h : UopsAhead cmplInstrs s) (hl : lookupField s.cfg.variant fieldRxNegpulse = some fld)
    (ha : registerAt s.cfg.widths fld.offset) (hok : (nextWrite s.env).1 = .ok) :
    Host.Core.run Sys2Proof.core 2 s = .next (finish (imageCommand s.romsel) .ok
      (advance (busWrite fld.offset (writeWord s.cfg.widths fld true) s).2)) := by
  have hwrf : exec (.wrf fieldRxNegpulse true) s =
      .next (advance (busWrite fld.offset (writeWord s.cfg.widths fld true) s).2) := by
    rw [exec_wrf, writeField_of_ok hl ha hok, complete_done]
  obtain ⟨hend, hrun⟩ := h.run_advance hwrf rfl rfl rfl rfl
  rw [hrun, hend.run_succ (exec_endOp _)]
  rfl

/-- ROM_CMPL with its write answered BUSERR: the write, and the abort. -/
theorem run_cmplInstrs_of_busErr (h : UopsAhead cmplInstrs s)
    (hl : lookupField s.cfg.variant fieldRxNegpulse = some fld) (ha : registerAt s.cfg.widths fld.offset)
    {landed : Nat} (herr : (nextWrite s.env).1 = .busErr landed) :
    Host.Core.run Sys2Proof.core 1 s =
      .next (abort .registerError (busWrite fld.offset (writeWord s.cfg.widths fld true) s).2) := by
  rw [h.run_succ (by rw [exec_wrf, writeField_of_busErr hl ha herr, complete_raised])]
  rfl

end compliance

/-- Settles O11: the two checks, and ROM_CMPL with its write answered OK and answered BUSERR. -/
theorem complianceTestResult : Obligations.ComplianceTestResult := by
  refine ⟨rfl, fun s hb => ⟨fun hp => ?_, fun hp hh => ?_, fun hp hh => exec_complianceTest_of_hook hb hp hh⟩,
    fun s rest fld hinv hb hp hh hc hl => ?_⟩
  · rw [exec_complianceTest_of_idle hb, if_pos hp, finish_of_idle hb]
  · rw [exec_complianceTest_of_idle hb, if_neg (not_not.2 hp), hh, if_neg Bool.false_ne_true, finish_of_idle hb]
  · have ha := hinv.registerAt hl
    have hahead := uopsAhead_cmplInstrs (s := { s with hostCmds := rest }) hinv.images
    have hstep : step s = .next (startImage .cmpl { s with hostCmds := rest }) := by
      rw [step_of_decodeCmd_eq_some hb hc (i := .complianceTest) rfl]
      exact exec_complianceTest_of_hook hb hp hh
    refine ⟨fun hok => ?_, fun landed herr => ?_⟩
    · refine ⟨_, (run_succ_of_step hstep 2).trans (run_cmplInstrs_of_ok hahead hl ha hok), rfl, rfl, rfl, ?_, ?_⟩
      · simp [hok, landedMask]
      · simp [hok, writeResp, imageCommand]
    · refine ⟨_, (run_succ_of_step hstep 1).trans (run_cmplInstrs_of_busErr hahead hl ha herr), ?_, ?_, ?_, ?_, ?_⟩
      · simp
      · simp
      · simp [isBringUp]
      · simp [herr, landedMask]
      · simp [herr, writeResp, imageCommand, isBringUp]

/-! ### Asserting lines -/

/-- A driven line has the level, if it is present; every other line is left. -/
theorem getLine_driveLine (l : ResetLine) (b : Bool) (s : State) (k : ResetLine) :
    getLine (driveLine l b s).rst k = if k = l then (getLine s.rst k).map fun _ => b else getLine s.rst k := by
  split
  · next hsame =>
    subst hsame
    rcases driveLine_cases k b s with ⟨habsent, hd⟩ | ⟨⟨level, hpresent⟩, hd⟩
    · rw [hd, habsent, Option.map_none]
    · rw [hd, hpresent, emit_rst, getLine_setLine_same, Option.map_some]
  · next hother => exact getLine_driveLine_ne hother b s

theorem driveLine_trace (l : ResetLine) (b : Bool) (s : State) :
    (driveLine l b s).trace = s.trace ++ if (getLine s.rst l).isSome then [.rst l b] else [] := by
  rcases driveLine_cases l b s with ⟨habsent, hd⟩ | ⟨⟨level, hpresent⟩, hd⟩
  · simp [hd, habsent]
  · simp [hd, hpresent]

theorem driveLine_frame (l : ResetLine) (b : Bool) (s : State) :
    driveLine l b s = { s with rst := (driveLine l b s).rst, trace := (driveLine l b s).trace } := by
  rcases driveLine_cases l b s with ⟨-, hd⟩ | ⟨-, hd⟩
  · rw [hd]
  · rw [hd]
    rfl

/-- The state after one RSTA for each line of a list. -/
def assertLines : List ResetLine → State → State
  | [], s => s
  | l :: ls, s => assertLines ls (advance (driveLine l true s))

theorem assertLines_cons (l : ResetLine) (ls : List ResetLine) (s : State) :
    assertLines (l :: ls) s = assertLines ls (advance (driveLine l true s)) := rfl

theorem assertLines_frame (ls : List ResetLine) (s : State) :
    assertLines ls s = { s with
      upc := (assertLines ls s).upc, rst := (assertLines ls s).rst, trace := (assertLines ls s).trace } := by
  induction ls generalizing s with
  | nil => rfl
  | cons l ls ih =>
    rw [assertLines_cons, ih, driveLine_frame]
    rfl

@[simp] theorem assertLines_romsel (ls : List ResetLine) (s : State) : (assertLines ls s).romsel = s.romsel := by
  rw [assertLines_frame]

/-- The lines of the list that are present are asserted; no line appears, vanishes or is deasserted. -/
theorem getLine_assertLines (ls : List ResetLine) (s : State) (k : ResetLine) :
    getLine (assertLines ls s).rst k = if k ∈ ls then (getLine s.rst k).map fun _ => true else getLine s.rst k := by
  induction ls generalizing s with
  | nil => simp [assertLines]
  | cons l ls ih =>
    rw [assertLines_cons, ih, advance_rst, getLine_driveLine]
    by_cases hk : k = l <;> simp [hk]

/-- One event for each present line, in the order of the list. -/
theorem assertLines_trace (ls : List ResetLine) (s : State) :
    (assertLines ls s).trace =
      s.trace ++ (ls.filter fun l => (getLine s.rst l).isSome).map (Event.rst · true) := by
  induction ls generalizing s with
  | nil => simp [assertLines]
  | cons l ls ih =>
    have hpresence : ∀ k, (getLine (driveLine l true s).rst k).isSome = (getLine s.rst k).isSome := fun k => by
      rw [getLine_driveLine]
      split <;> simp
    simp only [assertLines_cons, ih, advance_trace, advance_rst, hpresence, driveLine_trace, List.filter_cons]
    split <;> simp

/-- A run through one RSTA for each line of a list, with what they leave ahead. -/
theorem UopsAhead.run_assertLines {ls : List ResetLine} {is : List Instr} {s : State}
    (h : UopsAhead (ls.map .rsta ++ is) s) :
    UopsAhead is (assertLines ls s) ∧
      ∀ n, Host.Core.run Sys2Proof.core (ls.length + n) s = Host.Core.run Sys2Proof.core n (assertLines ls s) := by
  induction ls generalizing s with
  | nil => exact ⟨h, fun n => by rw [List.length_nil, Nat.zero_add, assertLines]⟩
  | cons l ls ih =>
    have hframe := driveLine_frame l true s
    obtain ⟨hnext, hstep⟩ := h.run_advance (exec_rsta l s) (by rw [hframe]) (by rw [hframe]) (by rw [hframe])
      (by rw [hframe])
    obtain ⟨hrest, hrun⟩ := ih hnext
    refine ⟨hrest, fun n => ?_⟩
    rw [List.length_cons, Nat.succ_add, hstep, hrun, assertLines_cons]

/-! ### EXIT -/

/-- The lines ROM_EXIT asserts (R203). -/
def exitLines (exitAssertsCtrl : Bool) : List ResetLine :=
  [.por, .regbus, .datapath] ++ if exitAssertsCtrl then [.ctrl] else []

/-- ROM_EXIT as micro-operations (R203). -/
def exitInstrs (exitAssertsCtrl : Bool) : List Instr :=
  .setst .exiting :: ((exitLines exitAssertsCtrl).map .rsta ++ [.clkdis, .setst .idle, .endOp])

/-- Every line but controller reset, and controller reset when the platform asks for it. -/
theorem mem_exitLines {l : ResetLine} {b : Bool} : l ∈ exitLines b ↔ (l = .ctrl → b = true) := by
  cases l <;> simp [exitLines]

theorem romExit_map_decodeUop (b : Bool) : (romExit b).map decodeUop = (exitInstrs b).map some := by
  cases b <;> decide

theorem romExit_length (b : Bool) : (romExit b).length = (exitLines b).length + 3 + 1 := by
  cases b <;> rfl

theorem exec_exit_of_idle {s : State} (hb : s.busy = false) : exec .exit s = .next (startImage .exit s) := by
  rw [exec, execExit, accept_of_idle hb]
  rfl

/-- The state in which ROM_EXIT has started and shown that it has. -/
def exitBegun (s : State) : State := advance (emit (.state .exiting) { startImage .exit s with seqState := .exiting })

@[simp] theorem exitBegun_romsel (s : State) : (exitBegun s).romsel = .exit := rfl
@[simp] theorem exitBegun_rst (s : State) : (exitBegun s).rst = s.rst := rfl
@[simp] theorem exitBegun_trace (s : State) : (exitBegun s).trace = s.trace ++ [.state .exiting] := rfl

/-- The state after what ROM_EXIT does once the lines are driven: the clock, `STATE` and the END. -/
def exitEnded (s : State) : State :=
  finish (imageCommand s.romsel) .ok
    (advance (emit (.state .idle) { advance (emit (.clk false) { s with clkEn := false }) with seqState := .idle }))

/-- The run through what stands in ROM_EXIT after the lines. -/
theorem run_exitEnd {s : State} (h : UopsAhead [.clkdis, .setst .idle, .endOp] s) :
    Host.Core.run Sys2Proof.core 3 s = .next (exitEnded s) := by
  obtain ⟨hsetst, hclkdis⟩ := h.run_advance (exec_clkdis s) rfl rfl rfl rfl
  obtain ⟨hend, hidle⟩ := hsetst.run_advance (exec_setst .idle _) rfl rfl rfl rfl
  rw [hclkdis, hidle, hend.run_succ (exec_endOp _)]
  rfl

theorem uopsAhead_exitInstrs {s : State} (himages : s.rom = fixedImages s.cfg.exitAssertsCtrl) :
    UopsAhead (exitInstrs s.cfg.exitAssertsCtrl) (startImage .exit s) := by
  refine uopsAhead_startImage ?_ ?_
  · rw [himages]
    exact romExit_map_decodeUop _
  · cases s.cfg.exitAssertsCtrl <;> decide

/-- The state in which the run of ROM_EXIT ends. -/
def tornDown (s : State) : State := exitEnded (assertLines (exitLines s.cfg.exitAssertsCtrl) (exitBegun s))

theorem run_exitInstrs {s : State} (himages : s.rom = fixedImages s.cfg.exitAssertsCtrl) :
    Host.Core.run Sys2Proof.core (romExit s.cfg.exitAssertsCtrl).length (startImage .exit s) =
      .next (tornDown s) := by
  obtain ⟨hlines, hbegun⟩ := (uopsAhead_exitInstrs himages).run_advance (exec_setst .exiting _) rfl rfl rfl rfl
  obtain ⟨hend, hdriven⟩ := hlines.run_assertLines
  rw [romExit_length, hbegun]
  exact (hdriven 3).trans (run_exitEnd hend)

theorem tornDown_frame (s : State) :
    tornDown s = { s with
      seqState := .idle, result := .ok, busy := false, clkEn := false, romsel := .exit, upc := (tornDown s).upc
      rst := (tornDown s).rst, trace := (tornDown s).trace } := by
  rw [tornDown, assertLines_frame]
  rfl

theorem getLine_tornDown (s : State) (l : ResetLine) :
    getLine (tornDown s).rst l =
      if l = .ctrl → s.cfg.exitAssertsCtrl = true then (getLine s.rst l).map fun _ => true
      else getLine s.rst l := by
  simp only [← mem_exitLines]
  exact getLine_assertLines _ (exitBegun s) l

/-- The events of the lines ROM_EXIT asserts: those that are present. -/
def exitAssertions (s : State) : List Event :=
  ((exitLines s.cfg.exitAssertsCtrl).filter fun l => (getLine s.rst l).isSome).map (Event.rst · true)

theorem mem_exitAssertions {s : State} {ev : Event} :
    ev ∈ exitAssertions s ↔ ∃ l, ev = .rst l true ∧ (getLine s.rst l).isSome = true ∧
      (l = .ctrl → s.cfg.exitAssertsCtrl = true) := by
  simp only [exitAssertions, List.mem_map, List.mem_filter, mem_exitLines, eq_comm (a := ev), and_comm]

theorem tornDown_trace (s : State) :
    (tornDown s).trace = s.trace ++ [.state .exiting] ++ exitAssertions s ++
      [.clk false, .state .idle, .result .exit .ok] := by
  simp [tornDown, exitEnded, assertLines_trace, exitAssertions, imageCommand]

/-- Settles O59: the step that accepts EXIT and the run of ROM_EXIT, whose assertions are those of `exitLines`. -/
theorem exitTearsDown : Obligations.ExitTearsDown := by
  refine ⟨rfl, fun s hb => exec_exit_of_idle hb, fun s rest himages hb hc => ?_⟩
  have hstep : step s = .next (startImage .exit { s with hostCmds := rest }) := by
    rw [step_of_decodeCmd_eq_some hb hc (i := .exit) rfl]
    exact exec_exit_of_idle hb
  have hrun := run_exitInstrs (s := { s with hostCmds := rest }) himages
  have hlines := getLine_tornDown { s with hostCmds := rest }
  rw [Nat.add_comm]
  refine ⟨_, (run_succ_of_step hstep _).trans hrun,
    ⟨exitAssertions s, tornDown_trace _, fun _ => mem_exitAssertions⟩, fun l hl => ?_, fun hctrl => ?_,
    tornDown_frame _⟩
  · rw [lineIs, hlines, if_pos hl]
    cases getLine s.rst l with
    | none => exact ⟨rfl, .inl rfl⟩
    | some level => exact ⟨rfl, .inr rfl⟩
  · exact (hlines .ctrl).trans (if_neg (by simp [hctrl]))

end Sys2Proof.Machine

/-!
PROOFS. The abort (spec/60_exceptions.md R254): what it leaves for an image of each kind, and that ROM_EXIT never comes
to one, since each of its micro-operations either goes on or ends the image with OK (R203, R257).
-/

namespace Sys2Proof.Machine

/-! ### The two forms of an abort -/

theorem isBringUp_eq_true_iff {r : RomSel} : isBringUp r = true ↔ r = .pcie ∨ r = .usb3 := by
  cases r <;> simp [isBringUp]

/-- Both bring-up images are run by INIT. -/
theorem imageCommand_of_isBringUp {r : RomSel} (h : isBringUp r = true) : imageCommand r = .init := by
  rcases isBringUp_eq_true_iff.mp h with rfl | rfl <;> rfl

/-- An abort of a bring-up image returns `STATE` to Idle before the result. -/
theorem abort_of_isBringUp {s : State} (h : isBringUp s.romsel = true) (e : ErrorCode) :
    abort e s = { s with
      seqState := .idle, result := .error e, busy := false
      trace := s.trace ++ [.state .idle, .result .init (.error e)] } := by
  simp [abort_eq, h, imageCommand_of_isBringUp h]

/-- An abort of another image leaves `STATE` as it was. -/
theorem abort_of_not_isBringUp {s : State} (h : isBringUp s.romsel = false) (e : ErrorCode) :
    abort e s = { s with
      result := .error e, busy := false
      trace := s.trace ++ [.result (imageCommand s.romsel) (.error e)] } := by
  simp [abort_eq, h]

/-! ### The micro-operations of ROM_EXIT -/

/-- Where every word has an instruction, a word of the image decodes to an instruction of the list. -/
theorem mem_of_map_decodeUop_eq {ws : List UopWord} {is : List Instr} (h : ws.map decodeUop = is.map some)
    {w : UopWord} {i : Instr} (hw : w ∈ ws) (hi : decodeUop w = some i) : i ∈ is := by
  have hmem : some i ∈ is.map some := h ▸ hi ▸ List.mem_map_of_mem hw
  simpa using hmem

/-- ROM_EXIT has micro-operations of four kinds, none of which can raise an error (R251). -/
theorem exitInstrs_cases {b : Bool} {i : Instr} (h : i ∈ exitInstrs b) :
    (∃ st, i = .setst st) ∨ (∃ l, i = .rsta l) ∨ i = .clkdis ∨ i = .endOp := by
  simp only [exitInstrs, List.mem_cons, List.mem_append, List.mem_map, List.not_mem_nil, or_false] at h
  rcases h with rfl | ⟨l, -, rfl⟩ | rfl | rfl | rfl
  · exact .inl ⟨_, rfl⟩
  · exact .inr (.inl ⟨l, rfl⟩)
  · exact .inr (.inr (.inl rfl))
  · exact .inl ⟨_, rfl⟩
  · exact .inr (.inr (.inr rfl))

@[simp] theorem driveLine_busy (l : ResetLine) (b : Bool) (s : State) : (driveLine l b s).busy = s.busy := by
  rw [driveLine_frame]

/-- A micro-operation of ROM_EXIT leaves `BUSY`, but for the END, whose result is OK. -/
theorem exec_exitInstrs {b : Bool} {i : Instr} (h : i ∈ exitInstrs b) (s : State) :
    ∃ t, exec i s = .next t ∧ (t.busy = s.busy ∨ t.result = .ok) := by
  rcases exitInstrs_cases h with ⟨st, rfl⟩ | ⟨l, rfl⟩ | rfl | rfl
  · exact ⟨_, exec_setst st s, .inl rfl⟩
  · exact ⟨_, exec_rsta l s, .inl (driveLine_busy l true s)⟩
  · exact ⟨_, exec_clkdis s, .inl rfl⟩
  · exact ⟨_, exec_endOp s, .inr rfl⟩

/-- Settles O36: the abort of a bring-up image, the abort of ROM_CMPL, and the micro-operations of ROM_EXIT. -/
theorem abortRule : Obligations.AbortRule := by
  refine ⟨fun e s hbringUp => abort_of_isBringUp (isBringUp_eq_true_iff.mpr hbringUp) e, fun e s hcmpl => ?_,
    fun b w i s t hw hi hbusy hexec => ?_⟩
  · rw [abort_of_not_isBringUp (hcmpl ▸ rfl), hcmpl]
    rfl
  · have hmem : i ∈ exitInstrs b := mem_of_map_decodeUop_eq (romExit_map_decodeUop b) hw hi
    obtain ⟨u, hu, hends⟩ := exec_exitInstrs hmem s
    obtain rfl : u = t := Host.Outcome.next.inj (hu.symm.trans hexec)
    rwa [hbusy] at hends

end Sys2Proof.Machine

/-!
PROOFS. The round trip of the encoding (spec/30_encoding.md sections 2, 4, 6 and 8; R90). The encoder puts an operand
code at the low end of an argument and zeros above it; the decoder takes the same parts out again. So the parts of a word
that was put together are the parts it was put together from, and a word is put together from its parts: the first gives
the round trip from instructions, the second the one from words. The reserved words (R84) are the branches of the decoder
without an instruction, read as numbers.
-/

namespace Sys2Proof.Machine

/-! ### Codes -/

theorem seqStateCode_of_seqStateOf : ∀ c : BitVec 3, ∀ st ∈ seqStateOf c, seqStateCode st = c := by decide

theorem lineCode_lineOf : ∀ c : BitVec 2, lineCode (lineOf c) = c := by decide

theorem delayCode_of_delayOf : ∀ c : BitVec 2, ∀ k ∈ delayOf c, delayCode k = c := by decide

theorem timeoutOf_timeoutCode (c : TimeoutCode) : timeoutOf (timeoutCode c) = some c := by cases c <;> rfl

theorem timeoutCode_of_timeoutOf : ∀ x : BitVec 4, ∀ c ∈ timeoutOf x, timeoutCode c = x := by decide

theorem ofBool_beq_one (e : Bool) : (BitVec.ofBool e == 1#1) = e := by cases e <;> rfl

theorem ofBool_of_beq_one : ∀ b : BitVec 1, BitVec.ofBool (b == 1#1) = b := by decide

/-! ### The parts of a word -/

theorem uopWord_op (op : BitVec 4) (arg : BitVec 12) : (uopWord op arg).extractLsb' 12 4 = op :=
  BitVec.extractLsb'_append_eq_left

theorem uopWord_arg {k n : Nat} (h : k + n ≤ 12) (op : BitVec 4) (arg : BitVec 12) :
    (uopWord op arg).extractLsb' k n = arg.extractLsb' k n :=
  BitVec.extractLsb'_append_eq_of_add_le h

/-- A micro-operation word is put together from its micro-opcode and its argument. -/
theorem uopWord_of_parts {w : UopWord} {op : BitVec 4} {arg : BitVec 12} (hop : w.extractLsb' 12 4 = op)
    (harg : w.extractLsb' 0 12 = arg) : uopWord op arg = w := by
  rw [← hop, ← harg]
  exact (BitVec.extractLsb'_append_extractLsb'_eq_extractLsb' (start₁ := 0) (by decide)).trans
    BitVec.extractLsb'_eq_self

/-- The argument of a word is put together from the operand at its low end and the bits above it. -/
theorem uopArg_of_parts {w : UopWord} {a b : Nat} {hi : BitVec a} {lo : BitVec b} (hhi : w.extractLsb' b a = hi)
    (hlo : w.extractLsb' 0 b = lo) : w.extractLsb' 0 (a + b) = hi ++ lo := by
  rw [← hhi, ← hlo]
  exact (BitVec.extractLsb'_append_extractLsb'_eq_extractLsb' (Nat.zero_add b).symm).symm

/-- A command word is put together from its opcode, its target and the zeros above them. -/
theorem cmdWord_of_parts {w : CmdWord} {op : BitVec 4} {targ : BitVec 8} (hupper : w.extractLsb' 12 20 = 0#20)
    (hop : w.extractLsb' 0 4 = op) (htarg : w.extractLsb' 4 8 = targ) : cmdWord op targ = w := by
  have htop : 0#20 ++ targ = w.extractLsb' 4 28 := by
    rw [← hupper, ← htarg]
    exact BitVec.extractLsb'_append_extractLsb'_eq_extractLsb' (start₁ := 4) (by decide)
  rw [cmdWord, htop, ← hop]
  exact (BitVec.extractLsb'_append_extractLsb'_eq_extractLsb' (start₁ := 0) (by decide)).trans
    BitVec.extractLsb'_eq_self

/-! ### From an instruction to its word and back -/

theorem fieldOperand_of_wf {f : FieldId} (h : reservedFieldId f = false) (mk : FieldId → Instr) :
    fieldOperand f mk = some (mk f) := by
  rw [fieldOperand, h]
  rfl

theorem fieldOperand_eq_some {f : FieldId} {mk : FieldId → Instr} {i : Instr} (h : fieldOperand f mk = some i) :
    reservedFieldId f = false ∧ i = mk f := by
  unfold fieldOperand at h
  split at h
  · cases h
  · next hf => exact ⟨by simpa using hf, (Option.some.inj h).symm⟩

theorem decodeCmd_cmdWord_assignType (t : BitVec 8) : decodeCmd (cmdWord 0x1#4 t) = some (.assignType t) := by
  have hupper : (cmdWord 0x1#4 t).extractLsb' 12 20 = 0#20 :=
    (BitVec.extractLsb'_append_eq_of_le (by decide)).trans BitVec.extractLsb'_append_eq_left
  have hop : (cmdWord 0x1#4 t).extractLsb' 0 4 = 0x1#4 := BitVec.extractLsb'_append_eq_right
  have htarg : (cmdWord 0x1#4 t).extractLsb' 4 8 = t :=
    (BitVec.extractLsb'_append_eq_of_le (by decide)).trans BitVec.extractLsb'_append_eq_right
  simp [decodeCmd, hupper, hop, htarg]

theorem decodeUop_uopWord_wrf {f : FieldId} (hf : reservedFieldId f = false) (e : Bool) :
    decodeUop (uopWord 0x7#4 (0#3 ++ BitVec.ofBool e ++ f)) = some (.wrf f e) := by
  have hop := uopWord_op 0x7#4 (0#3 ++ BitVec.ofBool e ++ f)
  have hupper : (uopWord 0x7#4 (0#3 ++ BitVec.ofBool e ++ f)).extractLsb' 9 3 = 0#3 :=
    (uopWord_arg (by decide) _ _).trans
      ((BitVec.extractLsb'_append_eq_of_le (by decide)).trans BitVec.extractLsb'_append_eq_left)
  have henabled : (uopWord 0x7#4 (0#3 ++ BitVec.ofBool e ++ f)).extractLsb' 8 1 = BitVec.ofBool e :=
    (uopWord_arg (by decide) _ _).trans
      ((BitVec.extractLsb'_append_eq_of_le (by decide)).trans BitVec.extractLsb'_append_eq_right)
  have hfield : (uopWord 0x7#4 (0#3 ++ BitVec.ofBool e ++ f)).extractLsb' 0 8 = f :=
    (uopWord_arg (by decide) _ _).trans BitVec.extractLsb'_append_eq_right
  simp [decodeUop, hop, hupper, henabled, hfield, ofBool_beq_one, fieldOperand_of_wf hf]

theorem decodeUop_uopWord_poll {f : FieldId} (hf : reservedFieldId f = false) (c : TimeoutCode) :
    decodeUop (uopWord 0x8#4 (timeoutCode c ++ f)) = some (.poll f c) := by
  have hop := uopWord_op 0x8#4 (timeoutCode c ++ f)
  have hcode : (uopWord 0x8#4 (timeoutCode c ++ f)).extractLsb' 8 4 = timeoutCode c :=
    (uopWord_arg (by decide) _ _).trans BitVec.extractLsb'_append_eq_left
  have hfield : (uopWord 0x8#4 (timeoutCode c ++ f)).extractLsb' 0 8 = f :=
    (uopWord_arg (by decide) _ _).trans BitVec.extractLsb'_append_eq_right
  simp [decodeUop, hop, hcode, hfield, timeoutOf_timeoutCode, fieldOperand_of_wf hf]

/-- Settles O1: only a type, a field, and what stands beside a field are operands of which there are too many to list;
every other operand is one of a few codes. -/
theorem decodeOfEncode : Obligations.DecodeOfEncode := by
  intro i hi
  cases i with
  | assignType t => exact decodeCmd_cmdWord_assignType t
  | wrf f e => exact decodeUop_uopWord_wrf (by simpa [Instr.wf] using hi) e
  | poll f c => exact decodeUop_uopWord_poll (by simpa [Instr.wf] using hi) c
  | setst st => cases st <;> rfl
  | rsta l => cases l <;> rfl
  | rstd l => cases l <;> rfl
  | delay k => cases k <;> rfl
  | _ => rfl

/-! ### From a word to its instruction and back -/

theorem encode_of_decodeCmd {w : CmdWord} {i : Instr} (h : decodeCmd w = some i) :
    encode i = .cmd w ∧ i.wf = true := by
  simp only [decodeCmd] at h
  split at h
  · cases h
  · next hupper =>
    rw [not_not] at hupper
    split at h
    case h_1 hop =>
      obtain rfl := Option.some.inj h
      exact ⟨congrArg CodeWord.cmd (cmdWord_of_parts hupper (BitVec.eq_of_toNat_eq hop) rfl), rfl⟩
    case h_5 => cases h
    all_goals
      next hop =>
        split at h
        · next htarg =>
          obtain rfl := Option.some.inj h
          exact ⟨congrArg CodeWord.cmd (cmdWord_of_parts hupper (BitVec.eq_of_toNat_eq hop) htarg), rfl⟩
        · cases h

/-- A micro-operation without an operand has the argument 0 (R78). -/
theorem encode_of_noOperand {w : UopWord} {op : BitVec 4} {i j : Instr}
    (h : (if w.extractLsb' 0 12 = 0#12 then some j else none) = some i)
    (hencode : encode j = .uop (uopWord op 0#12)) (hwf : j.wf = true)
    (hop : (w.extractLsb' 12 4).toNat = op.toNat) : encode i = .uop w ∧ i.wf = true := by
  split at h
  · next harg =>
    obtain rfl := Option.some.inj h
    exact ⟨hencode.trans (congrArg CodeWord.uop (uopWord_of_parts (BitVec.eq_of_toNat_eq hop) harg)), hwf⟩
  · cases h

theorem encode_of_decodeUop {w : UopWord} {i : Instr} (h : decodeUop w = some i) :
    encode i = .uop w ∧ i.wf = true := by
  unfold decodeUop at h
  split at h
  case h_1 hop | h_5 hop | h_6 hop | h_10 hop =>
    exact encode_of_noOperand h rfl rfl hop
  case h_11 => cases h
  case h_2 hop =>
    split at h
    · next hupper =>
      obtain ⟨st, hst, rfl⟩ := Option.map_eq_some_iff.1 h
      have harg := uopArg_of_parts hupper (seqStateCode_of_seqStateOf _ st hst).symm
      exact ⟨congrArg CodeWord.uop (uopWord_of_parts (BitVec.eq_of_toNat_eq hop) harg), rfl⟩
    · cases h
  case h_3 hop | h_4 hop =>
    split at h
    · next hupper =>
      obtain rfl := Option.some.inj h
      have harg := uopArg_of_parts hupper (lineCode_lineOf _).symm
      exact ⟨congrArg CodeWord.uop (uopWord_of_parts (BitVec.eq_of_toNat_eq hop) harg), rfl⟩
    · cases h
  case h_7 hop =>
    split at h
    · next hupper =>
      obtain ⟨k, hk, rfl⟩ := Option.map_eq_some_iff.1 h
      have harg := uopArg_of_parts hupper (delayCode_of_delayOf _ k hk).symm
      exact ⟨congrArg CodeWord.uop (uopWord_of_parts (BitVec.eq_of_toNat_eq hop) harg), rfl⟩
    · cases h
  case h_8 hop =>
    split at h
    · next hupper =>
      obtain ⟨hf, rfl⟩ := fieldOperand_eq_some h
      have htop : w.extractLsb' 8 4 = 0#3 ++ BitVec.ofBool (w.extractLsb' 8 1 == 1#1) := by
        rw [ofBool_of_beq_one, ← hupper]
        exact (BitVec.extractLsb'_append_extractLsb'_eq_extractLsb' (start₁ := 8) (len₁ := 1) rfl).symm
      exact ⟨congrArg CodeWord.uop (uopWord_of_parts (BitVec.eq_of_toNat_eq hop) (uopArg_of_parts htop rfl)),
        by simpa [Instr.wf] using hf⟩
    · cases h
  case h_9 hop =>
    split at h
    · next c hc =>
      obtain ⟨hf, rfl⟩ := fieldOperand_eq_some h
      have harg := uopArg_of_parts (timeoutCode_of_timeoutOf _ c hc).symm (rfl : w.extractLsb' 0 8 = _)
      exact ⟨congrArg CodeWord.uop (uopWord_of_parts (BitVec.eq_of_toNat_eq hop) harg), by simpa [Instr.wf] using hf⟩
    · cases h

/-- Settles O2: the two formats. -/
theorem encodeOfDecode : Obligations.EncodeOfDecode
  | .cmd _, _, h => encode_of_decodeCmd h
  | .uop _, _, h => encode_of_decodeUop h

/-! ### The reserved micro-operation words -/

section parts

variable (w : UopWord)

theorem uopOp_toNat : (w.extractLsb' 12 4).toNat = w.toNat / 4096 := by
  have hw := w.isLt
  simp only [BitVec.extractLsb'_toNat, Nat.shiftRight_eq_div_pow]
  omega

/-- The bits of the argument above the lowest `b` are 0 when the argument is below `2 ^ b`. -/
theorem uopUpper_eq_zero_iff {a b : Nat} (hab : a + b = 12) : w.extractLsb' b a = 0#a ↔ w.toNat % 4096 < 2 ^ b := by
  have hsplit : (w.extractLsb' b a).toNat = w.toNat % 4096 / 2 ^ b := by
    have hwidth : 4096 = 2 ^ b * 2 ^ a := by rw [← Nat.pow_add, Nat.add_comm, hab]
    rw [BitVec.extractLsb'_toNat, Nat.shiftRight_eq_div_pow, hwidth, Nat.mod_mul_right_div_self]
  rw [BitVec.toNat_eq, hsplit, BitVec.toNat_ofNat, Nat.zero_mod, Nat.div_eq_zero_iff_lt (Nat.two_pow_pos b)]

theorem uopLow_toNat {b : Nat} (hb : b ≤ 12) : (w.extractLsb' 0 b).toNat = w.toNat % 4096 % 2 ^ b := by
  rw [BitVec.extractLsb'_toNat, Nat.shiftRight_zero, show 4096 = 2 ^ 12 from rfl,
    Nat.mod_mod_of_dvd _ (Nat.pow_dvd_pow 2 hb)]

end parts

theorem seqStateOf_eq_none_iff : ∀ c : BitVec 3, seqStateOf c = none ↔ 7 ≤ c.toNat := by decide

theorem delayOf_eq_none_iff : ∀ c : BitVec 2, delayOf c = none ↔ 3 ≤ c.toNat := by decide

theorem timeoutOf_eq_none_iff : ∀ c : BitVec 4, timeoutOf c = none ↔ c.toNat ≠ 5 ∧ c.toNat ≠ 6 := by decide

theorem reservedFieldId_iff (f : FieldId) :
    reservedFieldId f = true ↔ f.toNat = 0 ∨ (0x12 ≤ f.toNat ∧ f.toNat ≤ 0x1F) := by
  simp [reservedFieldId]

theorem fieldOperand_eq_none_iff (f : FieldId) (mk : FieldId → Instr) :
    fieldOperand f mk = none ↔ reservedFieldId f = true := by
  cases h : reservedFieldId f <;> simp [fieldOperand, h]

/-- The words without an instruction (R84), one alternative for each group of micro-opcodes. -/
theorem decodeUop_eq_none_iff (w : UopWord) :
    decodeUop w = none ↔
      10 ≤ w.toNat / 4096 ∨
        ((w.toNat / 4096 = 0 ∨ w.toNat / 4096 = 4 ∨ w.toNat / 4096 = 5 ∨ w.toNat / 4096 = 9) ∧ w.toNat % 4096 ≠ 0) ∨
        (w.toNat / 4096 = 1 ∧ 7 ≤ w.toNat % 4096) ∨
        ((w.toNat / 4096 = 2 ∨ w.toNat / 4096 = 3) ∧ 4 ≤ w.toNat % 4096) ∨
        (w.toNat / 4096 = 6 ∧ 3 ≤ w.toNat % 4096) ∨
        (w.toNat / 4096 = 7 ∧
          (512 ≤ w.toNat % 4096 ∨ w.toNat % 256 = 0 ∨ (0x12 ≤ w.toNat % 256 ∧ w.toNat % 256 ≤ 0x1F))) ∨
        (w.toNat / 4096 = 8 ∧
          ((w.toNat % 4096 / 256 ≠ 5 ∧ w.toNat % 4096 / 256 ≠ 6) ∨
            w.toNat % 256 = 0 ∨ (0x12 ≤ w.toNat % 256 ∧ w.toNat % 256 ≤ 0x1F))) := by
  have hcode : (w.extractLsb' 8 4).toNat = w.toNat % 4096 / 256 := by
    rw [BitVec.extractLsb'_toNat, Nat.shiftRight_eq_div_pow]
    omega
  have hfield : reservedFieldId (w.extractLsb' 0 8) = true ↔
      w.toNat % 256 = 0 ∨ (0x12 ≤ w.toNat % 256 ∧ w.toNat % 256 ≤ 0x1F) := by
    rw [reservedFieldId_iff, uopLow_toNat w (by decide), show w.toNat % 4096 % 2 ^ 8 = w.toNat % 256 by omega]
  unfold decodeUop
  rw [uopOp_toNat]
  split
  case h_1 hop | h_5 hop | h_6 hop | h_10 hop =>
    rw [ite_eq_right_iff, BitVec.toNat_eq, uopLow_toNat w (by decide)]
    simp only [reduceCtorEq, imp_false, BitVec.toNat_ofNat]
    omega
  case h_2 hop =>
    split <;> rename_i hupper <;> rw [uopUpper_eq_zero_iff w rfl] at hupper
    · rw [Option.map_eq_none_iff, seqStateOf_eq_none_iff, uopLow_toNat w (by decide)]
      omega
    · exact iff_of_true rfl (by omega)
  case h_3 hop | h_4 hop =>
    rw [ite_eq_right_iff, uopUpper_eq_zero_iff w rfl]
    simp only [reduceCtorEq, imp_false]
    omega
  case h_7 hop =>
    split <;> rename_i hupper <;> rw [uopUpper_eq_zero_iff w rfl] at hupper
    · rw [Option.map_eq_none_iff, delayOf_eq_none_iff, uopLow_toNat w (by decide)]
      omega
    · exact iff_of_true rfl (by omega)
  case h_8 hop =>
    split <;> rename_i hupper <;> rw [uopUpper_eq_zero_iff w rfl] at hupper
    · rw [fieldOperand_eq_none_iff, hfield]
      omega
    · exact iff_of_true rfl (by omega)
  case h_9 hop =>
    have htimeout := timeoutOf_eq_none_iff (w.extractLsb' 8 4)
    rw [hcode] at htimeout
    split
    · next c hc =>
      have hlegal := htimeout.not.1 (by simp [hc])
      rw [fieldOperand_eq_none_iff, hfield]
      omega
    · next hc =>
      have hillegal := htimeout.1 hc
      exact iff_of_true rfl (by omega)
  case h_11 h0 h1 h2 h3 h4 h5 h6 h7 h8 h9 =>
    rw [imp_false] at h0 h1 h2 h3 h4 h5 h6 h7 h8 h9
    exact iff_of_true rfl (.inl (by omega))

/-- Settles O4: the decoder's branches without an instruction. -/
theorem reservedMicroOpWordsInvalid : Obligations.ReservedMicroOpWordsInvalid := decodeUop_eq_none_iff

/-- Settles O5: each word by its parts. -/
theorem specWordsDecode : Obligations.SpecWordsDecode := by
  unfold Obligations.SpecWordsDecode
  decide

/-! ### Assembler lines -/

theorem mem_of_lookup_eq_some {α : Type} {names : List (String × α)} {s : String} {x : α}
    (h : names.lookup s = some x) : (s, x) ∈ names := by
  obtain ⟨l₁, l₂, rfl, -⟩ := List.lookup_eq_some_iff.1 h
  simp

/-- No name of R80 stands for a reserved identifier. -/
theorem not_reserved_of_mem_fieldNames : ∀ p ∈ fieldNames, reservedFieldId p.2 = false := by decide

/-- A field operand never names a reserved identifier, whichever of its two forms it has (R84, R88). -/
theorem not_reserved_of_argField {a : AsmArg} {f : FieldId} (h : argField a = some f) :
    reservedFieldId f = false := by
  cases a with
  | name s => exact not_reserved_of_mem_fieldNames (s, f) (mem_of_lookup_eq_some h)
  | hash n => simpa using (Option.filter_eq_some_iff.1 h).2
  | digit n => cases h

/-- The instructions a line stands for are well formed: those without a field always, those with one by its operand. -/
theorem wf_of_assemble {m : String} {args : List AsmArg} {is : List Instr} (h : assemble m args = some is) :
    ∀ i ∈ is, i.wf = true := by
  unfold assemble at h
  split at h
  case h_2 | h_3 | h_4 | h_5 | h_9 | h_10 | h_12 | h_16 =>
    obtain rfl := Option.some.inj h
    exact List.forall_mem_singleton.2 rfl
  case h_1 | h_6 | h_7 | h_8 | h_11 =>
    obtain ⟨x, -, rfl⟩ := Option.map_eq_some_iff.1 h
    exact List.forall_mem_singleton.2 rfl
  case h_13 =>
    obtain ⟨f, hf, h⟩ := Option.bind_eq_some_iff.1 h
    obtain ⟨e, -, rfl⟩ := Option.map_eq_some_iff.1 h
    simp [Instr.wf, not_reserved_of_argField hf]
  case h_14 =>
    obtain ⟨f, hf, h⟩ := Option.bind_eq_some_iff.1 h
    obtain ⟨g, hg, rfl⟩ := Option.map_eq_some_iff.1 h
    simp [Instr.wf, not_reserved_of_argField hf, not_reserved_of_argField hg]
  case h_15 =>
    obtain ⟨f, hf, h⟩ := Option.bind_eq_some_iff.1 h
    obtain ⟨c, -, rfl⟩ := Option.map_eq_some_iff.1 h
    simp [Instr.wf, not_reserved_of_argField hf]
  case h_17 => cases h

/-- Settles O6: the operands of a line, and the two pseudo-instructions. -/
theorem assembledLinesAreWellFormed : Obligations.AssembledLinesAreWellFormed := by
  refine ⟨fun _ _ _ h => wf_of_assemble h, fun a b f g hf hg => ?_, rfl⟩
  simp [assemble, hf, hg]

end Sys2Proof.Machine

/-!
PROOFS. What an instruction can do, said once. A host command ends in the step that accepts it, or starts an image; a
micro-operation other than END completes and advances, or raises an error and aborts. What it has done to the state by
then is one effect, in terms of which every rule over all instructions (spec/10_state.md sections 2, 4 and 6;
spec/46_host_commands.md section 3) is read off.
-/

namespace Sys2Proof.Machine

/-! ### Commands -/

theorem accept_of_busy {s : State} (hb : s.busy = true) (k : State → Result) :
    accept s k = .refused .commandWhileBusy := by
  rw [accept, if_pos hb]

theorem exec_command_of_busy {i : Instr} {s : State} (hi : i.isCommand = true) (hb : s.busy = true) :
    exec i s = .refused .commandWhileBusy := by
  cases i with
  | assignType t => rw [exec, execAssignType, accept_of_busy hb]
  | init => rw [exec, execInit, accept_of_busy hb]
  | exit => rw [exec, execExit, accept_of_busy hb]
  | complianceTest => rw [exec, execComplianceTest, accept_of_busy hb]
  | _ => cases hi

/-- Settles O12: acceptance is the first thing each of the four does. -/
theorem commandsRefusedWhileBusy : Obligations.CommandsRefusedWhileBusy := fun _ _ hi hb =>
  exec_command_of_busy hi hb

theorem requestedType_eq_some_iff {t : BitVec 8} {p : ProtoType} :
    requestedType t = some p ↔ (t = 0x02#8 ∧ p = .pcie) ∨ (t = 0x04#8 ∧ p = .usb3) := by
  unfold requestedType
  split
  · next h => simp [h, eq_comm]
  · split
    · next h => simp [h, eq_comm]
    · next h2 h4 => simp [h2, h4]

/-- The command runs the image (R223, R225, R226). -/
inductive Starts (s : State) : Instr → RomSel → Prop
  | init (htyped : s.protoType ≠ .unassigned) (hready : s.seqState ≠ .ready) :
      Starts s .init (bringUpImage s.protoType)
  | exit : Starts s .exit .exit
  | complianceTest (htype : s.protoType = .usb3) (hhook : s.cfg.variant.cmplHook = true) :
      Starts s .complianceTest .cmpl

/-- What a command that is accepted can do: end, with or without the type recorded, or start an image. -/
theorem exec_command_cases {i : Instr} {s t : State} (hi : i.isCommand = true) (h : exec i s = .next t) :
    s.busy = false ∧
      ((∃ cmd code, t = finish cmd code s) ∨
        (∃ x p, i = .assignType x ∧ requestedType x = some p ∧ s.protoType = .unassigned ∧
          t = finish .assignType .ok { s with protoType := p }) ∨
        ∃ r, Starts s i r ∧ t = startImage r s) := by
  have hb : s.busy = false := by
    by_contra hbusy
    rw [exec_command_of_busy hi (by simpa using hbusy)] at h
    cases h
  refine ⟨hb, ?_⟩
  cases i with
  | assignType x =>
    cases hx : requestedType x with
    | none =>
      rw [exec_assignType_of_unsupported hb hx] at h
      exact .inl ⟨_, _, (Host.Outcome.next.inj h).symm⟩
    | some p =>
      rw [exec_assignType_of_supported hb hx] at h
      obtain rfl := Host.Outcome.next.inj h
      split_ifs with hfirst hsame
      · exact .inr (.inl ⟨x, p, rfl, hx, hfirst, rfl⟩)
      · exact .inl ⟨_, _, rfl⟩
      · exact .inl ⟨_, _, rfl⟩
  | init =>
    rw [exec_init_of_idle hb] at h
    split_ifs at h with htyped hready
    · exact .inl ⟨_, _, (Host.Outcome.next.inj h).symm⟩
    · exact .inr (.inr ⟨_, .init htyped hready, (Host.Outcome.next.inj h).symm⟩)
  | exit =>
    rw [exec_exit_of_idle hb] at h
    exact .inr (.inr ⟨_, .exit, (Host.Outcome.next.inj h).symm⟩)
  | complianceTest =>
    rw [exec_complianceTest_of_idle hb] at h
    obtain rfl := Host.Outcome.next.inj h
    split_ifs with htype hhook
    · exact .inl ⟨_, _, rfl⟩
    · exact .inr (.inr ⟨_, .complianceTest (not_not.1 htype) hhook, rfl⟩)
    · exact .inl ⟨_, _, rfl⟩
  | _ => cases hi

/-! ### The effect of a micro-operation -/

/-- The events a micro-operation can show before it ends; END shows none but its result. -/
def UopEvent : Instr → Event → Prop
  | .setst st, ev => ev = .state st
  | .rsta l, ev => ev = .rst l true
  | .rstd l, ev => ev = .rst l false
  | .clken, ev => ev = .clk true ∨ ev = .clkFail
  | .clkdis, ev => ev = .clk false
  | .delay _, ev => ∃ kind us, ev = .delay kind us
  | .wrf _ _, ev => ∃ a w r, ev = .wr a w r
  | .poll _ _, ev => (∃ a r, ev = .rd a r) ∨ ∃ kind us, ev = .delay kind us
  | .hook, ev => ∃ a w r, ev = .wr a w r
  | _, _ => False

/-- What a micro-operation drives a line to, if it drives it. -/
def lineDriven (l : ResetLine) : Instr → Option Bool
  | .rsta k => if k = l then some true else none
  | .rstd k => if k = l then some false else none
  | _ => none

/-- What a micro-operation sets the clock request to, if it does. -/
def clockDriven : Instr → Option Bool
  | .clken => some true
  | .clkdis => some false
  | _ => none

theorem drives_of_decodeUop {w : UopWord} {i : Instr} (h : decodeUop w = some i) (l : ResetLine) :
    drives w l = lineDriven l i := by
  cases i <;> simp only [drives, h] <;> rfl

theorem drivesClock_of_decodeUop {w : UopWord} {i : Instr} (h : decodeUop w = some i) :
    drivesClock w = clockDriven i := by
  cases i <;> simp only [drivesClock, h] <;> rfl

/-- `STATE` after a micro-operation that completes. -/
def stateAfter : Instr → SeqState → SeqState
  | .setst st, _ => st
  | _, st => st

/-- What a micro-operation does to the state, however it ends. -/
structure UopEffect (i : Instr) (s u : State) : Prop where
  frame : u = { s with
    seqState := u.seqState, clkEn := u.clkEn, rst := u.rst, regs := u.regs, pollT0 := u.pollT0, pollN := u.pollN
    hookIdx := u.hookIdx, hookSub := u.hookSub, trace := u.trace, now := u.now, env := u.env }
  canonical : widthsWf s.cfg.widths = true → memoryWf s.cfg.widths s.regs = true →
    memoryWf s.cfg.widths u.regs = true
  regs : (∀ f e, i ≠ .wrf f e) → i ≠ .hook → u.regs = s.regs
  events : ∃ evs, u.trace = s.trace ++ evs ∧ ∀ ev ∈ evs, UopEvent i ev
  time : s.now ≤ u.now

/-- A micro-operation that completes has driven what it drives and nothing else. -/
structure UopDone (i : Instr) (s u : State) : Prop extends UopEffect i s u where
  seqState : u.seqState = stateAfter i s.seqState
  clock : u.clkEn = (clockDriven i).getD s.clkEn
  lines : ∀ l, getLine u.rst l = (getLine s.rst l).map fun level => (lineDriven l i).getD level

/-- A micro-operation that raises an error has driven nothing. -/
structure UopRaised (i : Instr) (s u : State) : Prop extends UopEffect i s u where
  seqState : u.seqState = s.seqState
  clock : u.clkEn = s.clkEn
  lines : u.rst = s.rst

section effect

variable {i : Instr} {s u : State}

theorem UopEffect.protoType (h : UopEffect i s u) : u.protoType = s.protoType := by rw [h.frame]
theorem UopEffect.result (h : UopEffect i s u) : u.result = s.result := by rw [h.frame]
theorem UopEffect.busy (h : UopEffect i s u) : u.busy = s.busy := by rw [h.frame]
theorem UopEffect.romsel (h : UopEffect i s u) : u.romsel = s.romsel := by rw [h.frame]
theorem UopEffect.upc (h : UopEffect i s u) : u.upc = s.upc := by rw [h.frame]
theorem UopEffect.cfg (h : UopEffect i s u) : u.cfg = s.cfg := by rw [h.frame]
theorem UopEffect.rom (h : UopEffect i s u) : u.rom = s.rom := by rw [h.frame]
theorem UopEffect.hostCmds (h : UopEffect i s u) : u.hostCmds = s.hostCmds := by rw [h.frame]

end effect

/-! ### The effects of WRF, HOOK and POLL -/

/-- What a list of hook writes does is what WRF and HOOK do. -/
theorem uopEffect_of_hookEffect {ids : List FieldId} {i : Instr} {s u : State} (h : HookEffect ids s u)
    (hi : (∃ f e, i = .wrf f e) ∨ i = .hook) : UopEffect i s u where
  frame := by rw [h.frame]
  canonical := h.canonical
  regs hw hh := by
    rcases hi with ⟨f, e, rfl⟩ | rfl
    · exact absurd rfl (hw f e)
    · exact absurd rfl hh
  events := by
    rcases hi with ⟨f, e, rfl⟩ | rfl
    · exact h.events
    · exact h.events
  time := by rw [h.frame]

theorem uopEffect_of_pollEffect {fld : RegisterField} {f : FieldId} {c : TimeoutCode} {s u : State}
    (h : PollEffect fld s u) : UopEffect (.poll f c) s u where
  frame := by rw [h.frame]
  canonical _ hm := by rwa [h.frame]
  regs _ _ := by rw [h.frame]
  events := by
    obtain ⟨evs, htrace, hevs⟩ := h.events
    refine ⟨evs, htrace, fun ev hev => ?_⟩
    rcases hevs ev hev with ⟨r, rfl⟩ | ⟨us, rfl⟩
    · exact .inl ⟨_, _, rfl⟩
    · exact .inr ⟨_, _, rfl⟩
  time := h.time

theorem UopEffect.trans {i : Instr} {s t u : State} (h : UopEffect i s t) (h' : UopEffect i t u) :
    UopEffect i s u where
  frame := by rw [h'.frame, h.frame]
  canonical hn hm := by
    have hcanonical := h'.canonical
    rw [h.cfg] at hcanonical
    exact hcanonical hn (h.canonical hn hm)
  regs hw hh := (h'.regs hw hh).trans (h.regs hw hh)
  events := by
    obtain ⟨evs, htrace, hevs⟩ := h.events
    obtain ⟨evs', htrace', hevs'⟩ := h'.events
    refine ⟨evs ++ evs', by rw [htrace', htrace, List.append_assoc], fun ev hev => ?_⟩
    exact (List.mem_append.1 hev).elim (hevs ev) (hevs' ev)
  time := h.time.trans h'.time

/-- A change of nothing but scratch state, the time and the answers left to draw. -/
theorem uopEffect_of_scratch (i : Instr) (s : State) {a b c d n : Nat} (hn : s.now ≤ n) (env : Draws) :
    UopEffect i s { s with pollT0 := a, pollN := b, hookIdx := c, hookSub := d, now := n, env := env } where
  frame := rfl
  canonical _ hm := hm
  regs _ _ := rfl
  events := ⟨[], (List.append_nil _).symm, by simp⟩
  time := hn


/-! ### Every micro-operation -/

/-- A micro-operation that touches no output completes, or raises an error, with what its effect says. -/
theorem UopEffect.done {i : Instr} {s u : State} (h : UopEffect i s u) (hstate : u.seqState = stateAfter i s.seqState)
    (hclock : u.clkEn = s.clkEn) (hnoClock : clockDriven i = none) (hlines : u.rst = s.rst)
    (hnoLine : ∀ l, lineDriven l i = none) : UopDone i s u where
  toUopEffect := h
  seqState := hstate
  clock := by rw [hclock, hnoClock, Option.getD_none]
  lines l := by
    rw [hlines, hnoLine l]
    simp

theorem uopDone_setst (st : SeqState) (s : State) :
    UopDone (.setst st) s (emit (.state st) { s with seqState := st }) :=
  UopEffect.done
    { frame := rfl
      canonical := fun _ hm => hm
      regs := fun _ _ => rfl
      events := ⟨[.state st], rfl, by simp [UopEvent]⟩
      time := Nat.le_refl _ } rfl rfl rfl rfl fun _ => rfl

theorem uopDone_delay (k : DelayKind) (s : State) : UopDone (.delay k) s (wait (delayWait k) (delayUs s.cfg k) s) :=
  UopEffect.done
    { frame := rfl
      canonical := fun _ hm => hm
      regs := fun _ _ => rfl
      events := ⟨[_], rfl, by simp [UopEvent]⟩
      time := Nat.le_add_right _ _ } rfl rfl rfl rfl fun _ => rfl

theorem uopEffect_clken (ev : Event) (hev : UopEvent .clken ev) (on : Bool) (s : State) :
    UopEffect .clken s (emit ev { s with env := (nextClock s.env).2, clkEn := on }) where
  frame := rfl
  canonical _ hm := hm
  regs _ _ := rfl
  events := ⟨[ev], rfl, by simpa using hev⟩
  time := Nat.le_refl _

theorem uopDone_clkdis (s : State) : UopDone .clkdis s (emit (.clk false) { s with clkEn := false }) where
  frame := rfl
  canonical _ hm := hm
  regs _ _ := rfl
  events := ⟨[_], rfl, by simp [UopEvent]⟩
  time := Nat.le_refl _
  seqState := rfl
  clock := rfl
  lines l := by simp [lineDriven]

theorem uopEffect_driveLine {i : Instr} {l : ResetLine} {b : Bool} (hev : UopEvent i (.rst l b)) (s : State) :
    UopEffect i s (driveLine l b s) where
  frame := by rw [driveLine_frame]
  canonical _ hm := by rwa [driveLine_frame]
  regs _ _ := by rw [driveLine_frame]
  events := by
    refine ⟨_, driveLine_trace l b s, fun ev h => ?_⟩
    split at h
    · exact List.mem_singleton.1 h ▸ hev
    · cases h
  time := by rw [driveLine_frame]

theorem uopDone_driveLine {i : Instr} {l : ResetLine} {b : Bool} (hev : UopEvent i (.rst l b))
    (hstate : ∀ st, stateAfter i st = st) (hclock : clockDriven i = none)
    (hline : ∀ k, lineDriven k i = if l = k then some b else none) (s : State) : UopDone i s (driveLine l b s) where
  toUopEffect := uopEffect_driveLine hev s
  seqState := by rw [driveLine_frame, hstate]
  clock := by rw [driveLine_frame, hclock, Option.getD_none]
  lines k := by
    rw [getLine_driveLine, hline]
    by_cases hk : k = l
    · simp [hk]
    · simp [hk, Ne.symm hk]

theorem uopDone_rsta (l : ResetLine) (s : State) : UopDone (.rsta l) s (driveLine l true s) :=
  uopDone_driveLine (i := .rsta l) rfl (fun _ => rfl) rfl (fun _ => rfl) s

theorem uopDone_rstd (l : ResetLine) (s : State) : UopDone (.rstd l) s (driveLine l false s) :=
  uopDone_driveLine (i := .rstd l) rfl (fun _ => rfl) rfl (fun _ => rfl) s

/-- How WRF and HOOK end: after writes, completed or with an error. -/
theorem uop_of_hookAct {ids : List FieldId} {i : Instr} {s t : State} {a : Act} (ha : HookAct ids s a)
    (hi : (∃ f e, i = .wrf f e) ∨ i = .hook) (h : complete a = .next t) :
    (∃ u, UopDone i s u ∧ t = advance u) ∨ ∃ e u, UopRaised i s u ∧ t = abort e u := by
  have hstate : stateAfter i s.seqState = s.seqState := by rcases hi with ⟨f, e, rfl⟩ | rfl <;> rfl
  have hclock : clockDriven i = none := by rcases hi with ⟨f, e, rfl⟩ | rfl <;> rfl
  have hline : ∀ l, lineDriven l i = none := by rcases hi with ⟨f, e, rfl⟩ | rfl <;> exact fun _ => rfl
  rcases ha with ⟨u, rfl, hu⟩ | ⟨e, u, rfl, hu⟩ | ⟨r, rfl, -⟩
  · have heffect := uopEffect_of_hookEffect hu hi
    refine .inl ⟨u, heffect.done ?_ ?_ hclock ?_ hline, (Host.Outcome.next.inj h).symm⟩
    · rw [hu.frame, hstate]
    · rw [hu.frame]
    · rw [hu.frame]
  · refine .inr ⟨e, u, ⟨uopEffect_of_hookEffect hu hi, ?_, ?_, ?_⟩, (Host.Outcome.next.inj h).symm⟩
    · rw [hu.frame]
    · rw [hu.frame]
    · rw [hu.frame]
  · cases h

theorem hookEffect_leaveHook (ids : List FieldId) (s : State) : HookEffect ids s (leaveHook s) where
  frame := rfl
  events := ⟨[], (List.append_nil _).symm, by simp⟩
  canonical := fun _ h => h
  outside := fun _ _ => rfl

/-- The whole of a hook, from its start to its end, is a list of hook writes. -/
theorem hookAct_hook {s : State} {hook : TuneHook} (h : s.cfg.variant.tuneHook = some hook) :
    HookAct ((hookWrites s.cfg.variant).map (·.field)) s
      (onState leaveHook (runHookSteps (hookSteps hook s.protoType) { s with hookIdx := 0 })) := by
  have hstart := hookEffect_hookIdx ((hookWrites s.cfg.variant).map (·.field)) s 0
  rcases hookAct_mono (hookAct_runHookSteps (hookSteps hook s.protoType) { s with hookIdx := 0 })
      (hookSteps_subset h s.protoType) with ⟨u, hu, he⟩ | ⟨e, u, hu, he⟩ | ⟨r, hu, hfault⟩
  · exact .inl ⟨leaveHook u, by rw [hu, onState_done],
      hookEffect_trans (hookEffect_trans hstart he) (hookEffect_leaveHook _ u)⟩
  · exact .inr (.inl ⟨e, leaveHook u, by rw [hu, onState_raised],
      hookEffect_trans (hookEffect_trans hstart he) (hookEffect_leaveHook _ u)⟩)
  · exact .inr (.inr ⟨r, by rw [hu, onState_fault], hfault⟩)

theorem uopEffect_enterPoll (i : Instr) (s : State) : UopEffect i s (enterPoll s) :=
  uopEffect_of_scratch i s (Nat.le_add_right _ _) _

theorem uopEffect_leavePoll (i : Instr) (s : State) : UopEffect i s (leavePoll s) :=
  uopEffect_of_scratch i s (Nat.le_refl _) _

/-- What a POLL that answers a next state can do: end with the read that matched, or with an error. -/
theorem exec_poll_cases {f : FieldId} {c : TimeoutCode} {s t : State} (h : exec (.poll f c) s = .next t) :
    ∃ fld, lookupField s.cfg.variant f = some fld ∧
      ((∃ u w evs, PollEffect fld (enterPoll s) u ∧ fieldMatches fld w = true ∧
          u.trace = s.trace ++ evs ++ [.rd fld.offset (.word w)] ∧ (∀ ev ∈ evs, PollEvent fld ev) ∧
          t = advance (leavePoll u)) ∨
        ∃ u e, PollEffect fld (enterPoll s) u ∧ t = abort e (leavePoll u)) := by
  rw [exec, execPoll] at h
  rcases withField_cases f s fun fld => onState leavePoll (pollLoop fld c (pollFuel s) (enterPoll s)) with
    ⟨r, -, hstop⟩ | ⟨fld, hl, -, -, hgo⟩
  · rw [hstop] at h
    cases h
  · rw [hgo] at h
    refine ⟨fld, hl, ?_⟩
    rcases pollLoop_cases fld c (pollFuel s) (enterPoll s) with hloop | ⟨u, w, evs, hloop, he, hm, htrace, hevs⟩ |
      ⟨u, e, hloop, he, -⟩
    · rw [hloop] at h
      cases h
    · rw [hloop] at h
      exact .inl ⟨u, w, evs, he, hm, htrace, hevs, (Host.Outcome.next.inj h).symm⟩
    · rw [hloop] at h
      exact .inr ⟨u, e, he, (Host.Outcome.next.inj h).symm⟩

theorem uopEffect_poll {fld : RegisterField} {f : FieldId} {c : TimeoutCode} {s u : State}
    (h : PollEffect fld (enterPoll s) u) : UopEffect (.poll f c) s (leavePoll u) :=
  ((uopEffect_enterPoll _ s).trans (uopEffect_of_pollEffect h)).trans (uopEffect_leavePoll _ u)

/-- What a micro-operation that answers a next state can do. -/
theorem exec_uop_cases {i : Instr} {s t : State} (hi : i.isCommand = false) (h : exec i s = .next t) :
    (i = .endOp ∧ t = finish (imageCommand s.romsel) .ok s) ∨
      (∃ u, UopDone i s u ∧ t = advance u) ∨ ∃ e u, UopRaised i s u ∧ t = abort e u := by
  cases i with
  | endOp => exact .inl ⟨rfl, (Host.Outcome.next.inj h).symm⟩
  | setst st => exact .inr (.inl ⟨_, uopDone_setst st s, (Host.Outcome.next.inj h).symm⟩)
  | rsta l => exact .inr (.inl ⟨_, uopDone_rsta l s, (Host.Outcome.next.inj h).symm⟩)
  | rstd l => exact .inr (.inl ⟨_, uopDone_rstd l s, (Host.Outcome.next.inj h).symm⟩)
  | clken =>
    cases hprepared : (nextClock s.env).1 with
    | true =>
      rw [exec_clken_of_prepared hprepared] at h
      refine .inr (.inl ⟨_, ⟨uopEffect_clken (.clk true) (.inl rfl) true s, rfl, rfl, fun l => ?_⟩,
        (Host.Outcome.next.inj h).symm⟩)
      simp [lineDriven]
    | false =>
      rw [exec_clken_of_unprepared hprepared] at h
      exact .inr (.inr ⟨_, _, ⟨uopEffect_clken .clkFail (.inr rfl) s.clkEn s, rfl, rfl, rfl⟩,
        (Host.Outcome.next.inj h).symm⟩)
  | clkdis => exact .inr (.inl ⟨_, uopDone_clkdis s, (Host.Outcome.next.inj h).symm⟩)
  | delay k => exact .inr (.inl ⟨_, uopDone_delay k s, (Host.Outcome.next.inj h).symm⟩)
  | wrf f e => exact .inr (uop_of_hookAct (hookAct_writeField f e s) (.inl ⟨f, e, rfl⟩) h)
  | poll f c =>
    obtain ⟨fld, -, ⟨u, w, evs, he, -, -, -, rfl⟩ | ⟨u, e, he, rfl⟩⟩ := exec_poll_cases h
    · refine .inr (.inl ⟨_, (uopEffect_poll he).done ?_ ?_ rfl ?_ fun _ => rfl, rfl⟩)
      · rw [leavePoll_seqState, he.frame]
        rfl
      · rw [leavePoll_clkEn, he.frame]
        rfl
      · rw [leavePoll_rst, he.frame]
        rfl
    · refine .inr (.inr ⟨e, _, ⟨uopEffect_poll he, ?_, ?_, ?_⟩, rfl⟩)
      · rw [leavePoll_seqState, he.frame]
        rfl
      · rw [leavePoll_clkEn, he.frame]
        rfl
      · rw [leavePoll_rst, he.frame]
        rfl
  | hook =>
    cases hhook : s.cfg.variant.tuneHook with
    | none =>
      rw [exec_hook_of_none hhook] at h
      exact .inr (.inl ⟨s, (uopEffect_of_hookEffect (hookEffect_refl [] s) (.inr rfl)).done rfl rfl rfl rfl
        fun _ => rfl, (Host.Outcome.next.inj h).symm⟩)
    | some hook =>
      rw [exec_hook_of_some hhook] at h
      exact .inr (uop_of_hookAct (hookAct_hook hhook) (.inr rfl) h)
  | _ => cases hi

/-! ### What an instruction leaves -/

theorem exec_command_frame {i : Instr} {s t : State} (hi : i.isCommand = true) (h : exec i s = .next t) :
    t = { s with
      protoType := t.protoType, result := t.result, busy := t.busy, romsel := t.romsel, upc := t.upc
      trace := t.trace } := by
  obtain ⟨-, ⟨cmd, code, rfl⟩ | ⟨x, p, -, -, -, rfl⟩ | ⟨r, -, rfl⟩⟩ := exec_command_cases hi h <;> rfl

theorem exec_uop_frame {i : Instr} {s t : State} (hi : i.isCommand = false) (h : exec i s = .next t) :
    t = { s with
      seqState := t.seqState, result := t.result, busy := t.busy, upc := t.upc, clkEn := t.clkEn, rst := t.rst
      regs := t.regs, pollT0 := t.pollT0, pollN := t.pollN, hookIdx := t.hookIdx, hookSub := t.hookSub
      trace := t.trace, now := t.now, env := t.env } := by
  rcases exec_uop_cases hi h with ⟨-, rfl⟩ | ⟨u, hu, rfl⟩ | ⟨e, u, hu, rfl⟩
  · rfl
  · rw [hu.frame]
    rfl
  · rw [abort_eq, hu.frame]

theorem exec_cfg {i : Instr} {s t : State} (h : exec i s = .next t) : t.cfg = s.cfg := by
  cases hi : i.isCommand with
  | true => rw [exec_command_frame hi h]
  | false => rw [exec_uop_frame hi h]

theorem exec_rom {i : Instr} {s t : State} (h : exec i s = .next t) : t.rom = s.rom := by
  cases hi : i.isCommand with
  | true => rw [exec_command_frame hi h]
  | false => rw [exec_uop_frame hi h]

/-- No instruction makes a line present or absent: one that drives it finds it present (R26). -/
theorem exec_getLine_isSome {i : Instr} {s t : State} (h : exec i s = .next t) (l : ResetLine) :
    (getLine t.rst l).isSome = (getLine s.rst l).isSome := by
  cases hi : i.isCommand with
  | true => rw [exec_command_frame hi h]
  | false =>
    rcases exec_uop_cases hi h with ⟨-, rfl⟩ | ⟨u, hu, rfl⟩ | ⟨e, u, hu, rfl⟩
    · rfl
    · rw [advance_rst, hu.lines, Option.isSome_map]
    · rw [abort_rst, hu.lines]

/-- Settles O40: neither kind of instruction has a part of the configuration among what it writes. -/
theorem configurationIsFixed : Obligations.ConfigurationIsFixed := fun _ _ _ h =>
  ⟨exec_cfg h, exec_rom h, exec_getLine_isSome h⟩

/-- Settles O37: the one branch of a command that records a type. -/
theorem typeIsAssignedOnce : Obligations.TypeIsAssignedOnce := by
  intro i s t h hne
  cases hi : i.isCommand with
  | false => exact absurd (by rw [exec_uop_frame hi h]) hne
  | true =>
    obtain ⟨-, ⟨cmd, code, rfl⟩ | ⟨x, p, rfl, hx, hfirst, rfl⟩ | ⟨r, -, rfl⟩⟩ := exec_command_cases hi h
    · exact absurd rfl hne
    · refine ⟨hfirst, ?_⟩
      rcases requestedType_eq_some_iff.1 hx with ⟨rfl, rfl⟩ | ⟨rfl, rfl⟩
      · exact .inl ⟨rfl, rfl⟩
      · exact .inr ⟨rfl, rfl⟩
    · exact absurd rfl hne

theorem stateAfter_cases (i : Instr) (st : SeqState) : i = .setst (stateAfter i st) ∨ stateAfter i st = st := by
  cases i with
  | setst st' => exact .inl rfl
  | _ => exact .inr rfl

/-- Settles O38: a micro-operation that completes, and the abort of a bring-up image. -/
theorem stateChangesOnlyBySetstOrAbort : Obligations.StateChangesOnlyBySetstOrAbort := by
  intro i s t h hne
  cases hi : i.isCommand with
  | true => exact absurd (by rw [exec_command_frame hi h]) hne
  | false =>
    rcases exec_uop_cases hi h with ⟨-, rfl⟩ | ⟨u, hu, rfl⟩ | ⟨e, u, hu, rfl⟩
    · exact absurd rfl hne
    · rw [advance_seqState, hu.seqState] at hne ⊢
      exact (stateAfter_cases i s.seqState).imp_right fun hsame => absurd hsame hne
    · rw [abort_seqState, hu.romsel, hu.seqState] at hne
      cases hbringUp : isBringUp s.romsel with
      | false => simp [hbringUp] at hne
      | true => exact .inr ⟨by simp [hu.romsel, hbringUp], abort_busy e u, rfl, e, abort_result e u⟩

/-- What an instruction that changes the clock request is (R174, R175). -/
theorem clockDriven_eq_some_iff {i : Instr} {on : Bool} :
    clockDriven i = some on ↔ (i = .clken ∧ on = true) ∨ (i = .clkdis ∧ on = false) := by
  cases i <;> simp [clockDriven, eq_comm]

theorem exec_clkEn {i : Instr} {s t : State} (h : exec i s = .next t) :
    t.clkEn = s.clkEn ∨ clockDriven i = some t.clkEn := by
  cases hi : i.isCommand with
  | true => exact .inl (by rw [exec_command_frame hi h])
  | false =>
    rcases exec_uop_cases hi h with ⟨-, rfl⟩ | ⟨u, hu, rfl⟩ | ⟨e, u, hu, rfl⟩
    · exact .inl rfl
    · rw [advance_clkEn, hu.clock]
      cases clockDriven i with
      | none => exact .inl rfl
      | some on => exact .inr rfl
    · exact .inl ((abort_clkEn e u).trans hu.clock)

theorem exec_regs {i : Instr} {s t : State} (h : exec i s = .next t) (hw : ∀ f e, i ≠ .wrf f e) (hh : i ≠ .hook) :
    t.regs = s.regs := by
  cases hi : i.isCommand with
  | true => rw [exec_command_frame hi h]
  | false =>
    rcases exec_uop_cases hi h with ⟨-, rfl⟩ | ⟨u, hu, rfl⟩ | ⟨e, u, hu, rfl⟩
    · rfl
    · exact hu.regs hw hh
    · exact (abort_regs e u).trans (hu.regs hw hh)

/-- Settles O41: what drives the clock request, and that the bus is written by WRF and HOOK alone. -/
theorem clockAndRegistersOnlyByTheirWriters : Obligations.ClockAndRegistersOnlyByTheirWriters := fun _ _ _ h =>
  ⟨fun hne => clockDriven_eq_some_iff.1 ((exec_clkEn h).resolve_left hne),
    fun hw hh a => by rw [exec_regs h hw hh]⟩

/-! ### The trace -/

theorem countResults_append (evs evs' : List Event) :
    countResults (evs ++ evs') = countResults evs + countResults evs' := List.countP_append

/-- No micro-operation but END shows a result. -/
theorem UopEffect.countResults {i : Instr} {s u : State} (h : UopEffect i s u) :
    countResults u.trace = countResults s.trace := by
  obtain ⟨evs, htrace, hevs⟩ := h.events
  have hnone : Machine.countResults evs = 0 := by
    refine List.countP_eq_zero.2 fun ev hev hresult => ?_
    have hkind := hevs ev hev
    split at hresult
    · cases i <;> simp [UopEvent] at hkind
    · cases hresult
  rw [htrace, countResults_append, hnone, Nat.add_zero]

theorem countResults_append_result (evs : List Event) (cmd : HostCmd) (code : ResultCode) :
    countResults (evs ++ [.result cmd code]) = countResults evs + 1 := countResults_append evs _

/-- Settles O42: an instruction leaves `BUSY` as the rule needs it: a command that starts an image and a micro-operation
that advances show no result, every other end shows one. -/
theorem oneResultPerCommand : Obligations.OneResultPerCommand := by
  intro i s t hbusy h
  cases hi : i.isCommand with
  | true =>
    obtain ⟨-, ⟨cmd, code, rfl⟩ | ⟨x, p, -, -, -, rfl⟩ | ⟨r, -, rfl⟩⟩ := exec_command_cases hi h
    · exact ⟨nofun, fun _ => ⟨countResults_append_result _ _ _, cmd, List.getLast?_concat⟩⟩
    · exact ⟨nofun, fun _ => ⟨countResults_append_result _ _ _, .assignType, List.getLast?_concat⟩⟩
    · exact ⟨fun _ => ⟨rfl, rfl⟩, nofun⟩
  | false =>
    rw [hi] at hbusy
    rcases exec_uop_cases hi h with ⟨-, rfl⟩ | ⟨u, hu, rfl⟩ | ⟨e, u, hu, rfl⟩
    · exact ⟨nofun, fun _ => ⟨countResults_append_result _ _ _, _, List.getLast?_concat⟩⟩
    · refine ⟨fun _ => ⟨hu.countResults, hu.result⟩, fun hidle => ?_⟩
      rw [advance_busy, hu.busy, hbusy] at hidle
      cases hidle
    · refine ⟨fun hrunning => ?_, fun _ => ⟨?_, ?_, ?_⟩⟩
      · rw [abort_busy] at hrunning
        cases hrunning
      · rw [abort_trace, countResults_append_result, countResults_append, hu.countResults]
        split <;> rfl
      · exact imageCommand u.romsel
      · rw [abort_trace, abort_result, List.getLast?_concat]

/-- An event is only added at the end, and the time is what the effects say. -/
theorem exec_trace_now {i : Instr} {s t : State} (h : exec i s = .next t) : s.trace <+: t.trace ∧ s.now ≤ t.now := by
  cases hi : i.isCommand with
  | true =>
    obtain ⟨-, ⟨cmd, code, rfl⟩ | ⟨x, p, -, -, -, rfl⟩ | ⟨r, -, rfl⟩⟩ := exec_command_cases hi h
    · exact ⟨⟨_, rfl⟩, Nat.le_refl _⟩
    · exact ⟨⟨_, rfl⟩, Nat.le_refl _⟩
    · exact ⟨⟨[], List.append_nil _⟩, Nat.le_refl _⟩
  | false =>
    rcases exec_uop_cases hi h with ⟨-, rfl⟩ | ⟨u, hu, rfl⟩ | ⟨e, u, hu, rfl⟩
    · exact ⟨⟨_, rfl⟩, Nat.le_refl _⟩
    · obtain ⟨evs, htrace, -⟩ := hu.events
      exact ⟨⟨evs, htrace.symm⟩, hu.time⟩
    · obtain ⟨evs, htrace, -⟩ := hu.events
      rw [abort_trace, abort_now, htrace, List.append_assoc, List.append_assoc]
      exact ⟨⟨_, rfl⟩, hu.time⟩

/-- Settles O43: the instructions, and the law of the time source. -/
theorem traceAndTimeOnlyGrow : Obligations.TraceAndTimeOnlyGrow := by
  refine ⟨fun i s t h => exec_trace_now h, fun s kind us => ⟨?_, ?_⟩⟩
  · rw [readNow_fst (readNow s).2, readNow_now]
    exact Nat.le_add_right _ _
  · rw [readNow_fst (wait kind us (readNow s).2), wait_now, readNow_now]
    exact Nat.le_add_right _ _

/-! ### The frames of POLL and HOOK -/

/-- A poll that ends, with the scratch state it leaves free, has changed the trace, the time and the draws. -/
theorem poll_frame {fld : RegisterField} {s u : State} (h : PollEffect fld (enterPoll s) u) :
    leavePoll u = { s with
      pollT0 := (leavePoll u).pollT0, pollN := (leavePoll u).pollN, trace := u.trace, now := u.now
      env := (leavePoll u).env } := by
  rw [leavePoll_frame h]
  rfl

/-- Settles O31: the two ends of a poll, after the same effect. -/
theorem pollFrame : Obligations.PollFrame := by
  intro f c s t h
  obtain ⟨fld, -, ⟨u, w, evs, he, -, -, -, rfl⟩ | ⟨u, e, he, rfl⟩⟩ := exec_poll_cases h
  · rw [poll_frame he]
    exact ⟨fun _ => rfl, rfl, rfl, rfl, rfl, rfl, rfl, rfl, rfl, rfl, .inl ⟨rfl, rfl, rfl, rfl⟩⟩
  · rw [poll_frame he, abort_eq]
    exact ⟨fun _ => rfl, rfl, rfl, rfl, rfl, rfl, rfl, rfl, rfl, rfl, .inr ⟨rfl, rfl, ⟨e, rfl⟩, rfl⟩⟩

/-- Settles O35: without a hook, and the two ends of one, after the same effect. -/
theorem hookFrame : Obligations.HookFrame := by
  intro s t h
  cases hhook : s.cfg.variant.tuneHook with
  | none =>
    rw [exec_hook_of_none hhook] at h
    obtain rfl := Host.Outcome.next.inj h
    exact ⟨fun _ _ => rfl, rfl, rfl, rfl, rfl, rfl, rfl, rfl, rfl, rfl, rfl⟩
  | some hook =>
    rw [exec_hook_of_some hhook] at h
    rcases hookAct_hook hhook with ⟨u, hact, hu⟩ | ⟨e, u, hact, hu⟩ | ⟨r, hact, -⟩
    · rw [hact] at h
      obtain rfl := Host.Outcome.next.inj h
      refine ⟨fun a hout => hu.outside a (List.forall_mem_map.2 hout), ?_⟩
      rw [hu.frame]
      exact ⟨rfl, rfl, rfl, rfl, rfl, rfl, rfl, rfl, rfl, rfl⟩
    · rw [hact] at h
      obtain rfl := Host.Outcome.next.inj h
      refine ⟨fun a hout => (congrArg (readByte · a) (abort_regs e u)).trans
        (hu.outside a (List.forall_mem_map.2 hout)), ?_⟩
      rw [abort_eq, hu.frame]
      exact ⟨rfl, rfl, rfl, rfl, rfl, rfl, rfl, rfl, rfl, rfl⟩
    · rw [hact] at h
      cases h

/-! ### WRF, END and the step -/

/-- Settles O23: the one transaction, with each of its answers. -/
theorem wrfIssuesOneTransaction : Obligations.WrfIssuesOneTransaction := by
  intro f e fld s hl ha
  refine ⟨fun hok => ?_, fun landed herr => ?_⟩
  · rw [exec_wrf, writeField_of_ok hl ha hok, complete_done, busWrite_eq, hok, maskHalf_writeWord, dataHalf_writeWord]
    rfl
  · rw [exec_wrf, writeField_of_busErr hl ha herr, complete_raised, busWrite_eq, herr, maskHalf_writeWord,
      dataHalf_writeWord]
    rfl

/-- An access that stops at its field stops before anything else. -/
theorem exec_access_of_withField {f : FieldId} {s : State} {r : Fault} (h : ∀ k, withField f s k = .fault r)
    (e : Bool) (c : TimeoutCode) : exec (.wrf f e) s = .fault r ∧ exec (.poll f c) s = .fault r := by
  refine ⟨?_, ?_⟩
  · rw [exec_wrf, writeField, h, complete_fault]
  · rw [exec, execPoll, h, complete_fault]

/-- Settles O25: the three checks of a field, in their order. -/
theorem fieldAccessStops : Obligations.FieldAccessStops := fun f e c s =>
  ⟨fun hl => exec_access_of_withField (fun k => by rw [withField, hl]) e c,
    fun fld hl ha => exec_access_of_withField (fun k => by simp [withField, hl, ha]) e c,
    fun fld hl ha hr => exec_access_of_withField (fun k => by simp [withField, hl, ha, hr]) e c⟩

/-- Settles O14: each image names its command. -/
theorem endResult : Obligations.EndResult := ⟨rfl, fun s => (exec_endOp s).trans rfl⟩

/-- Settles O7: the fetch in each of the two modes. -/
theorem stepRunsFetchedInstruction : Obligations.StepRunsFetchedInstruction :=
  ⟨fun _ _ _ hb hw hi => step_of_fetchUop hb hw hi, fun _ _ _ _ hb hc hi => step_of_decodeCmd_eq_some hb hc hi⟩

theorem step_of_idle {s : State} (hb : s.busy = false) (hc : s.hostCmds = []) : step s = .next s := by
  simp [step, fetch, fetchHostCommand, fetchCommand, hb, hc]

/-- Settles O8: the fetch finds nothing. -/
theorem idleBlockWaits : Obligations.IdleBlockWaits := fun _ hb hc => step_of_idle hb hc

/-! ### Register writes -/

/-- Settles O21: the form, the bits of the register, and the other registers. -/
theorem maskedWriteTakesSelectedBits : Obligations.MaskedWriteTakesSelectedBits := fun _ _ _ mask data hn hm ha =>
  ⟨memoryWf_maskedWrite hn ha.1 ha.2 hm mask data, fun _ hi => readReg_maskedWrite_testBit hn ha hm mask data hi,
    fun _ hb hne => readReg_maskedWrite_ne ha.1 hb.1 hne _ mask data⟩

end Sys2Proof.Machine

/-!
PROOFS. The images as lists of micro-operations (spec/45_sequencer.md R200, R201, R203, R204), and what a step can do, in
terms of them: wait, take a command to its end, start an image, or run the micro-operation that stands at the position of
the sequencer.
-/

namespace Sys2Proof.Machine

/-! ### The images -/

/-- ROM_PCIE as micro-operations (R200). -/
def pcieInstrs : List Instr :=
  [.setst .poweringOn, .clken, .rstd .por, .delay .settle, .rstd .regbus, .delay .settle, .setst .configuring, .hook,
   .setst .waitingPllLock, .delay .prelockPcie, .poll fieldPllLock .pllLock, .setst .waitingLaneReady, .rstd .datapath,
   .poll fieldLaneReady .laneReady, .setst .ready, .endOp]

/-- The image `ROMSEL` names, as micro-operations. -/
def imageInstrs (exitAssertsCtrl : Bool) : RomSel → List Instr
  | .pcie => pcieInstrs
  | .usb3 => usb3Instrs
  | .exit => exitInstrs exitAssertsCtrl
  | .cmpl => cmplInstrs

theorem romPcie_map_decodeUop : romPcie.map decodeUop = pcieInstrs.map some := by decide

theorem selectImage_map_decodeUop (b : Bool) (r : RomSel) :
    (selectImage (fixedImages b) r).map decodeUop = (imageInstrs b r).map some := by
  cases r with
  | pcie => exact romPcie_map_decodeUop
  | usb3 => exact romUsb3_map_decodeUop
  | exit => exact romExit_map_decodeUop b
  | cmpl => exact romCmpl_map_decodeUop

theorem selectImage_length (b : Bool) (r : RomSel) :
    (selectImage (fixedImages b) r).length = (imageInstrs b r).length := by
  simpa using congrArg List.length (selectImage_map_decodeUop b r)

/-- The word at an index of an image decodes to the micro-operation at that index. -/
theorem selectImage_getElem?_bind (b : Bool) (r : RomSel) (n : Nat) :
    ((selectImage (fixedImages b) r)[n]? >>= decodeUop) = (imageInstrs b r)[n]? := by
  have hmap := congrArg (·[n]?) (selectImage_map_decodeUop b r)
  simp only [List.getElem?_map] at hmap
  cases hw : (selectImage (fixedImages b) r)[n]? with
  | none =>
    rw [hw] at hmap
    cases hi : (imageInstrs b r)[n]? with
    | none => rfl
    | some i => simp [hi] at hmap
  | some w =>
    rw [hw] at hmap
    cases hi : (imageInstrs b r)[n]? with
    | none => simp [hi] at hmap
    | some i => simpa [hi] using hmap

theorem imageInstrs_endOp_iff (b : Bool) (r : RomSel) :
    ∀ n < (imageInstrs b r).length, (imageInstrs b r)[n]? = some .endOp ↔ n + 1 = (imageInstrs b r).length := by
  cases b <;> cases r <;> decide

theorem imageInstrs_length_le (b : Bool) (r : RomSel) : (imageInstrs b r).length ≤ 31 := by
  cases b <;> cases r <;> decide

/-- Settles O46: each image is its list of micro-operations, and where END stands is read off the list. -/
theorem imagesAreStraightLine : Obligations.ImagesAreStraightLine := by
  refine ⟨romPcie_map_decodeUop, romUsb3_map_decodeUop, fun b => ?_, romCmpl_map_decodeUop, fun r b =>
    ⟨fun w hw => ?_, fun n hn => ?_, ?_⟩⟩
  · rw [romExit_map_decodeUop]
    cases b <;> rfl
  · have hmem := List.mem_map_of_mem (f := decodeUop) hw
    rw [selectImage_map_decodeUop] at hmem
    obtain ⟨i, -, hi⟩ := List.mem_map.1 hmem
    exact ⟨i, hi.symm, isCommand_of_decodeUop hi.symm⟩
  · rw [selectImage_length] at hn ⊢
    rw [selectImage_getElem?_bind]
    exact imageInstrs_endOp_iff b r n hn
  · rw [selectImage_length]
    exact (imageInstrs_length_le b r).trans (by decide)

/-! ### What a step can do -/

/-- The word at the position of the sequencer is this one and decodes to this micro-operation (R191). -/
def Fetches (s : State) (w : UopWord) (i : Instr) : Prop :=
  (selectImage s.rom s.romsel)[s.upc.toNat]? = some w ∧ decodeUop w = some i

/-- The ways of a step that answers a next state. -/
inductive StepWay (s : State) : State → Prop
  | waits (hb : s.busy = false) : StepWay s s
  | answers (hb : s.busy = false) (rest : List CmdWord) (cmd : HostCmd) (code : ResultCode) :
      StepWay s (finish cmd code { s with hostCmds := rest })
  | types (hb : s.busy = false) (rest : List CmdWord) (p : ProtoType) (huntyped : s.protoType = .unassigned)
      (htyped : p ≠ .unassigned) :
      StepWay s (finish .assignType .ok { s with hostCmds := rest, protoType := p })
  | starts (hb : s.busy = false) (rest : List CmdWord) (i : Instr) (r : RomSel) (hstarts : Starts s i r) :
      StepWay s (startImage r { s with hostCmds := rest })
  | ends (hb : s.busy = true) (w : UopWord) (hfetch : Fetches s w .endOp) :
      StepWay s (finish (imageCommand s.romsel) .ok s)
  | advances (hb : s.busy = true) (w : UopWord) (i : Instr) (u : State) (hfetch : Fetches s w i)
      (hne : i ≠ .endOp) (hexec : exec i s = .next (advance u)) (hdone : UopDone i s u) : StepWay s (advance u)
  | aborts (hb : s.busy = true) (w : UopWord) (i : Instr) (e : ErrorCode) (u : State) (hfetch : Fetches s w i)
      (hexec : exec i s = .next (abort e u)) (hraised : UopRaised i s u) : StepWay s (abort e u)

theorem Starts.of_hostCmds {s : State} {rest : List CmdWord} {i : Instr} {r : RomSel}
    (h : Starts { s with hostCmds := rest } i r) : Starts s i r := by
  cases h with
  | init htyped hready => exact .init htyped hready
  | exit => exact .exit
  | complianceTest htype hhook => exact .complianceTest htype hhook

/-- What advances is not END, which clears `BUSY`. -/
theorem UopEffect.ne_endOp {i : Instr} {s u : State} (h : UopEffect i s u) (hb : s.busy = true)
    (hexec : exec i s = .next (advance u)) : i ≠ .endOp := by
  rintro rfl
  have hbusy := congrArg State.busy (Host.Outcome.next.inj hexec)
  rw [advance_busy, h.busy, hb, finish_busy] at hbusy
  cases hbusy

theorem stepWay_of_step {s t : State} (h : step s = .next t) : StepWay s t := by
  rcases step_cases h with ⟨hb, w, i, hw, hi, hexec⟩ | ⟨hb, -, rfl⟩ | ⟨hb, w, rest, i, -, hi, hexec⟩
  · rcases exec_uop_cases (isCommand_of_decodeUop hi) hexec with ⟨rfl, rfl⟩ | ⟨u, hu, rfl⟩ | ⟨e, u, hu, rfl⟩
    · exact .ends hb w ⟨hw, hi⟩
    · exact .advances hb w i u ⟨hw, hi⟩ (hu.ne_endOp hb hexec) hexec hu
    · exact .aborts hb w i e u ⟨hw, hi⟩ hexec hu
  · exact .waits hb
  · obtain ⟨-, ⟨cmd, code, rfl⟩ | ⟨x, p, -, hx, huntyped, rfl⟩ | ⟨r, hstarts, rfl⟩⟩ :=
      exec_command_cases (isCommand_of_decodeCmd hi) hexec
    · exact .answers hb rest cmd code
    · refine .types hb rest p huntyped ?_
      rcases requestedType_eq_some_iff.1 hx with ⟨-, rfl⟩ | ⟨-, rfl⟩ <;> exact ProtoType.noConfusion
    · exact .starts hb rest i r hstarts.of_hostCmds

end Sys2Proof.Machine

/-!
PROOFS. The legal states (spec/45_sequencer.md R195, R198). Whether `STATE` fits the position of the sequencer is a
question about an image, an index and a state, and that a micro-operation leads from one fitting position to the next is
a finite fact about each image. The invariant, that no legal state faults, and that every image ends, rest on it.
-/

namespace Sys2Proof.Machine

/-! ### Positions -/

/-- May `STATE` be `st` before micro-operation `n` of the image (R195, R198)? -/
def stateFits (exitAssertsCtrl : Bool) (r : RomSel) (n : Nat) (st : SeqState) : Bool :=
  match r with
  | .pcie => pcieStates[n]? == some st
  | .usb3 => usb3States[n]? == some st
  | .exit => exitStateLegal exitAssertsCtrl n st
  | .cmpl => n ≤ 1 && isRestState st

/-- Is the image one that the type and the variant select (R223, R226)? -/
def imageFits (s : State) : RomSel → Bool
  | .pcie => s.protoType == .pcie
  | .usb3 => s.protoType == .usb3
  | .exit => true
  | .cmpl => s.protoType == .usb3 && s.cfg.variant.cmplHook

theorem imageFits_congr {s t : State} (htype : t.protoType = s.protoType) (hcfg : t.cfg = s.cfg) (r : RomSel) :
    imageFits t r = imageFits s r := by
  cases r <;> simp only [imageFits, htype, hcfg]

theorem positionLegal_of_busy {s : State} (hb : s.busy = true) :
    positionLegal s =
      (imageFits s s.romsel && stateFits s.cfg.exitAssertsCtrl s.romsel s.upc.toNat s.seqState) := by
  rw [positionLegal, if_pos hb]
  cases s.romsel with
  | cmpl => simp only [imageFits, stateFits, Bool.and_assoc]
  | _ => rfl

theorem positionLegal_of_idle {s : State} (hb : s.busy = false) : positionLegal s = isRestState s.seqState := by
  rw [positionLegal, hb]
  rfl

theorem pcieStates_next : ∀ n < 16, ∀ st ∈ pcieStates[n]?, ∀ i ∈ pcieInstrs[n]?,
    if i = .endOp then isRestState st = true else pcieStates[n + 1]? = some (stateAfter i st) := by decide

theorem usb3States_next : ∀ n < 31, ∀ st ∈ usb3States[n]?, ∀ i ∈ usb3Instrs[n]?,
    if i = .endOp then isRestState st = true else usb3States[n + 1]? = some (stateAfter i st) := by decide

theorem exitStates_next (b : Bool) (st : SeqState) : ∀ n < 8, exitStateLegal b n st = true →
    ∀ i ∈ (exitInstrs b)[n]?,
      if i = .endOp then isRestState st = true else exitStateLegal b (n + 1) (stateAfter i st) = true := by
  cases b <;> cases st <;> decide

/-- A position that `STATE` fits is one of a micro-operation. -/
theorem lt_length_of_stateFits {b : Bool} {r : RomSel} {n : Nat} {st : SeqState} (h : stateFits b r n st = true) :
    n < (imageInstrs b r).length := by
  cases r with
  | pcie =>
    obtain ⟨hn, -⟩ := List.getElem?_eq_some_iff.1 (beq_iff_eq.1 h)
    exact hn
  | usb3 =>
    obtain ⟨hn, -⟩ := List.getElem?_eq_some_iff.1 (beq_iff_eq.1 h)
    exact hn
  | exit =>
    have hlength : (imageInstrs b .exit).length = (romExit b).length := by cases b <;> rfl
    have hpositive : 0 < (romExit b).length := by cases b <;> decide
    simp only [stateFits, exitStateLegal] at h
    rw [hlength]
    split at h
    · omega
    · split at h
      · omega
      · simp only [Bool.and_eq_true, beq_iff_eq] at h
        omega
  | cmpl =>
    simp only [stateFits, Bool.and_eq_true, decide_eq_true_eq] at h
    exact Nat.lt_succ_of_le h.1

/-- A micro-operation leads from a position that `STATE` fits to the next, and END to rest. -/
theorem stateFits_next {b : Bool} {r : RomSel} {n : Nat} {st : SeqState} {i : Instr} (h : stateFits b r n st = true)
    (hi : (imageInstrs b r)[n]? = some i) :
    if i = .endOp then isRestState st = true else stateFits b r (n + 1) (stateAfter i st) = true := by
  have hn := lt_length_of_stateFits h
  cases r with
  | pcie =>
    have hnext := pcieStates_next n hn st (beq_iff_eq.1 h) i hi
    simpa [stateFits] using hnext
  | usb3 =>
    have hnext := usb3States_next n hn st (beq_iff_eq.1 h) i hi
    simpa [stateFits] using hnext
  | exit =>
    have hbound : (imageInstrs b .exit).length ≤ 8 := by cases b <;> decide
    exact exitStates_next b st n (by omega) h i hi
  | cmpl =>
    simp only [stateFits, Bool.and_eq_true, decide_eq_true_eq] at h ⊢
    obtain ⟨hle, hrest⟩ := h
    match n, hle with
    | 0, _ =>
      obtain rfl : .wrf fieldRxNegpulse true = i := Option.some.inj hi
      exact ⟨Nat.le_refl 1, hrest⟩
    | 1, _ =>
      obtain rfl : .endOp = i := Option.some.inj hi
      exact hrest

/-- An image starts at a position that fits a state of rest, a bring-up image one that is not Ready (R224). -/
theorem stateFits_zero {b : Bool} {r : RomSel} {st : SeqState} (hrest : isRestState st = true)
    (hready : isBringUp r = true → st ≠ .ready) : stateFits b r 0 st = true := by
  have hcases : st = .idle ∨ st = .ready := by simpa [isRestState] using hrest
  cases r with
  | pcie => simp [stateFits, hcases.resolve_right (hready rfl), pcieStates]
  | usb3 => simp [stateFits, hcases.resolve_right (hready rfl), usb3States]
  | exit => simpa [stateFits, exitStateLegal] using hrest
  | cmpl => simpa [stateFits] using hrest

/-! ### The micro-operation of a legal state -/

section legal

variable {s : State} {w : UopWord} {i : Instr}

theorem State.Inv.stateFits (h : s.Inv) (hb : s.busy = true) :
    imageFits s s.romsel = true ∧
      stateFits s.cfg.exitAssertsCtrl s.romsel s.upc.toNat s.seqState = true := by
  have hposition := h.position
  rwa [positionLegal_of_busy hb, Bool.and_eq_true] at hposition

theorem State.Inv.upc_lt (h : s.Inv) (hb : s.busy = true) :
    s.upc.toNat < (imageInstrs s.cfg.exitAssertsCtrl s.romsel).length :=
  lt_length_of_stateFits (h.stateFits hb).2

/-- `UPC` never wraps in a legal state. -/
theorem State.Inv.upc_succ (h : s.Inv) (hb : s.busy = true) : (s.upc + 1#6).toNat = s.upc.toNat + 1 := by
  have hn := h.upc_lt hb
  have hlength := imageInstrs_length_le s.cfg.exitAssertsCtrl s.romsel
  rw [BitVec.toNat_add, BitVec.toNat_ofNat]
  omega

theorem State.Inv.image_getElem? (h : s.Inv) (hfetch : Fetches s w i) :
    (imageInstrs s.cfg.exitAssertsCtrl s.romsel)[s.upc.toNat]? = some i := by
  obtain ⟨hw, hi⟩ := hfetch
  rw [h.images] at hw
  rw [← selectImage_getElem?_bind, hw]
  exact hi

/-- A legal state in which an image runs has a micro-operation to run. -/
theorem State.Inv.exists_fetches (h : s.Inv) (hb : s.busy = true) : ∃ w i, Fetches s w i := by
  have hn := h.upc_lt hb
  have hi := List.getElem?_eq_getElem hn
  rw [← selectImage_getElem?_bind, ← h.images] at hi
  obtain ⟨w, hw, hdecode⟩ := Option.bind_eq_some_iff.1 hi
  exact ⟨w, _, hw, hdecode⟩

theorem State.Inv.widthsWf (h : s.Inv) : widthsWf s.cfg.widths = true := by
  have hparams := h.params
  simp only [paramsWf, Bool.and_eq_true] at hparams
  exact hparams.1.1

theorem State.Inv.variantWf (h : s.Inv) : variantWf s.cfg.widths s.cfg.variant = true := by
  have hparams := h.params
  simp only [paramsWf, Bool.and_eq_true] at hparams
  exact hparams.1.2

theorem State.Inv.pollInterval_pos (h : s.Inv) : 0 < s.cfg.pollIntervalUs := by
  have hparams := h.params
  simp only [paramsWf, Bool.and_eq_true, decide_eq_true_eq] at hparams
  exact hparams.2

/-- A legal state with the same configuration, a canonical register space and a legal position is followed by one. -/
theorem State.Inv.of_eq {t : State} (h : s.Inv) (hcfg : t.cfg = s.cfg) (hrom : t.rom = s.rom)
    (hregs : memoryWf s.cfg.widths t.regs = true) (hposition : positionLegal t = true) : t.Inv where
  regs := by rwa [hcfg]
  params := by rw [hcfg, h.params]
  images := by rw [hrom, hcfg, h.images]
  position := hposition

end legal

theorem State.Inv.isRestState {s : State} (h : s.Inv) (hb : s.busy = false) : isRestState s.seqState = true := by
  rw [← positionLegal_of_idle hb, h.position]

/-- An image that aborts leaves a state of rest: a bring-up image Idle, ROM_CMPL the state it started in. -/
theorem isRestState_of_raised {s : State} {w : UopWord} {i : Instr} {e : ErrorCode} {u : State} (h : s.Inv)
    (hb : s.busy = true) (hfetch : Fetches s w i) (hexec : exec i s = .next (abort e u)) (hu : UopRaised i s u) :
    isRestState (abort e u).seqState = true := by
  rw [abort_seqState, hu.romsel, hu.seqState]
  have hfits := (h.stateFits hb).2
  have hi := h.image_getElem? hfetch
  cases hr : s.romsel with
  | pcie => rfl
  | usb3 => rfl
  | exit =>
    rw [hr] at hi
    obtain ⟨t, ht, hends⟩ := exec_exitInstrs (List.mem_of_getElem? hi) s
    obtain rfl := Host.Outcome.next.inj (ht.symm.trans hexec)
    rw [abort_busy, abort_result, hb] at hends
    simp at hends
  | cmpl =>
    rw [hr] at hfits
    simp only [Machine.stateFits, Bool.and_eq_true] at hfits
    exact hfits.2

theorem Starts.imageFits {s : State} {i : Instr} {r : RomSel} (h : Starts s i r) : imageFits s r = true := by
  cases h with
  | init htyped hready =>
    cases hp : s.protoType with
    | unassigned => exact absurd hp htyped
    | pcie => simp [bringUpImage, Machine.imageFits, hp]
    | usb3 => simp [bringUpImage, Machine.imageFits, hp]
  | exit => rfl
  | complianceTest htype hhook => simp [Machine.imageFits, htype, hhook]

/-- Only INIT starts a bring-up image, and not in state Ready (R224). -/
theorem Starts.seqState_ne_ready {s : State} {i : Instr} {r : RomSel} (h : Starts s i r) (hr : isBringUp r = true) :
    s.seqState ≠ .ready := by
  cases h with
  | init htyped hready => exact hready
  | exit => cases hr
  | complianceTest htype hhook => cases hr

/-- Settles O54: each way of a step leads to a position that `STATE` fits. -/
theorem stepKeepsLegal : Obligations.StepKeepsLegal := by
  intro s t h hstep
  cases stepWay_of_step hstep with
  | waits hb => exact h
  | answers hb rest cmd code => exact h.of_eq rfl rfl h.regs ((positionLegal_of_idle rfl).trans (h.isRestState hb))
  | types hb rest p huntyped htyped =>
    exact h.of_eq rfl rfl h.regs ((positionLegal_of_idle rfl).trans (h.isRestState hb))
  | starts hb rest i r hstarts =>
    refine h.of_eq rfl rfl h.regs ?_
    rw [positionLegal_of_busy rfl, Bool.and_eq_true]
    exact ⟨(imageFits_congr (s := s) rfl rfl r).trans hstarts.imageFits,
      stateFits_zero (h.isRestState hb) hstarts.seqState_ne_ready⟩
  | ends hb w hfetch =>
    refine h.of_eq rfl rfl h.regs ((positionLegal_of_idle rfl).trans ?_)
    exact stateFits_next (h.stateFits hb).2 (h.image_getElem? hfetch)
  | advances hb w i u hfetch hne hexec hu =>
    have hnext := stateFits_next (h.stateFits hb).2 (h.image_getElem? hfetch)
    rw [if_neg hne] at hnext
    refine h.of_eq hu.cfg hu.rom (hu.canonical h.widthsWf h.regs) ?_
    rw [positionLegal_of_busy (s := advance u) (hu.busy.trans hb),
      imageFits_congr (s := s) (t := advance u) hu.protoType hu.cfg,
      advance_upc, advance_seqState, advance_cfg, advance_romsel, hu.upc, h.upc_succ hb, hu.seqState, hu.cfg,
      hu.romsel, (h.stateFits hb).1, hnext]
    rfl
  | aborts hb w i e u hfetch hexec hu =>
    refine h.of_eq ((abort_cfg e u).trans hu.cfg) ((abort_rom e u).trans hu.rom) ?_
      ((positionLegal_of_idle (abort_busy e u)).trans (isRestState_of_raised h hb hfetch hexec hu))
    rw [abort_regs]
    exact hu.canonical h.widthsWf h.regs

/-! ### No faults -/

theorem checkWF5_of_variantWf {n : Widths} {v : VariantConfig} (hv : variantWf n v = true) : checkWF5 v = true := by
  simp only [variantWf, Bool.and_eq_true] at hv
  tauto

theorem checkWF6_of_variantWf {n : Widths} {v : VariantConfig} (hv : variantWf n v = true) : checkWF6 v = true := by
  simp only [variantWf, Bool.and_eq_true] at hv
  tauto

theorem definesField_of_required {n : Widths} {v : VariantConfig} (hv : variantWf n v = true) {f : FieldId}
    (hf : f ∈ requiredFields) : definesField v f = true := by
  have hwf5 := checkWF5_of_variantWf hv
  simp only [checkWF5, Bool.and_eq_true] at hwf5
  exact List.all_eq_true.1 hwf5.1.1 f hf

theorem definesField_rxNegpulse {n : Widths} {v : VariantConfig} (hv : variantWf n v = true)
    (hhook : v.cmplHook = true) : definesField v fieldRxNegpulse = true := by
  have hwf5 := checkWF5_of_variantWf hv
  simp only [checkWF5, Bool.and_eq_true, beq_iff_eq] at hwf5
  exact hwf5.1.2.trans hhook

theorem definesField_of_mem_hookWrites {n : Widths} {v : VariantConfig} (hv : variantWf n v = true) {w : HookWrite}
    (hw : w ∈ hookWrites v) : definesField v w.field = true := by
  have hwf6 := List.all_eq_true.1 (checkWF6_of_variantWf hv) w hw
  rw [Bool.and_eq_true] at hwf6
  exact hwf6.1

/-- A field that a legal state's variant defines is at a register, so that no access to it stops. -/
theorem State.Inv.not_fieldFault {s : State} (h : s.Inv) {f : FieldId} (hf : definesField s.cfg.variant f = true)
    (r : Fault) : ¬ FieldFault f s r := by
  obtain ⟨fld, hl⟩ := Option.isSome_iff_exists.1 hf
  have ha := h.registerAt hl
  rintro (⟨hnone, -⟩ | ⟨fld', hl', ⟨hmis, -⟩ | ⟨-, hout, -⟩⟩)
  · rw [hl] at hnone
    cases hnone
  · obtain rfl := Option.some.inj (hl.symm.trans hl')
    rw [ha.1] at hmis
    cases hmis
  · obtain rfl := Option.some.inj (hl.symm.trans hl')
    exact absurd hout (Nat.not_le.2 ha.2)

/-- The field a micro-operation accesses, if it accesses one. -/
def accessedField : Instr → Option FieldId
  | .wrf f _ => some f
  | .poll f _ => some f
  | _ => none

/-- ROM_USB3 accesses the required fields in their order, ROM_PCIE the two status fields among them, and ROM_CMPL
RX_NEGPULSE (R142). -/
theorem accessedFields_imageInstrs (b : Bool) (r : RomSel) :
    (imageInstrs b r).filterMap accessedField =
      match r with
      | .pcie => [fieldPllLock, fieldLaneReady]
      | .usb3 => requiredFields
      | .exit => []
      | .cmpl => [fieldRxNegpulse] := by
  cases b <;> cases r <;> rfl

theorem accessedField_of_mem {b : Bool} {r : RomSel} {i : Instr} (hi : i ∈ imageInstrs b r) {f : FieldId}
    (hf : accessedField i = some f) : f ∈ requiredFields ∨ (r = .cmpl ∧ f = fieldRxNegpulse) := by
  have hmem := List.mem_filterMap.2 ⟨i, hi, hf⟩
  rw [accessedFields_imageInstrs] at hmem
  cases r with
  | pcie => exact .inl (List.mem_of_mem_drop (i := 13) hmem)
  | usb3 => exact .inl hmem
  | exit => cases hmem
  | cmpl => exact .inr ⟨rfl, List.mem_singleton.1 hmem⟩

/-- A legal state's variant defines the field that the micro-operation at the fetch accesses. -/
theorem State.Inv.definesField {s : State} (h : s.Inv) (hb : s.busy = true) {w : UopWord} {i : Instr}
    (hfetch : Fetches s w i) {f : FieldId} (hf : accessedField i = some f) :
    definesField s.cfg.variant f = true := by
  have hmem := List.mem_of_getElem? (h.image_getElem? hfetch)
  rcases accessedField_of_mem hmem hf with hrequired | ⟨hr, rfl⟩
  · exact definesField_of_required h.variantWf hrequired
  · have hfits := (h.stateFits hb).1
    rw [hr] at hfits
    simp only [imageFits, Bool.and_eq_true] at hfits
    exact definesField_rxNegpulse h.variantWf hfits.2

/-- The poll has ended within its bound when the interval is a wait (R126). -/
theorem pollLoop_enterPoll_ne_fault {s : State} (hpos : 0 < s.cfg.pollIntervalUs) (fld : RegisterField)
    (c : TimeoutCode) (r : Fault) : pollLoop fld c (pollFuel s) (enterPoll s) ≠ .fault r := by
  have hfuel : pollFuel s = s.cfg.pollTimeoutUs / s.cfg.pollIntervalUs + 1 + s.env.reads.length + 1 := by
    rw [pollFuel, maxPollReads]
    omega
  rw [hfuel]
  refine pollLoop_ne_fault fld c _ 0 (enterPoll s) (by simp) ?_ r
  have hexceeds := Nat.lt_mul_div_succ s.cfg.pollTimeoutUs hpos
  rw [enterPoll_cfg, Nat.zero_add, Nat.mul_comm]
  exact hexceeds.trans_le (Nat.mul_le_mul_left _ (Nat.le_add_right _ _))

theorem complete_exists_next {a : Act} (h : ∀ r, complete a ≠ .fault r) : ∃ t, complete a = .next t := by
  cases a with
  | done s => exact ⟨_, rfl⟩
  | raised e s => exact ⟨_, rfl⟩
  | fault r => exact absurd rfl (h r)

theorem State.Inv.exec_wrf_ne_fault {s : State} (h : s.Inv) {f : FieldId}
    (hf : Machine.definesField s.cfg.variant f = true)
    (e : Bool) (r : Fault) : exec (.wrf f e) s ≠ .fault r := by
  rw [exec_wrf]
  rcases writeField_cases f e s with ⟨q, hq, -⟩ | ⟨fld, -, -, -, ⟨-, hw⟩ | ⟨-, hw⟩⟩
  · exact absurd hq (h.not_fieldFault hf q)
  · simp [hw]
  · simp [hw]

theorem State.Inv.exec_poll_ne_fault {s : State} (h : s.Inv) {f : FieldId}
    (hf : Machine.definesField s.cfg.variant f = true) (c : TimeoutCode) (r : Fault) :
    exec (.poll f c) s ≠ .fault r := by
  obtain ⟨fld, hl⟩ := Option.isSome_iff_exists.1 hf
  rw [exec_poll hl (h.registerAt hl)]
  cases hloop : pollLoop fld c (pollFuel s) (enterPoll s) with
  | done u => simp
  | raised e u => simp
  | fault q => exact absurd hloop (pollLoop_enterPoll_ne_fault h.pollInterval_pos fld c q)

theorem State.Inv.exists_exec_hook {s : State} (h : s.Inv) : ∃ t, exec .hook s = .next t := by
  cases hhook : s.cfg.variant.tuneHook with
  | none => exact ⟨_, exec_hook_of_none hhook⟩
  | some hook =>
    rw [exec_hook_of_some hhook]
    refine complete_exists_next fun r hr => ?_
    rcases hookAct_hook hhook with ⟨u, hact, -⟩ | ⟨e, u, hact, -⟩ | ⟨q, -, f, hf, hq⟩
    · simp [hact] at hr
    · simp [hact] at hr
    · obtain ⟨w, hw, rfl⟩ := List.mem_map.1 hf
      exact absurd hq (h.not_fieldFault (definesField_of_mem_hookWrites h.variantWf hw) q)

/-- The micro-operation of a legal state has a next state, whatever the environment answers. -/
theorem State.Inv.exists_exec {s : State} (h : s.Inv) (hb : s.busy = true) {w : UopWord} {i : Instr}
    (hfetch : Fetches s w i) : ∃ t, exec i s = .next t := by
  have hfields : ∀ f, accessedField i = some f → Machine.definesField s.cfg.variant f = true := fun _ =>
    h.definesField hb hfetch
  have hcommand := isCommand_of_decodeUop hfetch.2
  cases i with
  | endOp => exact ⟨_, exec_endOp s⟩
  | setst st => exact ⟨_, exec_setst st s⟩
  | rsta l => exact ⟨_, exec_rsta l s⟩
  | rstd l => exact ⟨_, exec_rstd l s⟩
  | clken =>
    cases hprepared : (nextClock s.env).1 with
    | true => exact ⟨_, exec_clken_of_prepared hprepared⟩
    | false => exact ⟨_, exec_clken_of_unprepared hprepared⟩
  | clkdis => exact ⟨_, exec_clkdis s⟩
  | delay k => exact ⟨_, exec_delay k s⟩
  | wrf f e => exact complete_exists_next (h.exec_wrf_ne_fault (hfields f rfl) e)
  | poll f c => exact complete_exists_next (h.exec_poll_ne_fault (hfields f rfl) c)
  | hook => exact h.exists_exec_hook
  | _ => cases hcommand

/-- In a legal state in which an image runs, a step has a next state. -/
theorem State.Inv.exists_step {s : State} (h : s.Inv) (hb : s.busy = true) : ∃ t, step s = .next t := by
  obtain ⟨w, i, hfetch⟩ := h.exists_fetches hb
  obtain ⟨t, ht⟩ := h.exists_exec hb hfetch
  exact ⟨t, (step_of_fetchUop hb hfetch.1 hfetch.2).trans ht⟩

/-- A command that is accepted has a next state, but for INIT in state Ready (R224). -/
theorem exec_command_of_idle {i : Instr} {s : State} (hi : i.isCommand = true) (hb : s.busy = false) :
    (∃ t, exec i s = .next t) ∨ (i = .init ∧ s.seqState = .ready ∧ exec i s = .refused .initWhileReady) := by
  cases i with
  | assignType x =>
    cases hx : requestedType x with
    | none => exact .inl ⟨_, exec_assignType_of_unsupported hb hx⟩
    | some p => exact .inl ⟨_, exec_assignType_of_supported hb hx⟩
  | init =>
    rw [exec_init_of_idle hb]
    split_ifs with huntyped hready
    · exact .inl ⟨_, rfl⟩
    · exact .inr ⟨rfl, hready, rfl⟩
    · exact .inl ⟨_, rfl⟩
  | exit => exact .inl ⟨_, exec_exit_of_idle hb⟩
  | complianceTest => exact .inl ⟨_, exec_complianceTest_of_idle hb⟩
  | _ => cases hi

/-- What a legal state's step can do: answer a next state, or refuse the host's word. -/
theorem State.Inv.step_outcome {s : State} (h : s.Inv) :
    (∃ t, step s = .next t) ∨
      (s.busy = false ∧ ∃ w rest r, s.hostCmds = w :: rest ∧ step s = .refused r ∧
        ((r = .invalidCommand ∧ decodeCmd w = none) ∨
          (r = .initWhileReady ∧ decodeCmd w = some .init ∧ s.seqState = .ready))) := by
  cases hb : s.busy with
  | true => exact .inl (h.exists_step hb)
  | false =>
    cases hc : s.hostCmds with
    | nil => exact .inl ⟨s, step_of_idle hb hc⟩
    | cons w rest =>
      cases hi : decodeCmd w with
      | none => exact .inr ⟨rfl, w, rest, _, rfl, step_of_decodeCmd_eq_none hb hc hi, .inl ⟨rfl, hi⟩⟩
      | some i =>
        have hstep := step_of_decodeCmd_eq_some hb hc hi
        rcases exec_command_of_idle (s := { s with hostCmds := rest }) (isCommand_of_decodeCmd hi) hb with
          ⟨t, ht⟩ | ⟨rfl, hready, hrefused⟩
        · exact .inl ⟨t, hstep.trans ht⟩
        · exact .inr ⟨rfl, w, rest, _, rfl, hstep.trans hrefused, .inr ⟨rfl, hi, hready⟩⟩

/-- Settles O57: the outcomes of a legal state's step. -/
theorem legalStateNeverFaults : Obligations.LegalStateNeverFaults := by
  intro s h
  rcases h.step_outcome with ⟨t, ht⟩ | ⟨hb, w, rest, r, hc, hr, hwhy⟩
  · exact ⟨fun q hq => (by cases ht.symm.trans hq), fun q hq => (by cases ht.symm.trans hq)⟩
  · refine ⟨fun q hq => (by cases hr.symm.trans hq), fun q hq => ?_⟩
    obtain rfl : r = q := Host.Outcome.refused.inj (hr.symm.trans hq)
    exact ⟨hb, w, rest, hc, hwhy⟩

/-! ### Every image ends -/

/-- A step of a running image ends it or moves it on by one. -/
theorem State.Inv.step_of_busy {s : State} (h : s.Inv) (hb : s.busy = true) :
    ∃ t, step s = .next t ∧ t.Inv ∧
      (t.busy = false ∨ (t.busy = true ∧ t.cfg = s.cfg ∧ t.romsel = s.romsel ∧ t.upc.toNat = s.upc.toNat + 1)) := by
  obtain ⟨t, ht⟩ := h.exists_step hb
  refine ⟨t, ht, stepKeepsLegal s t h ht, ?_⟩
  cases stepWay_of_step ht with
  | waits hidle | answers hidle | types hidle | starts hidle =>
    rw [hb] at hidle
    cases hidle
  | ends _ w hfetch => exact .inl rfl
  | advances _ w i u hfetch hne hexec hu =>
    refine .inr ⟨hu.busy.trans hb, hu.cfg, hu.romsel, ?_⟩
    rw [advance_upc, hu.upc, h.upc_succ hb]
  | aborts _ w i e u hfetch hexec hu => exact .inl (abort_busy e u)

/-- An image with `n` micro-operations to go ends within `n` steps. -/
theorem State.Inv.image_ends {s : State} (h : s.Inv) (hb : s.busy = true) (n : Nat)
    (hn : (imageInstrs s.cfg.exitAssertsCtrl s.romsel).length ≤ s.upc.toNat + n) :
    ∃ k t, k ≤ n ∧ Host.Core.run Sys2Proof.core k s = .next t ∧ t.busy = false := by
  induction n generalizing s with
  | zero => exact absurd (h.upc_lt hb) (Nat.not_lt.2 hn)
  | succ n ih =>
    obtain ⟨u, hstep, hu, hidle | ⟨hbusy, hcfg, hromsel, hupc⟩⟩ := h.step_of_busy hb
    · exact ⟨1, u, Nat.le_add_left 1 n, run_succ_of_step hstep 0, hidle⟩
    · obtain ⟨k, t, hk, hrun, ht⟩ := ih hu hbusy (by rw [hcfg, hromsel, hupc]; omega)
      exact ⟨k + 1, t, Nat.succ_le_succ hk, (run_succ_of_step hstep k).trans hrun, ht⟩

/-- Settles O58: no image has more than 31 micro-operations. -/
theorem everyImageEnds : Obligations.EveryImageEnds := fun _ h hb =>
  h.image_ends hb 31 ((imageInstrs_length_le _ _).trans (Nat.le_add_left _ _))

end Sys2Proof.Machine

/-!
PROOFS. The outputs (spec/45_sequencer.md R205; spec/60_exceptions.md R255, R267). What an image has driven so far is
driven by one micro-operation more at each step, and `Ready` is reached where the images have driven all that a PHY that
is up needs; an instruction run in state Ready that drives an output leaves that state.
-/

namespace Sys2Proof.Machine

/-! ### The two parts of the invariant -/

/-- The outputs are those the completed micro-operations of the image set. -/
structure Driven (s : State) : Prop where
  lines : ∀ l level, lastEffect (fun w => drives w l) (completedUops s) = some level → lineIs s.rst l level
  clock : ∀ on, lastEffect drivesClock (completedUops s) = some on → s.clkEn = on

/-- The outputs are those of a PHY that is up. -/
structure PhyUp (s : State) : Prop where
  typed : s.protoType ≠ .unassigned
  clock : s.clkEn = true
  lines : ∀ l, l ≠ .ctrl → lineIs s.rst l false
  ctrl : s.protoType = .usb3 → lineIs s.rst .ctrl false

theorem powered_iff {s : State} :
    s.Powered ↔ (s.busy = true → Driven s) ∧ (s.seqState = .ready → PhyUp s) := by
  refine ⟨fun h => ⟨fun hb => ⟨h.lines hb, h.clock hb⟩, fun hr =>
    ⟨h.readyType hr, h.readyClock hr, h.readyLines hr, h.readyCtrl hr⟩⟩, fun ⟨hdriven, hup⟩ => ?_⟩
  exact
    { lines := fun hb => (hdriven hb).lines
      clock := fun hb => (hdriven hb).clock
      readyType := fun hr => (hup hr).typed
      readyClock := fun hr => (hup hr).clock
      readyLines := fun hr => (hup hr).lines
      readyCtrl := fun hr => (hup hr).ctrl }

/-! ### One micro-operation more -/

theorem lastEffect_concat (f : UopWord → Option Bool) (ws : List UopWord) (w : UopWord) :
    lastEffect f (ws ++ [w]) = (f w).or (lastEffect f ws) := by
  induction ws with
  | nil => simp [lastEffect]
  | cons x ws ih => rw [List.cons_append, lastEffect, ih, lastEffect, Option.or_assoc]

/-- After the micro-operation at the fetch, it is the last one that has completed. -/
theorem completedUops_advance {s u : State} {w : UopWord} {i : Instr} (h : s.Inv) (hb : s.busy = true)
    (hfetch : Fetches s w i) (hu : UopEffect i s u) : completedUops (advance u) = completedUops s ++ [w] := by
  rw [completedUops, completedUops, advance_rom, advance_romsel, advance_upc, hu.rom, hu.romsel, hu.upc,
    h.upc_succ hb, List.take_add_one, hfetch.1]
  rfl

/-- A line is driven to what the micro-operation drives it to, and else keeps its level. -/
theorem UopDone.lineIs {i : Instr} {s u : State} (h : UopDone i s u) {l : ResetLine} {level : Bool}
    (hl : lineDriven l i = some level ∨ (lineDriven l i = none ∧ Machine.lineIs s.rst l level)) :
    Machine.lineIs u.rst l level := by
  rw [Machine.lineIs, h.lines l]
  rcases hl with hdriven | ⟨hkept, habsent | hlevel⟩
  · cases getLine s.rst l with
    | none => exact .inl rfl
    | some old => exact .inr (by rw [hdriven]; rfl)
  · exact .inl (by rw [habsent]; rfl)
  · exact .inr (by rw [hlevel, hkept]; rfl)

theorem Driven.advance {s u : State} {w : UopWord} {i : Instr} (hd : Driven s) (h : s.Inv) (hb : s.busy = true)
    (hfetch : Fetches s w i) (hu : UopDone i s u) : Driven (advance u) where
  lines l level hlast := by
    rw [completedUops_advance h hb hfetch hu.toUopEffect, lastEffect_concat, drives_of_decodeUop hfetch.2] at hlast
    rw [advance_rst]
    cases hdriven : lineDriven l i with
    | none =>
      rw [hdriven, Option.none_or] at hlast
      exact hu.lineIs (.inr ⟨hdriven, hd.lines l level hlast⟩)
    | some b =>
      rw [hdriven, Option.some_or] at hlast
      exact hu.lineIs (.inl (hdriven.trans hlast))
  clock on hlast := by
    rw [completedUops_advance h hb hfetch hu.toUopEffect, lastEffect_concat, drivesClock_of_decodeUop hfetch.2]
      at hlast
    rw [advance_clkEn, hu.clock]
    cases hdriven : clockDriven i with
    | none =>
      rw [hdriven, Option.none_or] at hlast
      exact hd.clock on hlast
    | some b =>
      rw [hdriven, Option.some_or] at hlast
      exact Option.some.inj hlast

/-- An image that has just started has driven nothing. -/
theorem driven_startImage (r : RomSel) (s : State) : Driven (startImage r s) := ⟨nofun, nofun⟩

/-! ### Ready -/

theorem PhyUp.of_eq {s t : State} (h : PhyUp s) (htype : t.protoType = s.protoType) (hclock : t.clkEn = s.clkEn)
    (hlines : t.rst = s.rst) : PhyUp t where
  typed := by rw [htype]; exact h.typed
  clock := by rw [hclock]; exact h.clock
  lines := by rw [hlines]; exact h.lines
  ctrl := by rw [htype, hlines]; exact h.ctrl

/-- Where SETST READY stands. -/
theorem imageInstrs_setst_ready (b : Bool) (r : RomSel) :
    ∀ n < (imageInstrs b r).length, (imageInstrs b r)[n]? = some (.setst .ready) →
      (r = .pcie ∧ n = 14) ∨ (r = .usb3 ∧ n = 29) := by
  cases b <;> cases r <;> decide

/-- What ROM_PCIE has driven before its SETST READY (R205). -/
theorem romPcie_before_ready :
    lastEffect drivesClock (romPcie.take 14) = some true ∧
      ∀ l, l ≠ .ctrl → lastEffect (fun w => drives w l) (romPcie.take 14) = some false := by
  refine ⟨rfl, fun l hl => ?_⟩
  cases l with
  | ctrl => exact absurd rfl hl
  | _ => rfl

/-- What ROM_USB3 has driven before its SETST READY (R205): every line. -/
theorem romUsb3_before_ready :
    lastEffect drivesClock (romUsb3.take 29) = some true ∧
      ∀ l, lastEffect (fun w => drives w l) (romUsb3.take 29) = some false := by
  refine ⟨rfl, fun l => ?_⟩
  cases l <;> rfl

/-- A bring-up that comes to its SETST READY has brought the PHY up. -/
theorem Driven.phyUp {s : State} {w : UopWord} (hd : Driven s) (h : s.Inv) (hb : s.busy = true)
    (hfetch : Fetches s w (.setst .ready)) : PhyUp s := by
  have himage : imageFits s s.romsel = true := (h.stateFits hb).1
  have hdone : completedUops s = (selectImage (fixedImages s.cfg.exitAssertsCtrl) s.romsel).take s.upc.toNat := by
    rw [completedUops, h.images]
  rcases imageInstrs_setst_ready _ _ _ (h.upc_lt hb) (h.image_getElem? hfetch) with ⟨hr, hn⟩ | ⟨hr, hn⟩
  · rw [hr, hn] at hdone
    rw [hr] at himage
    have htype : s.protoType = .pcie := beq_iff_eq.1 himage
    obtain ⟨hclock, hlines⟩ := romPcie_before_ready
    exact
      { typed := by simp [htype]
        clock := hd.clock true (hdone ▸ hclock)
        lines := fun l hl => hd.lines l false (hdone ▸ hlines l hl)
        ctrl := fun husb3 => by simp [htype] at husb3 }
  · rw [hr, hn] at hdone
    rw [hr] at himage
    have htype : s.protoType = .usb3 := beq_iff_eq.1 himage
    obtain ⟨hclock, hlines⟩ := romUsb3_before_ready
    exact
      { typed := by simp [htype]
        clock := hd.clock true (hdone ▸ hclock)
        lines := fun l _ => hd.lines l false (hdone ▸ hlines l)
        ctrl := fun _ => hd.lines .ctrl false (hdone ▸ hlines .ctrl) }

/-- The micro-operations an image runs in state Ready: its END, the first of ROM_EXIT, and the write of ROM_CMPL. -/
theorem imageInstrs_of_ready (b : Bool) (r : RomSel) :
    ∀ n < (imageInstrs b r).length, stateFits b r n .ready = true → ∀ i ∈ (imageInstrs b r)[n]?,
      i = .endOp ∨ i = .setst .exiting ∨ i = .wrf fieldRxNegpulse true := by
  cases b <;> cases r <;> decide

/-- A micro-operation that runs in state Ready drives no output. -/
theorem State.Inv.drives_nothing_of_ready {s : State} {w : UopWord} {i : Instr} (h : s.Inv) (hb : s.busy = true)
    (hready : s.seqState = .ready) (hfetch : Fetches s w i) : clockDriven i = none ∧ ∀ l, lineDriven l i = none := by
  have hfits := (h.stateFits hb).2
  rw [hready] at hfits
  rcases imageInstrs_of_ready _ _ _ (h.upc_lt hb) hfits i (h.image_getElem? hfetch) with rfl | rfl | rfl <;>
    exact ⟨rfl, fun _ => rfl⟩

/-- A micro-operation that drives no output leaves the PHY up. -/
theorem PhyUp.advance {s u : State} {i : Instr} (hup : PhyUp s) (hu : UopDone i s u)
    (hnone : clockDriven i = none ∧ ∀ l, lineDriven l i = none) : PhyUp (advance u) := by
  obtain ⟨hclock, hline⟩ := hnone
  refine hup.of_eq hu.protoType ?_ (perLine_ext fun l => ?_)
  · rw [advance_clkEn, hu.clock, hclock, Option.getD_none]
  · rw [advance_rst, hu.lines l, hline l]
    simp

/-- Settles O55: each way of a step, for an image that runs and for state Ready. -/
theorem stepKeepsPowered : Obligations.StepKeepsPowered := by
  intro s t h hpowered hstep
  obtain ⟨hdriven, hup⟩ := powered_iff.1 hpowered
  refine powered_iff.2 ?_
  cases stepWay_of_step hstep with
  | waits hb => exact ⟨hdriven, hup⟩
  | answers hb rest cmd code => exact ⟨nofun, fun hready => (hup hready).of_eq rfl rfl rfl⟩
  | types hb rest p huntyped htyped => exact ⟨nofun, fun hready => absurd huntyped (hup hready).typed⟩
  | starts hb rest i r hstarts =>
    exact ⟨fun _ => driven_startImage r _, fun hready => (hup hready).of_eq rfl rfl rfl⟩
  | ends hb w hfetch => exact ⟨nofun, fun hready => (hup hready).of_eq rfl rfl rfl⟩
  | advances hb w i u hfetch hne hexec hu =>
    refine ⟨fun _ => (hdriven hb).advance h hb hfetch hu, fun hready => ?_⟩
    rw [advance_seqState, hu.seqState] at hready
    rcases stateAfter_cases i s.seqState with hsetst | hsame
    · rw [hready] at hsetst
      obtain rfl := hsetst
      exact ((hdriven hb).phyUp h hb hfetch).advance hu ⟨rfl, fun _ => rfl⟩
    · have hwas : s.seqState = .ready := hsame.symm.trans hready
      exact (hup hwas).advance hu (h.drives_nothing_of_ready hb hwas hfetch)
  | aborts hb w i e u hfetch hexec hu =>
    refine ⟨fun hbusy => ?_, fun hready => ?_⟩
    · rw [abort_busy] at hbusy
      cases hbusy
    · rw [abort_seqState, hu.seqState] at hready
      split at hready
      · cases hready
      · exact (hup hready).of_eq ((abort_protoType e u).trans hu.protoType) ((abort_clkEn e u).trans hu.clock)
          ((abort_rst e u).trans hu.lines)

end Sys2Proof.Machine

/-!
PROOFS. The order of the trace (spec/45_sequencer.md R205 (a), (b); spec/70_reset_and_hazards.md R287, R288). Whether the
events of a micro-operation may come now is a question about what the trace has shown so far; what it has shown after
them is known from the micro-operation. Both are then facts about the images, index by index.
-/

namespace Sys2Proof.Machine

/-! ### Scanning -/

theorem scanTrace_append (v : VariantConfig) (bracket : Bool) (sc : Scan) (evs evs' : List Event) :
    scanTrace v bracket sc (evs ++ evs') =
      (scanTrace v bracket sc evs).bind fun sc' => scanTrace v bracket sc' evs' := by
  induction evs generalizing sc with
  | nil => rfl
  | cons ev evs ih =>
    rw [List.cons_append, scanTrace, scanTrace]
    cases scanEvent v bracket sc ev with
    | none => rfl
    | some sc' => exact ih sc'

theorem scanTrace_singleton (v : VariantConfig) (bracket : Bool) (sc : Scan) (ev : Event) :
    scanTrace v bracket sc [ev] = scanEvent v bracket sc ev := by
  rw [scanTrace]
  cases scanEvent v bracket sc ev <;> rfl

/-- What a trace has shown of the INIT in progress is still shown: the same INIT, with controller reset held as it was,
and each confirmation kept. -/
structure ShowsMore (sc sc' : Scan) : Prop where
  inInit : sc'.inInit = sc.inInit
  ctrlHeld : sc'.ctrlHeld = sc.ctrlHeld
  pllLocked : sc.pllLocked = true → sc'.pllLocked = true
  laneReady : sc.laneReady = true → sc'.laneReady = true

theorem ShowsMore.refl (sc : Scan) : ShowsMore sc sc := ⟨rfl, rfl, id, id⟩

theorem ShowsMore.trans {a b c : Scan} (h : ShowsMore a b) (h' : ShowsMore b c) : ShowsMore a c :=
  ⟨h'.inInit.trans h.inInit, h'.ctrlHeld.trans h.ctrlHeld, h'.pllLocked ∘ h.pllLocked, h'.laneReady ∘ h.laneReady⟩

theorem showsMore_scanRead (v : VariantConfig) (sc : Scan) (a : Nat) (ans : ReadAnswer) :
    ShowsMore sc (scanRead v sc a ans) := by
  cases ans with
  | busErr => exact .refl sc
  | word w => exact ⟨rfl, rfl, fun h => by simp [scanRead, h], fun h => by simp [scanRead, h]⟩

/-- An event that begins no INIT, ends none and drives no line. -/
def quietEvent : Event → Bool
  | .rst _ _ => false
  | .state st => st != .poweringOn
  | .result _ _ => false
  | _ => true

/-- May the event come only where the PHY may be changed (R205 (b))? -/
def changesPhy : Event → Bool
  | .clk _ => true
  | .wr _ _ _ => true
  | _ => false

theorem scanEvent_quiet {v : VariantConfig} {bracket : Bool} {sc : Scan} {ev : Event} (hquiet : quietEvent ev = true)
    (hmay : changesPhy ev = true → mayChange bracket sc = true) :
    ∃ sc', scanEvent v bracket sc ev = some sc' ∧ ShowsMore sc sc' := by
  cases ev with
  | rst l asserted => cases hquiet
  | clk on => exact ⟨sc, if_pos (hmay rfl), .refl sc⟩
  | clkFail => exact ⟨sc, rfl, .refl sc⟩
  | delay kind us => exact ⟨sc, rfl, .refl sc⟩
  | wr a w resp => exact ⟨sc, if_pos (hmay rfl), .refl sc⟩
  | rd a ans => exact ⟨_, rfl, showsMore_scanRead v sc a ans⟩
  | state st =>
    have hne : st ≠ .poweringOn := by simpa [quietEvent] using hquiet
    exact ⟨sc, by rw [scanEvent, scanState, if_neg hne], .refl sc⟩
  | result cmd code => cases hquiet

theorem ShowsMore.mayChange {sc sc' : Scan} (h : ShowsMore sc sc') (bracket : Bool) :
    mayChange bracket sc' = mayChange bracket sc := by
  rw [Machine.mayChange, Machine.mayChange, h.inInit, h.ctrlHeld]

theorem scanTrace_quiet {v : VariantConfig} {bracket : Bool} {evs : List Event} {sc : Scan}
    (hquiet : ∀ ev ∈ evs, quietEvent ev = true)
    (hmay : ∀ ev ∈ evs, changesPhy ev = true → mayChange bracket sc = true) :
    ∃ sc', scanTrace v bracket sc evs = some sc' ∧ ShowsMore sc sc' := by
  induction evs generalizing sc with
  | nil => exact ⟨sc, rfl, .refl sc⟩
  | cons ev evs ih =>
    obtain ⟨hev, hevs⟩ := List.forall_mem_cons.1 hquiet
    obtain ⟨hmayEv, hmayEvs⟩ := List.forall_mem_cons.1 hmay
    obtain ⟨sc₁, hsc₁, hmore₁⟩ := scanEvent_quiet (v := v) hev hmayEv
    obtain ⟨sc₂, hsc₂, hmore₂⟩ := ih (sc := sc₁) hevs fun ev' hev' hchanges =>
      (hmore₁.mayChange bracket).trans (hmayEvs ev' hev' hchanges)
    exact ⟨sc₂, by rw [scanTrace, hsc₁]; exact hsc₂, hmore₁.trans hmore₂⟩

/-! ### One micro-operation -/

/-- May the micro-operation run now (R205 (a), (b))? -/
def uopMay (bracket : Bool) (sc : Scan) : Instr → Bool
  | .rsta l => mayDrive bracket sc l true
  | .rstd l => mayDrive bracket sc l false
  | .clken => mayChange bracket sc
  | .clkdis => mayChange bracket sc
  | .wrf _ _ => mayChange bracket sc
  | .hook => mayChange bracket sc
  | _ => true

/-- What the trace has shown for certain once the micro-operation has completed. With `bracket`, the CTRL line is
present, so that asserting it shows. -/
def scanAfter (bracket : Bool) (sc : Scan) : Instr → Scan
  | .setst st => scanState sc st
  | .rsta l => if l = .ctrl then { sc with ctrlHeld := bracket || sc.ctrlHeld } else sc
  | .rstd l => if l = .ctrl then { sc with ctrlHeld := false } else sc
  | .poll f _ =>
    { sc with pllLocked := sc.pllLocked || f == fieldPllLock, laneReady := sc.laneReady || f == fieldLaneReady }
  | _ => sc

/-- All that the first scan shows, the second shows too. -/
def covers (p sc : Scan) : Bool :=
  (!p.inInit || sc.inInit) && (!p.ctrlHeld || sc.ctrlHeld) && (!p.pllLocked || sc.pllLocked)
    && (!p.laneReady || sc.laneReady)

theorem covers_iff {p sc : Scan} :
    covers p sc = true ↔ (p.inInit = true → sc.inInit = true) ∧ (p.ctrlHeld = true → sc.ctrlHeld = true) ∧
      (p.pllLocked = true → sc.pllLocked = true) ∧ (p.laneReady = true → sc.laneReady = true) := by
  simp only [covers, Bool.and_eq_true, Bool.or_eq_true, Bool.not_eq_true', and_assoc, ← Bool.not_eq_true,
    ← imp_iff_not_or]

theorem covers_refl (sc : Scan) : covers sc sc = true := covers_iff.2 ⟨id, id, id, id⟩

theorem ShowsMore.covers {sc sc' : Scan} (h : ShowsMore sc sc') : covers sc sc' = true :=
  covers_iff.2 ⟨fun hi => h.inInit.trans hi, fun hc => h.ctrlHeld.trans hc, h.pllLocked, h.laneReady⟩

/-- The micro-operations that begin no INIT and drive no line. -/
def quietUop : Instr → Bool
  | .setst st => st != .poweringOn
  | .rsta _ => false
  | .rstd _ => false
  | _ => true

theorem quietEvent_of_quietUop {i : Instr} {ev : Event} (hi : quietUop i = true) (hev : UopEvent i ev) :
    quietEvent ev = true := by
  cases i with
  | setst st => obtain rfl := hev; exact hi
  | rsta l => cases hi
  | rstd l => cases hi
  | clken => obtain rfl | rfl := hev <;> rfl
  | clkdis => obtain rfl := hev; rfl
  | delay k => obtain ⟨kind, us, rfl⟩ := hev; rfl
  | wrf f e => obtain ⟨a, w, r, rfl⟩ := hev; rfl
  | poll f c => obtain ⟨a, r, rfl⟩ | ⟨kind, us, rfl⟩ := hev <;> rfl
  | hook => obtain ⟨a, w, r, rfl⟩ := hev; rfl
  | _ => cases hev

theorem mayChange_of_uopMay {bracket : Bool} {sc : Scan} {i : Instr} {ev : Event} (hi : quietUop i = true)
    (hmay : uopMay bracket sc i = true) (hev : UopEvent i ev) (hchanges : changesPhy ev = true) :
    mayChange bracket sc = true := by
  cases i with
  | clken => exact hmay
  | clkdis => exact hmay
  | wrf f e => exact hmay
  | hook => exact hmay
  | setst st => obtain rfl := hev; cases hchanges
  | rsta l => cases hi
  | rstd l => cases hi
  | delay k => obtain ⟨kind, us, rfl⟩ := hev; cases hchanges
  | poll f c => obtain ⟨a, r, rfl⟩ | ⟨kind, us, rfl⟩ := hev <;> cases hchanges
  | _ => cases hev

section uop

variable {v : VariantConfig} {bracket : Bool} {sc : Scan} {i : Instr} {s u : State}

/-- The events of a micro-operation that drives no line are in order where it may run. -/
theorem UopEffect.scan_quiet (h : UopEffect i s u) (hi : quietUop i = true)
    (hscan : scanTrace v bracket Scan.start s.trace = some sc) (hmay : uopMay bracket sc i = true) :
    ∃ sc', scanTrace v bracket Scan.start u.trace = some sc' ∧ ShowsMore sc sc' := by
  obtain ⟨evs, htrace, hevs⟩ := h.events
  obtain ⟨sc', hsc', hmore⟩ := scanTrace_quiet (v := v) (bracket := bracket) (evs := evs) (sc := sc)
    (fun ev hev => quietEvent_of_quietUop hi (hevs ev hev))
    (fun ev hev => mayChange_of_uopMay hi hmay (hevs ev hev))
  exact ⟨sc', by rw [htrace, scanTrace_append, hscan]; exact hsc', hmore⟩

/-- Driving a line is in order where the line may be driven. -/
theorem scan_driveLine {l : ResetLine} {b : Bool} (hscan : scanTrace v bracket Scan.start s.trace = some sc)
    (hmay : mayDrive bracket sc l b = true) :
    scanTrace v bracket Scan.start (driveLine l b s).trace =
      some (if (getLine s.rst l).isSome then scanLine sc l b else sc) := by
  rw [driveLine_trace, scanTrace_append, hscan]
  split
  · exact (scanTrace_singleton ..).trans (if_pos hmay)
  · rfl

end uop

/-- The last read of a poll that completes confirms its field (R122). -/
theorem readConfirms_of_match {v : VariantConfig} {f : FieldId} {fld : RegisterField} {w : Nat}
    (hl : lookupField v f = some fld) (hm : fieldMatches fld w = true) : readConfirms v f fld.offset w = true := by
  simp [readConfirms, hl, hm]

theorem covers_scanRead_of_match {v : VariantConfig} {f : FieldId} {c : TimeoutCode} {fld : RegisterField} {w : Nat}
    {bracket : Bool} {sc sc' : Scan} (hl : lookupField v f = some fld) (hm : fieldMatches fld w = true)
    (hmore : ShowsMore sc sc') :
    covers (scanAfter bracket sc (.poll f c)) (scanRead v sc' fld.offset (.word w)) = true := by
  have hconfirms := readConfirms_of_match hl hm
  refine covers_iff.2 ⟨fun h => hmore.inInit.trans h, fun h => hmore.ctrlHeld.trans h, fun h => ?_, fun h => ?_⟩
  · simp only [scanAfter, Bool.or_eq_true, beq_iff_eq] at h
    rcases h with h | rfl
    · simp [scanRead, hmore.pllLocked h]
    · simp [scanRead, hconfirms]
  · simp only [scanAfter, Bool.or_eq_true, beq_iff_eq] at h
    rcases h with h | rfl
    · simp [scanRead, hmore.laneReady h]
    · simp [scanRead, hconfirms]

theorem scanLine_inInit (sc : Scan) (l : ResetLine) (b : Bool) : (scanLine sc l b).inInit = sc.inInit := by
  unfold scanLine
  split <;> rfl

theorem covers_scanLine_rsta {bracket : Bool} {sc : Scan} {x : Option Bool} {l : ResetLine}
    (hctrl : l = .ctrl → bracket = true → x.isSome = true) :
    covers (scanAfter bracket sc (.rsta l)) (if x.isSome then scanLine sc l true else sc) = true := by
  rw [scanAfter, scanLine]
  by_cases hl : l = .ctrl
  · cases hx : x.isSome with
    | true => simp [hl, covers_iff]
    | false =>
      have hbracket : bracket = false := by
        by_contra hbracket
        rw [hctrl hl (by simpa using hbracket)] at hx
        cases hx
      simp [hl, hbracket, covers_iff]
  · simp [hl, covers_refl]

theorem covers_scanLine_rstd (bracket : Bool) (sc : Scan) (x : Option Bool) (l : ResetLine) :
    covers (scanAfter bracket sc (.rstd l)) (if x.isSome then scanLine sc l false else sc) = true := by
  rw [scanAfter, scanLine]
  by_cases hl : l = .ctrl
  · cases x <;> simp [hl, covers_iff]
  · simp [hl, covers_refl]

theorem scan_poll_of_done {bracket : Bool} {sc : Scan} {f : FieldId} {c : TimeoutCode} {s u : State}
    (hb : s.busy = true) (hexec : exec (.poll f c) s = .next (advance u)) (hu : UopEffect (.poll f c) s u)
    (hscan : scanTrace s.cfg.variant bracket Scan.start s.trace = some sc) :
    ∃ sc', scanTrace s.cfg.variant bracket Scan.start u.trace = some sc' ∧
      covers (scanAfter bracket sc (.poll f c)) sc' = true ∧ sc'.inInit = sc.inInit := by
  obtain ⟨fld, hl, ⟨u', w, evs, -, hm, htrace, hevs, heq⟩ | ⟨u', e, -, heq⟩⟩ := exec_poll_cases hexec
  · have htrace' : u.trace = s.trace ++ evs ++ [.rd fld.offset (.word w)] := (congrArg State.trace heq).trans htrace
    have hkind : ∀ ev ∈ evs, UopEvent (.poll f c) ev := fun ev hev => by
      obtain ⟨r, rfl⟩ | ⟨us, rfl⟩ := hevs ev hev
      · exact .inl ⟨_, _, rfl⟩
      · exact .inr ⟨_, _, rfl⟩
    obtain ⟨sc', hsc', hmore⟩ := scanTrace_quiet (v := s.cfg.variant) (bracket := bracket) (evs := evs) (sc := sc)
      (fun ev hev => quietEvent_of_quietUop rfl (hkind ev hev))
      (fun ev hev => mayChange_of_uopMay rfl rfl (hkind ev hev))
    refine ⟨scanRead s.cfg.variant sc' fld.offset (.word w), ?_, covers_scanRead_of_match hl hm hmore, hmore.inInit⟩
    rw [htrace', scanTrace_append, scanTrace_append, hscan, Option.bind_some, hsc', Option.bind_some,
      scanTrace_singleton]
    rfl
  · have hbusy := congrArg State.busy heq
    rw [advance_busy, hu.busy, hb, abort_busy] at hbusy
    cases hbusy

/-- A micro-operation that may run and completes leaves a trace in order, which shows what it shows for certain. -/
theorem scan_of_done {bracket : Bool} {sc : Scan} {i : Instr} {s u : State} (hb : s.busy = true)
    (hexec : exec i s = .next (advance u)) (hu : UopDone i s u)
    (hctrl : bracket = true → (getLine s.rst .ctrl).isSome = true)
    (hscan : scanTrace s.cfg.variant bracket Scan.start s.trace = some sc) (hmay : uopMay bracket sc i = true) :
    ∃ sc', scanTrace s.cfg.variant bracket Scan.start u.trace = some sc' ∧
      covers (scanAfter bracket sc i) sc' = true ∧ (i ≠ .setst .poweringOn → sc'.inInit = sc.inInit) := by
  have hquiet : quietUop i = true → scanAfter bracket sc i = sc →
      ∃ sc', scanTrace s.cfg.variant bracket Scan.start u.trace = some sc' ∧
        covers (scanAfter bracket sc i) sc' = true ∧ (i ≠ .setst .poweringOn → sc'.inInit = sc.inInit) := by
    intro hi hafter
    obtain ⟨sc', hsc', hmore⟩ := hu.scan_quiet hi hscan hmay
    exact ⟨sc', hsc', by rw [hafter]; exact hmore.covers, fun _ => hmore.inInit⟩
  cases i with
  | setst st =>
    have htrace : u.trace = s.trace ++ [.state st] := (congrArg State.trace (Host.Outcome.next.inj hexec)).symm
    refine ⟨scanState sc st, ?_, covers_refl _, fun hne => ?_⟩
    · rw [htrace, scanTrace_append, hscan, Option.bind_some, scanTrace_singleton]
      rfl
    · rw [scanState, if_neg (by rintro rfl; exact hne rfl)]
  | rsta l =>
    have htrace : u.trace = (driveLine l true s).trace := (congrArg State.trace (Host.Outcome.next.inj hexec)).symm
    refine ⟨_, htrace ▸ scan_driveLine hscan hmay, covers_scanLine_rsta fun hl => hl ▸ hctrl, fun _ => ?_⟩
    split
    · exact scanLine_inInit sc l true
    · rfl
  | rstd l =>
    have htrace : u.trace = (driveLine l false s).trace := (congrArg State.trace (Host.Outcome.next.inj hexec)).symm
    refine ⟨_, htrace ▸ scan_driveLine hscan hmay, covers_scanLine_rstd bracket sc _ l, fun _ => ?_⟩
    split
    · exact scanLine_inInit sc l false
    · rfl
  | poll f c =>
    obtain ⟨sc', hsc', hcovers, hinit⟩ := scan_poll_of_done hb hexec hu.toUopEffect hscan
    exact ⟨sc', hsc', hcovers, fun _ => hinit⟩
  | _ => exact hquiet rfl rfl

/-! ### The bring-up images -/

/-- What the trace has shown for certain before micro-operation `n` of a bring-up image, once it has begun. -/
def promised (bracket : Bool) (r : RomSel) (n : Nat) : Scan :=
  { inInit := 1 ≤ n
    ctrlHeld := bracket && 2 ≤ n && n ≤ afterLanePoll r
    pllLocked := afterPllPoll r ≤ n
    laneReady := afterLanePoll r ≤ n }

/-- Every micro-operation of a bring-up image may run on what is promised before it; a PCIe INIT holds no line. -/
theorem uopMay_promised (b bracket : Bool) (r : RomSel) (hr : isBringUp r = true) (hpcie : r = .pcie → bracket = false) :
    ∀ n < (imageInstrs b r).length, ∀ i ∈ (imageInstrs b r)[n]?, uopMay bracket (promised bracket r n) i = true := by
  cases r with
  | pcie =>
    obtain rfl := hpcie rfl
    cases b <;> decide
  | usb3 => cases b <;> cases bracket <;> decide
  | _ => cases hr

/-- What a micro-operation of a bring-up image shows for certain is what is promised after it. -/
theorem covers_promised_succ (b bracket : Bool) (r : RomSel) (hr : isBringUp r = true)
    (hpcie : r = .pcie → bracket = false) :
    ∀ n < (imageInstrs b r).length, ∀ i ∈ (imageInstrs b r)[n]?,
      covers (promised bracket r (n + 1)) (scanAfter bracket (promised bracket r n) i) = true := by
  cases r with
  | pcie =>
    obtain rfl := hpcie rfl
    cases b <;> decide
  | usb3 => cases b <;> cases bracket <;> decide
  | _ => cases hr

theorem covers_trans {a b c : Scan} (h : covers a b = true) (h' : covers b c = true) : covers a c = true := by
  obtain ⟨hinit, hctrl, hpll, hlane⟩ := covers_iff.1 h
  obtain ⟨hinit', hctrl', hpll', hlane'⟩ := covers_iff.1 h'
  exact covers_iff.2 ⟨hinit' ∘ hinit, hctrl' ∘ hctrl, hpll' ∘ hpll, hlane' ∘ hlane⟩

/-- Within an INIT, showing more forbids nothing. -/
theorem mayChange_of_covers {bracket : Bool} {p sc : Scan} (h : covers p sc = true) (hinit : p.inInit = true)
    (hmay : mayChange bracket p = true) : mayChange bracket sc = true := by
  obtain ⟨hinit', hctrl, -, -⟩ := covers_iff.1 h
  simp only [mayChange, hinit, Bool.and_true, Bool.or_eq_true] at hmay
  simp only [mayChange, hinit' hinit, Bool.and_true, Bool.or_eq_true]
  exact hmay.imp_right hctrl

theorem mayDrive_of_covers {bracket : Bool} {p sc : Scan} (h : covers p sc = true) (hinit : p.inInit = true)
    {l : ResetLine} {b : Bool} (hmay : mayDrive bracket p l b = true) : mayDrive bracket sc l b = true := by
  obtain ⟨hinit', -, hpll, hlane⟩ := covers_iff.1 h
  cases l with
  | ctrl =>
    simp only [mayDrive, Bool.or_eq_true, Bool.and_eq_true] at hmay ⊢
    exact hmay.imp_right (.imp hinit' hlane)
  | por => exact mayChange_of_covers h hinit hmay
  | regbus => exact mayChange_of_covers h hinit hmay
  | datapath =>
    simp only [mayDrive, Bool.or_eq_true, Bool.and_eq_true] at hmay ⊢
    exact hmay.imp (mayChange_of_covers h hinit) (.imp_right (.imp hinit' hpll))

theorem uopMay_of_covers {bracket : Bool} {p sc : Scan} (h : covers p sc = true) (hinit : p.inInit = true) {i : Instr}
    (hmay : uopMay bracket p i = true) : uopMay bracket sc i = true := by
  cases i with
  | rsta l => exact mayDrive_of_covers h hinit hmay
  | rstd l => exact mayDrive_of_covers h hinit hmay
  | clken => exact mayChange_of_covers h hinit hmay
  | clkdis => exact mayChange_of_covers h hinit hmay
  | wrf f e => exact mayChange_of_covers h hinit hmay
  | hook => exact mayChange_of_covers h hinit hmay
  | _ => rfl

theorem covers_scanAfter {p sc : Scan} (h : covers p sc = true) (bracket : Bool) (i : Instr) :
    covers (scanAfter bracket p i) (scanAfter bracket sc i) = true := by
  obtain ⟨hinit, hctrl, hpll, hlane⟩ := covers_iff.1 h
  cases i with
  | setst st =>
    simp only [scanAfter, scanState]
    split
    · exact covers_refl _
    · exact h
  | rsta l =>
    simp only [scanAfter]
    split
    · exact covers_iff.2 ⟨hinit, by simpa using fun h' => h'.imp_right hctrl, hpll, hlane⟩
    · exact h
  | rstd l =>
    simp only [scanAfter]
    split
    · exact covers_iff.2 ⟨hinit, id, hpll, hlane⟩
    · exact h
  | poll f c =>
    exact covers_iff.2 ⟨hinit, hctrl, by simpa [scanAfter] using fun h' => h'.imp_left hpll,
      by simpa [scanAfter] using fun h' => h'.imp_left hlane⟩
  | _ => exact h

/-- A micro-operation of a bring-up image may run where the trace has shown what is promised before it. The first one
begins the INIT, and may run whatever has been shown. -/
theorem uopMay_of_bringUp {b bracket : Bool} {r : RomSel} (hr : isBringUp r = true)
    (hpcie : r = .pcie → bracket = false) {n : Nat} {i : Instr} (hi : (imageInstrs b r)[n]? = some i) {sc : Scan}
    (hsc : covers (promised bracket r n) sc = true) : uopMay bracket sc i = true := by
  have hn := (List.getElem?_eq_some_iff.1 hi).1
  cases n with
  | zero =>
    have hfirst : (imageInstrs b r)[0]? = some (.setst .poweringOn) := by
      rcases isBringUp_eq_true_iff.1 hr with rfl | rfl <;> rfl
    obtain rfl := Option.some.inj (hi.symm.trans hfirst)
    rfl
  | succ n =>
    refine uopMay_of_covers hsc ?_ (uopMay_promised b bracket r hr hpcie _ hn i hi)
    simp [promised]

/-- Outside an INIT, the micro-operations of ROM_EXIT and ROM_CMPL may run. -/
theorem uopMay_of_not_bringUp {b bracket : Bool} {r : RomSel} (hr : isBringUp r = false) {i : Instr}
    (hi : i ∈ imageInstrs b r) {sc : Scan} (hinit : sc.inInit = false) : uopMay bracket sc i = true := by
  have hmay : mayChange bracket sc = true := by simp [mayChange, hinit]
  cases r with
  | exit =>
    rcases exitInstrs_cases hi with ⟨st, rfl⟩ | ⟨l, rfl⟩ | rfl | rfl
    · rfl
    · cases l <;> simp [uopMay, mayDrive, hmay]
    · exact hmay
    · rfl
  | cmpl =>
    simp only [imageInstrs, cmplInstrs, List.mem_cons, List.not_mem_nil, or_false] at hi
    rcases hi with rfl | rfl
    · exact hmay
    · rfl
  | _ => cases hr

/-- No INIT begins in ROM_EXIT or ROM_CMPL. -/
theorem ne_poweringOn_of_not_bringUp {b : Bool} {r : RomSel} (hr : isBringUp r = false) :
    Instr.setst .poweringOn ∉ imageInstrs b r := by
  cases r with
  | exit => cases b <;> decide
  | cmpl => cases b <;> decide
  | _ => cases hr

/-! ### The steps -/

/-- The invariant, with what a bring-up has shown as one comparison. -/
theorem orderedTrace_iff {s : State} :
    s.OrderedTrace ↔ ∃ sc, scanTrace s.cfg.variant (holdsCtrl s) Scan.start s.trace = some sc ∧
      ((s.busy && isBringUp s.romsel) = false → sc.inInit = false) ∧
      (s.busy = true → isBringUp s.romsel = true →
        covers (promised (holdsCtrl s) s.romsel s.upc.toNat) sc = true) := by
  simp only [State.OrderedTrace, covers_iff, promised, decide_eq_true_eq, Bool.and_eq_true, and_imp]

theorem holdsCtrl_congr {s t : State} (htype : t.protoType = s.protoType)
    (hctrl : t.rst.ctrl.isSome = s.rst.ctrl.isSome) : holdsCtrl t = holdsCtrl s := by
  rw [holdsCtrl, holdsCtrl, htype, hctrl]

/-- An event in order is in order where no line is to be held. -/
theorem scanEvent_unbracketed {v : VariantConfig} {bracket : Bool} {sc sc' : Scan} {ev : Event}
    (h : scanEvent v bracket sc ev = some sc') : scanEvent v false sc ev = some sc' := by
  have hmay : mayChange false sc = true := rfl
  cases ev with
  | rst l asserted =>
    obtain ⟨hdrive, hsc'⟩ := Option.ite_none_right_eq_some.1 h
    refine (if_pos ?_).trans hsc'
    cases l with
    | ctrl => exact hdrive
    | datapath =>
      simp only [mayDrive, Bool.and_eq_true] at hdrive ⊢
      exact ⟨hmay, hdrive.2⟩
    | _ => exact hmay
  | clk on => exact (if_pos (e := none) hmay).trans (Option.ite_none_right_eq_some.1 h).2
  | wr a w resp => exact (if_pos (e := none) hmay).trans (Option.ite_none_right_eq_some.1 h).2
  | _ => exact h

theorem scanTrace_unbracketed {v : VariantConfig} {bracket : Bool} {sc sc' : Scan} {evs : List Event}
    (h : scanTrace v bracket sc evs = some sc') : scanTrace v false sc evs = some sc' := by
  induction evs generalizing sc with
  | nil => exact h
  | cons ev evs ih =>
    rw [scanTrace] at h ⊢
    obtain ⟨sc₁, hev, hevs⟩ := Option.bind_eq_some_iff.1 h
    rw [scanEvent_unbracketed hev]
    exact ih hevs

/-- A result ends what a trace has shown. -/
theorem scanTrace_result {v : VariantConfig} {bracket : Bool} {sc : Scan} {evs : List Event} (cmd : HostCmd)
    (code : ResultCode) (h : scanTrace v bracket Scan.start evs = some sc) :
    scanTrace v bracket Scan.start (evs ++ [.result cmd code]) = some Scan.start := by
  rw [scanTrace_append, h, Option.bind_some, scanTrace_singleton]
  rfl

/-- A state in which no image runs is in order when its trace ends with a result, and what comes before is in order. -/
theorem orderedTrace_of_result {t : State} {evs : List Event} {sc : Scan} {cmd : HostCmd} {code : ResultCode}
    (hb : t.busy = false) (htrace : t.trace = evs ++ [.result cmd code])
    (h : scanTrace t.cfg.variant (holdsCtrl t) Scan.start evs = some sc) : t.OrderedTrace := by
  refine orderedTrace_iff.2 ⟨Scan.start, ?_, fun _ => rfl, fun hbusy => ?_⟩
  · rw [htrace]
    exact scanTrace_result cmd code h
  · rw [hb] at hbusy
    cases hbusy

/-- What aborts drives no line and begins no INIT: SETST, RSTA and RSTD always go on. -/
theorem quietUop_of_aborts {i : Instr} {e : ErrorCode} {s u : State} (hb : s.busy = true)
    (hexec : exec i s = .next (abort e u)) : quietUop i = true := by
  have hbusy : ∀ t, exec i s = .next t → t.busy = false := fun t ht => by
    rw [← Host.Outcome.next.inj (hexec.symm.trans ht), abort_busy]
  cases i with
  | setst st => exact absurd (hbusy _ (exec_setst st s)) (by simp [hb])
  | rsta l => exact absurd (hbusy _ (exec_rsta l s)) (by simp [hb])
  | rstd l => exact absurd (hbusy _ (exec_rstd l s)) (by simp [hb])
  | _ => rfl

/-- In a PCIe INIT no line is held. -/
theorem State.Inv.holdsCtrl_of_pcie {s : State} (h : s.Inv) (hb : s.busy = true) (hr : s.romsel = .pcie) :
    holdsCtrl s = false := by
  have hfits := (h.stateFits hb).1
  rw [hr] at hfits
  have htype : s.protoType = .pcie := beq_iff_eq.1 hfits
  simp [holdsCtrl, htype]

/-- In a legal state whose trace is in order, the micro-operation at the fetch may run. -/
theorem State.Inv.uopMay {s : State} (h : s.Inv) (hb : s.busy = true) {w : UopWord} {i : Instr}
    (hfetch : Fetches s w i) {sc : Scan} (hidle : (s.busy && isBringUp s.romsel) = false → sc.inInit = false)
    (hshown : isBringUp s.romsel = true → covers (promised (holdsCtrl s) s.romsel s.upc.toNat) sc = true) :
    uopMay (holdsCtrl s) sc i = true := by
  have hi := h.image_getElem? hfetch
  cases hr : isBringUp s.romsel with
  | true => exact uopMay_of_bringUp hr (h.holdsCtrl_of_pcie hb) hi (hshown hr)
  | false => exact uopMay_of_not_bringUp hr (List.mem_of_getElem? hi) (hidle (by rw [hr, Bool.and_false]))

/-- Recording a type holds no line that was not to be held before. -/
theorem scanTrace_of_typed {s t : State} {sc : Scan} (hwas : s.protoType = .unassigned)
    (hctrl : t.rst.ctrl.isSome = s.rst.ctrl.isSome)
    (h : scanTrace s.cfg.variant (holdsCtrl s) Scan.start s.trace = some sc) :
    scanTrace s.cfg.variant (holdsCtrl t) Scan.start s.trace = some sc := by
  cases ht : holdsCtrl t with
  | false => exact scanTrace_unbracketed h
  | true =>
    have hs : holdsCtrl s = true := by
      simp only [holdsCtrl, Bool.and_eq_true] at ht ⊢
      rw [hwas, ← hctrl]
      exact ⟨rfl, ht.2⟩
    rwa [hs] at h

/-- Nothing is promised before an image has begun. -/
theorem covers_promised_zero (bracket : Bool) (r : RomSel) (sc : Scan) :
    covers (promised bracket r 0) sc = true := by
  cases r <;> simp [covers_iff, promised, afterPllPoll, afterLanePoll]

/-- A micro-operation that completes leaves the trace in order and the promises of its image kept. -/
theorem orderedTrace_of_done {s u : State} {w : UopWord} {i : Instr} (h : s.Inv) (hordered : s.OrderedTrace)
    (hb : s.busy = true) (hfetch : Fetches s w i) (hexec : exec i s = .next (advance u)) (hu : UopDone i s u) :
    (advance u).OrderedTrace := by
  obtain ⟨sc, hscan, hidle, hshown⟩ := orderedTrace_iff.1 hordered
  have hi := h.image_getElem? hfetch
  obtain ⟨sc', hsc', hcovers, hinit⟩ :=
    scan_of_done hb hexec hu (by simp [holdsCtrl, getLine]) hscan (h.uopMay hb hfetch hidle (hshown hb))
  have hholds : holdsCtrl (advance u) = holdsCtrl s :=
    holdsCtrl_congr hu.protoType (exec_getLine_isSome hexec .ctrl)
  refine orderedTrace_iff.2 ⟨sc', ?_, fun hnot => ?_, fun _ hr => ?_⟩
  · rw [hholds, advance_cfg, hu.cfg]
    exact hsc'
  · rw [advance_busy, hu.busy, advance_romsel, hu.romsel] at hnot
    have hr : isBringUp s.romsel = false := by rwa [hb, Bool.true_and] at hnot
    rw [hinit fun heq => ne_poweringOn_of_not_bringUp hr (List.mem_of_getElem? (heq ▸ hi)), hidle hnot]
  · rw [advance_romsel, hu.romsel] at hr
    rw [hholds, advance_romsel, hu.romsel, advance_upc, hu.upc, h.upc_succ hb]
    have hnext := covers_promised_succ _ _ _ hr (h.holdsCtrl_of_pcie hb) _ (h.upc_lt hb) i hi
    exact covers_trans hnext (covers_trans (covers_scanAfter (hshown hb hr) _ i) hcovers)

/-- An abort leaves the trace in order: what it shows before its result is at most that `STATE` is Idle. -/
theorem orderedTrace_of_raised {s u : State} {w : UopWord} {i : Instr} {e : ErrorCode} (h : s.Inv)
    (hordered : s.OrderedTrace) (hb : s.busy = true) (hfetch : Fetches s w i) (hexec : exec i s = .next (abort e u))
    (hu : UopRaised i s u) : (abort e u).OrderedTrace := by
  obtain ⟨sc, hscan, hidle, hshown⟩ := orderedTrace_iff.1 hordered
  obtain ⟨sc', hsc', -⟩ :=
    hu.scan_quiet (quietUop_of_aborts hb hexec) hscan (h.uopMay hb hfetch hidle (hshown hb))
  have hholds : holdsCtrl (abort e u) = holdsCtrl s :=
    holdsCtrl_congr ((abort_protoType e u).trans hu.protoType) (exec_getLine_isSome hexec .ctrl)
  refine orderedTrace_of_result (abort_busy e u) (abort_trace e u) (sc := sc') ?_
  rw [hholds, abort_cfg, hu.cfg, scanTrace_append, hsc', Option.bind_some]
  split
  · rw [scanTrace_singleton]
    rfl
  · rfl

/-- Settles O56: each way of a step. -/
theorem stepKeepsTraceOrdered : Obligations.StepKeepsTraceOrdered := by
  intro s t h hordered hstep
  obtain ⟨sc, hscan, hidle, hshown⟩ := orderedTrace_iff.1 hordered
  cases stepWay_of_step hstep with
  | waits hb => exact hordered
  | answers hb rest cmd code => exact orderedTrace_of_result rfl rfl hscan
  | types hb rest p huntyped htyped => exact orderedTrace_of_result rfl rfl (scanTrace_of_typed huntyped rfl hscan)
  | starts hb rest i r hstarts =>
    exact orderedTrace_iff.2 ⟨sc, hscan, fun _ => hidle (by rw [hb]; rfl), fun _ _ => covers_promised_zero _ _ _⟩
  | ends hb w hfetch => exact orderedTrace_of_result rfl rfl hscan
  | advances hb w i u hfetch hne hexec hu => exact orderedTrace_of_done h hordered hb hfetch hexec hu
  | aborts hb w i e u hfetch hexec hu => exact orderedTrace_of_raised h hordered hb hfetch hexec hu

end Sys2Proof.Machine

/-!
PROOFS. Construction (spec/70_reset_and_hazards.md R280, R283; spec/10_state.md R38) and what the checks of a variant give
(spec/43_variant_config.md R145): a constructed state is idle with an empty trace, so that of the three invariants only
the checks of the parameters and of the register space ask for anything.
-/

namespace Sys2Proof.Machine

/-! ### Construction -/

/-- Settles O48: the values of R38, line by line. -/
theorem constructionValues : Obligations.ConstructionValues := by
  intro cfg present u
  refine ⟨rfl, rfl, rfl, rfl, rfl, fun l => ?_, rfl, rfl, rfl, rfl, rfl, rfl, rfl, rfl⟩
  cases l <;> rfl

/-- Settles O49: the conditions of R283 in the order they are looked at. -/
theorem constructionRequirements : Obligations.ConstructionRequirements := by
  intro table board d u s
  unfold construct
  cases hclock : d.refclk with
  | none => simp
  | some rate =>
    cases hchip : table.lookup d.chip with
    | none => simp
    | some v =>
      cases hwf : variantWf board.widths v with
      | false => simp [hwf]
      | true =>
        cases howned : d.regSpaceOwned with
        | true => simp [hwf]
        | false => simpa [hwf, instanceParams] using eq_comm

section build

variable {cfg : Params} {u : OpenValues}

theorem inv_build (hparams : paramsWf cfg = true) (hregs : memoryWf cfg.widths u.regs = true)
    (present : PerLine Bool) : (State.build cfg present u).Inv where
  regs := hregs
  params := hparams
  images := rfl
  position := rfl

/-- A newly built block is idle, so that no image has driven anything, and not Ready. -/
theorem powered_build (cfg : Params) (present : PerLine Bool) (u : OpenValues) :
    (State.build cfg present u).Powered := powered_iff.2 ⟨nofun, nofun⟩

theorem orderedTrace_build (cfg : Params) (present : PerLine Bool) (u : OpenValues) :
    (State.build cfg present u).OrderedTrace := orderedTrace_iff.2 ⟨Scan.start, rfl, fun _ => rfl, nofun⟩

end build

/-- Settles O53: the verdict on the variant is a condition of construction, the rest of the check a hypothesis. -/
theorem constructedIsLegal : Obligations.ConstructedIsLegal := by
  intro table board d u s hs hwidths hregs hpoll
  obtain ⟨rate, v, -, -, hv, -, rfl⟩ := (constructionRequirements table board d u s).1 hs
  have hparams : paramsWf { board with variant := v, refclkRateHz := rate } = true := by
    simp [paramsWf, hwidths, hv, hpoll]
  exact ⟨inv_build hparams hregs _, powered_build _ _ _, orderedTrace_build _ _ _⟩

/-- The default board passes the checks (spec/95_test_vectors.md section 0). -/
theorem paramsWf_defaultBoard : paramsWf defaultBoard = true := by decide

/-- Settles O52: reset is construction on the default board, with an empty register space. -/
theorem resetIsLegal : Obligations.ResetIsLegal :=
  ⟨inv_build paramsWf_defaultBoard rfl _, powered_build _ _ _, orderedTrace_build _ _ _⟩

/-! ### Status bits -/

theorem checkWF1_of_variantWf {n : Widths} {v : VariantConfig} (hv : variantWf n v = true) : checkWF1 n v = true := by
  simp only [variantWf, Bool.and_eq_true] at hv
  tauto

theorem checkWF9_of_variantWf {n : Widths} {v : VariantConfig} (hv : variantWf n v = true) : checkWF9 v = true := by
  simp only [variantWf, Bool.and_eq_true] at hv
  tauto

theorem mem_fields_of_lookupField {v : VariantConfig} {f : FieldId} {fld : RegisterField}
    (h : lookupField v f = some fld) : (f, fld) ∈ v.fields := by
  obtain ⟨l₁, l₂, hfields, -⟩ := List.lookup_eq_some_iff.1 h
  simp [hfields]

/-- Settles O51: a bit of both fields would be one that WF9 excludes. -/
theorem writesSpareStatusBits : Obligations.WritesSpareStatusBits := by
  intro n v f g fld sfld hv hwritten hstatus hl hl' hoffset i hlow hhigh
  have hmem := mem_fields_of_lookupField hl
  have horder : fld.bitStart ≤ fld.bitEnd := by
    have hwf1 := List.all_eq_true.1 (checkWF1_of_variantWf hv) _ hmem
    simp only [Bool.and_eq_true, decide_eq_true_eq] at hwf1
    exact hwf1.1
  have hapart : fieldsOverlap fld sfld = false := by
    have hwf9 := List.all_eq_true.1 (List.all_eq_true.1 (checkWF9_of_variantWf hv) _ hmem) _
      (mem_fields_of_lookupField hl')
    have hisStatus : isStatusField g = true := by rcases hstatus with rfl | rfl <;> rfl
    simpa [hwritten, hisStatus] using hwf9
  rw [fieldMask_testBit horder]
  by_contra hbit
  simp only [Bool.not_eq_false, Bool.and_eq_true, decide_eq_true_eq] at hbit
  obtain ⟨-, hstart, hend⟩ := hbit
  simp only [fieldsOverlap, hoffset, beq_self_eq_true, Bool.true_and, Bool.and_eq_false_iff, decide_eq_false_iff_not]
    at hapart
  omega

end Sys2Proof.Machine

/-!
PROOFS. The runs of the fine-tuning hook (spec/43_variant_config.md R152 to R156). A hook issues a list of writes, whether
they stand in WRITE steps or in the entries of RATE steps; how far it comes along that list is the one question, and a
write that is not answered OK or a RATE step that does not know the rate ends it there.
-/

namespace Sys2Proof.Machine

/-! ### Writes answered OK -/

/-- These hook writes have been performed, each answered OK, with these answers left. -/
structure WritesDone (ws : List HookWrite) (rest : List WriteAnswer) (s u : State) : Prop where
  frame : u = { s with
    regs := u.regs, trace := u.trace, env := u.env, hookIdx := u.hookIdx, hookSub := u.hookSub }
  trace : u.trace = s.trace ++ ws.filterMap (okWriteEvent s.cfg.widths s.cfg.variant)
  regs : u.regs = ws.foldl (okWriteRegs s.cfg.widths s.cfg.variant) s.regs
  answers : u.env.writes = rest

section writes

variable {ws ws' : List HookWrite} {w : HookWrite} {rest rest' : List WriteAnswer} {s u v : State}

theorem WritesDone.cfg (h : WritesDone ws rest s u) : u.cfg = s.cfg := by rw [h.frame]

theorem WritesDone.rate (h : WritesDone ws rest s u) : u.cfg.refclkRateHz = s.cfg.refclkRateHz := by rw [h.cfg]

theorem WritesDone.refl (s : State) : WritesDone [] s.env.writes s s where
  frame := rfl
  trace := (List.append_nil _).symm
  regs := rfl
  answers := rfl

theorem WritesDone.trans (h : WritesDone ws rest s u) (h' : WritesDone ws' rest' u v) :
    WritesDone (ws ++ ws') rest' s v where
  frame := by rw [h'.frame, h.frame]
  trace := by rw [h'.trace, h.trace, h.cfg, List.filterMap_append, List.append_assoc]
  regs := by rw [h'.regs, h.regs, h.cfg, List.foldl_append]
  answers := h'.answers

/-- The scratch state of the hook has no part in its writes. -/
theorem WritesDone.of_scratch (h : WritesDone ws rest s u) (a b : Nat) :
    WritesDone ws rest s { u with hookIdx := a, hookSub := b } where
  frame := by rw [h.frame]
  trace := h.trace
  regs := h.regs
  answers := h.answers

theorem WritesDone.to_scratch {a b : Nat} (h : WritesDone ws rest { s with hookIdx := a, hookSub := b } u) :
    WritesDone ws rest s u where
  frame := by rw [h.frame]
  trace := h.trace
  regs := h.regs
  answers := h.answers

theorem nextWrite_of_cons {d : Draws} {a : WriteAnswer} (h : d.writes = a :: rest) :
    nextWrite d = (a, { d with writes := rest }) := by
  rw [nextWrite, h]

/-- Every field that a hook names is defined and lies at a register. -/
def HookReady (s : State) (ws : List HookWrite) : Prop :=
  ∀ w ∈ ws, ∃ fld, lookupField s.cfg.variant w.field = some fld ∧ registerAt s.cfg.widths fld.offset

theorem HookReady.of_cfg {t : State} (h : HookReady s ws) (hcfg : t.cfg = s.cfg) : HookReady t ws := by
  rw [HookReady, hcfg]
  exact h

/-- A hook write answered OK. -/
theorem writeField_hook_of_ok (hready : HookReady s (w :: ws)) (hanswers : s.env.writes = .ok :: rest) :
    ∃ u, writeField w.field w.enabled s = .done u ∧ WritesDone [w] rest s u := by
  obtain ⟨fld, hl, ha⟩ := hready w List.mem_cons_self
  have hnext := nextWrite_of_cons hanswers
  refine ⟨_, writeField_of_ok hl ha (by rw [hnext]) w.enabled, ?_⟩
  exact
    { frame := rfl
      trace := by
        rw [busWrite_trace, busWrite_fst, hnext]
        simp [okWriteEvent, hl, writeResp]
      regs := by
        rw [busWrite_regs, hnext]
        simp [okWriteRegs, hl, landedMask]
      answers := by rw [busWrite_env, hnext] }

/-- The list of a RATE entry with every write answered OK. -/
theorem runHookWrites_of_ok (hready : HookReady s ws)
    (hanswers : s.env.writes = List.replicate ws.length .ok ++ rest) :
    ∃ u, runHookWrites ws s = .done u ∧ WritesDone ws rest s u := by
  induction ws generalizing s with
  | nil =>
    obtain rfl : s.env.writes = rest := hanswers
    exact ⟨s, rfl, .refl s⟩
  | cons w ws ih =>
    obtain ⟨u, hwrite, hu⟩ := writeField_hook_of_ok hready hanswers
    have hu' := hu.of_scratch u.hookIdx (u.hookSub + 1)
    obtain ⟨v, hrun, hv⟩ := ih (s := { u with hookSub := u.hookSub + 1 })
      (HookReady.of_cfg (fun x hx => hready x (List.mem_cons_of_mem w hx)) hu.cfg) hu'.answers
    exact ⟨v, by rw [runHookWrites, hwrite, andThen_done, hrun], hu'.trans hv⟩

/-- The list of a RATE entry up to a write answered BUSERR. -/
theorem runHookWrites_of_busErr {post : List HookWrite} {fld : RegisterField} {landed : Nat}
    (hready : HookReady s (ws ++ w :: post)) (hl : lookupField s.cfg.variant w.field = some fld)
    (hanswers : s.env.writes = List.replicate ws.length .ok ++ .busErr landed :: rest) :
    ∃ u, runHookWrites (ws ++ w :: post) s =
        .raised .registerError (busWrite fld.offset (writeWord s.cfg.widths fld w.enabled) u).2 ∧
      WritesDone ws (.busErr landed :: rest) s u := by
  induction ws generalizing s with
  | nil =>
    obtain ⟨fld', hl', ha⟩ := hready w (by simp)
    obtain rfl := Option.some.inj (hl.symm.trans hl')
    have hnext : s.env.writes = .busErr landed :: rest := hanswers
    refine ⟨s, ?_, hnext ▸ .refl s⟩
    rw [List.nil_append, runHookWrites,
      writeField_of_busErr hl ha (by rw [nextWrite_of_cons hnext]) w.enabled, andThen_raised]
  | cons w' ws ih =>
    obtain ⟨u, hwrite, hu⟩ := writeField_hook_of_ok hready hanswers
    have hu' := hu.of_scratch u.hookIdx (u.hookSub + 1)
    obtain ⟨v, hrun, hv⟩ := ih (s := { u with hookSub := u.hookSub + 1 })
      (HookReady.of_cfg (fun x hx => hready x (List.mem_cons_of_mem w' hx)) hu.cfg) (by rw [← hl, ← hu.cfg])
      hu'.answers
    refine ⟨v, ?_, hu'.trans hv⟩
    rw [List.cons_append, runHookWrites, hwrite, andThen_done, hrun, ← hu.cfg]

/-! ### The steps of a hook -/

/-- How the hook ends once every write it issues is answered OK: completed, or at a RATE step that does not know the
rate. -/
def afterWrites (rateHz : BitVec 32) (sts : List HookStep) (u : State) : Act :=
  match hookPlan rateHz sts with
  | some _ => .done u
  | none => .raised .unsupportedClockRate u

theorem afterWrites_write (rateHz : BitVec 32) (w : HookWrite) (sts : List HookStep) (u : State) :
    afterWrites rateHz (.write w :: sts) u = afterWrites rateHz sts u := by
  rw [afterWrites, afterWrites, hookPlan]
  cases hookPlan rateHz sts <;> rfl

theorem afterWrites_rate {rateHz : BitVec 32} {table : List RateEntry} {r : RateEntry}
    (h : rateEntry table rateHz = some r) (sts : List HookStep) (u : State) :
    afterWrites rateHz (.rate table :: sts) u = afterWrites rateHz sts u := by
  rw [afterWrites, afterWrites, hookPlan, h]
  cases hookPlan rateHz sts <;> rfl

theorem hookIssued_rate {rateHz : BitVec 32} {table : List RateEntry} {r : RateEntry}
    (h : rateEntry table rateHz = some r) (sts : List HookStep) :
    hookIssued rateHz (.rate table :: sts) = r.writes ++ hookIssued rateHz sts := by
  rw [hookIssued, h]

theorem hookIssued_rate_of_none {rateHz : BitVec 32} {table : List RateEntry} (h : rateEntry table rateHz = none)
    (sts : List HookStep) : hookIssued rateHz (.rate table :: sts) = [] := by
  rw [hookIssued, h]

theorem runHookStep_rate_of_some {table : List RateEntry} {r : RateEntry}
    (h : rateEntry table s.cfg.refclkRateHz = some r) :
    runHookStep (.rate table) s = runHookWrites r.writes { s with hookSub := 0 } := by
  simp only [runHookStep, h]

theorem runHookStep_rate_of_none {table : List RateEntry} (h : rateEntry table s.cfg.refclkRateHz = none) :
    runHookStep (.rate table) s = .raised .unsupportedClockRate s := by
  simp only [runHookStep, h]

/-- An element of two lists in a row, with what stands before it, is in the first or in the second. -/
theorem append_eq_append_cons {α : Type} {xs ys as bs : List α} {x : α} (h : xs ++ ys = as ++ x :: bs) :
    (∃ as', as = xs ++ as' ∧ ys = as' ++ x :: bs) ∨ ∃ bs', xs = as ++ x :: bs' := by
  rcases List.append_eq_append_iff.1 h with ⟨as', has, hys⟩ | ⟨bs', hxs, hbs⟩
  · exact .inl ⟨as', has, hys⟩
  · cases bs' with
    | nil => exact .inl ⟨[], by rw [hxs, List.append_nil, List.append_nil], hbs.symm⟩
    | cons b bs' =>
      obtain ⟨rfl, -⟩ := List.cons.inj hbs
      exact .inr ⟨bs', hxs⟩

/-- A hook whose writes are all answered OK performs all it issues. -/
theorem runHookSteps_of_ok {sts : List HookStep} {rateHz : BitVec 32} (hrate : s.cfg.refclkRateHz = rateHz)
    (hready : HookReady s (hookIssued rateHz sts))
    (hanswers : s.env.writes = List.replicate (hookIssued rateHz sts).length .ok ++ rest) :
    ∃ u, runHookSteps sts s = afterWrites rateHz sts u ∧ WritesDone (hookIssued rateHz sts) rest s u := by
  induction sts generalizing s with
  | nil =>
    obtain rfl : s.env.writes = rest := hanswers
    exact ⟨s, rfl, .refl s⟩
  | cons st sts ih =>
    cases st with
    | write w =>
      obtain ⟨u, hwrite, hu⟩ := writeField_hook_of_ok hready hanswers
      have hu' := hu.of_scratch (u.hookIdx + 1) u.hookSub
      obtain ⟨v, hrun, hv⟩ := ih (s := { u with hookIdx := u.hookIdx + 1 }) (hu.rate.trans hrate)
        (.of_cfg (fun x hx => hready x (List.mem_cons_of_mem w hx)) hu.cfg) hu'.answers
      refine ⟨v, ?_, hu'.trans hv⟩
      rw [runHookSteps, runHookStep, hwrite, andThen_done, hrun, afterWrites_write]
    | rate table =>
      cases hr : rateEntry table rateHz with
      | none =>
        rw [hookIssued_rate_of_none hr] at hanswers ⊢
        obtain rfl : s.env.writes = rest := hanswers
        refine ⟨s, ?_, .refl s⟩
        rw [runHookSteps, runHookStep_rate_of_none (hrate.symm ▸ hr), afterWrites, hookPlan, hr]
        rfl
      | some r =>
        rw [hookIssued_rate hr] at hready hanswers ⊢
        rw [List.length_append, ← List.replicate_append_replicate, List.append_assoc] at hanswers
        obtain ⟨u, hwrites, hu⟩ := runHookWrites_of_ok (s := { s with hookSub := 0 })
          (fun x hx => hready x (List.mem_append_left _ hx)) hanswers
        have hu' := (hu.to_scratch (a := s.hookIdx)).of_scratch (u.hookIdx + 1) u.hookSub
        obtain ⟨v, hrun, hv⟩ := ih (s := { u with hookIdx := u.hookIdx + 1 }) (hu'.rate.trans hrate)
          (.of_cfg (fun x hx => hready x (List.mem_append_right _ hx)) hu'.cfg) hu'.answers
        refine ⟨v, ?_, hu'.trans hv⟩
        rw [runHookSteps, runHookStep_rate_of_some (hrate.symm ▸ hr), hwrites, andThen_done, hrun, afterWrites_rate hr]

/-- A hook comes to the first write answered BUSERR and ends there, whatever is to come after it. -/
theorem runHookSteps_of_busErr {sts : List HookStep} {rateHz : BitVec 32} {post : List HookWrite}
    {fld : RegisterField} {landed : Nat} (hrate : s.cfg.refclkRateHz = rateHz)
    (hready : HookReady s (hookIssued rateHz sts)) (hissued : hookIssued rateHz sts = ws ++ w :: post)
    (hl : lookupField s.cfg.variant w.field = some fld)
    (hanswers : s.env.writes = List.replicate ws.length .ok ++ .busErr landed :: rest) :
    ∃ u, runHookSteps sts s =
        .raised .registerError (busWrite fld.offset (writeWord s.cfg.widths fld w.enabled) u).2 ∧
      WritesDone ws (.busErr landed :: rest) s u := by
  induction sts generalizing s ws with
  | nil => simp [hookIssued] at hissued
  | cons st sts ih =>
    cases st with
    | write w' =>
      rw [hookIssued] at hissued hready
      cases ws with
      | nil =>
        obtain ⟨rfl, -⟩ := List.cons.inj hissued
        obtain ⟨fld', hl', ha⟩ := hready w' List.mem_cons_self
        obtain rfl := Option.some.inj (hl.symm.trans hl')
        have hnext : s.env.writes = .busErr landed :: rest := hanswers
        refine ⟨s, ?_, hnext ▸ .refl s⟩
        rw [runHookSteps, runHookStep,
          writeField_of_busErr hl ha (by rw [nextWrite_of_cons hnext]) w'.enabled, andThen_raised]
      | cons w₀ ws =>
        obtain ⟨rfl, hrest⟩ := List.cons.inj hissued
        obtain ⟨u, hwrite, hu⟩ := writeField_hook_of_ok hready hanswers
        have hu' := hu.of_scratch (u.hookIdx + 1) u.hookSub
        obtain ⟨v, hrun, hv⟩ := ih (s := { u with hookIdx := u.hookIdx + 1 }) (hu.rate.trans hrate)
          (.of_cfg (fun x hx => hready x (List.mem_cons_of_mem w' hx)) hu.cfg) hrest (by rw [← hl, ← hu.cfg])
          hu'.answers
        refine ⟨v, ?_, hu'.trans hv⟩
        rw [runHookSteps, runHookStep, hwrite, andThen_done, hrun, ← hu.cfg]
    | rate table =>
      cases hr : rateEntry table rateHz with
      | none =>
        rw [hookIssued_rate_of_none hr] at hissued
        simp at hissued
      | some r =>
        rw [hookIssued_rate hr] at hissued hready
        rcases append_eq_append_cons hissued with ⟨ws', rfl, hrest⟩ | ⟨post', hentry⟩
        · rw [List.length_append, ← List.replicate_append_replicate, List.append_assoc] at hanswers
          obtain ⟨u, hwrites, hu⟩ := runHookWrites_of_ok (s := { s with hookSub := 0 })
            (fun x hx => hready x (List.mem_append_left _ hx)) hanswers
          have hu' := (hu.to_scratch (a := s.hookIdx)).of_scratch (u.hookIdx + 1) u.hookSub
          obtain ⟨v, hrun, hv⟩ := ih (s := { u with hookIdx := u.hookIdx + 1 }) (hu'.rate.trans hrate)
            (.of_cfg (fun x hx => hready x (List.mem_append_right _ hx)) hu'.cfg) hrest (by rw [← hl, ← hu'.cfg])
            hu'.answers
          refine ⟨v, ?_, hu'.trans hv⟩
          rw [runHookSteps, runHookStep_rate_of_some (hrate.symm ▸ hr), hwrites, andThen_done, hrun, ← hu'.cfg]
        · obtain ⟨u, hwrites, hu⟩ := runHookWrites_of_busErr (s := { s with hookSub := 0 }) (post := post')
            (fun x hx => hready x (List.mem_append_left _ (hentry ▸ hx))) hl hanswers
          refine ⟨u, ?_, hu.to_scratch (a := s.hookIdx)⟩
          rw [runHookSteps, runHookStep_rate_of_some (hrate.symm ▸ hr), hentry, hwrites, andThen_raised]

end writes

/-! ### The whole hook -/

theorem hookIssued_of_hookPlan {rateHz : BitVec 32} {sts : List HookStep} {ws : List HookWrite}
    (h : hookPlan rateHz sts = some ws) : hookIssued rateHz sts = ws := by
  induction sts generalizing ws with
  | nil => exact Option.some.inj h
  | cons st sts ih =>
    cases st with
    | write w =>
      obtain ⟨ws', hplan, rfl⟩ := Option.map_eq_some_iff.1 h
      rw [hookIssued, ih hplan]
    | rate table =>
      rw [hookPlan] at h
      cases hr : rateEntry table rateHz with
      | none =>
        rw [hr] at h
        cases h
      | some r =>
        rw [hr] at h
        obtain ⟨ws', hplan, rfl⟩ := Option.map_eq_some_iff.1 h
        rw [hookIssued_rate hr, ih hplan]

/-- Before a RATE step that does not know the rate, a hook issues the writes of the WRITE steps before it, and has no
plan. -/
theorem hook_before_unknown_rate {rateHz : BitVec 32} {table : List RateEntry}
    (h : rateEntry table rateHz = none) (ws : List HookWrite) (post : List HookStep) :
    hookIssued rateHz (ws.map HookStep.write ++ .rate table :: post) = ws ∧
      hookPlan rateHz (ws.map HookStep.write ++ .rate table :: post) = none := by
  induction ws with
  | nil => exact ⟨hookIssued_rate_of_none h post, by rw [List.map_nil, List.nil_append, hookPlan, h]⟩
  | cons w ws ih =>
    obtain ⟨hissued, hplan⟩ := ih
    exact ⟨by rw [List.map_cons, List.cons_append, hookIssued, hissued],
      by rw [List.map_cons, List.cons_append, hookPlan, hplan, Option.map_none]⟩

theorem mem_stepWrites_of_mem_hookIssued {rateHz : BitVec 32} {sts : List HookStep} {w : HookWrite}
    (hw : w ∈ hookIssued rateHz sts) : w ∈ sts.flatMap stepWrites := by
  induction sts with
  | nil => cases hw
  | cons st sts ih =>
    rw [List.flatMap_cons, List.mem_append]
    cases st with
    | write w' =>
      rw [hookIssued, List.mem_cons] at hw
      exact hw.imp (fun heq => List.mem_singleton.2 heq) ih
    | rate table =>
      cases hr : rateEntry table rateHz with
      | none =>
        rw [hookIssued_rate_of_none hr] at hw
        cases hw
      | some r =>
        rw [hookIssued_rate hr, List.mem_append] at hw
        exact hw.imp (fun hentry => List.mem_flatMap.2 ⟨r, List.mem_of_find?_eq_some hr, hentry⟩) ih

/-- On a well-formed variant every field that the hook names is defined and lies at a register (WF4, WF6). -/
theorem hookReady_of_variantWf {s : State} {h : TuneHook} (hv : variantWf s.cfg.widths s.cfg.variant = true)
    (hhook : s.cfg.variant.tuneHook = some h) (rateHz : BitVec 32) :
    HookReady s (hookIssued rateHz (hookSteps h s.protoType)) := by
  intro w hw
  have hfield := hookSteps_subset hhook s.protoType
    (List.mem_map_of_mem (f := HookWrite.field) (mem_stepWrites_of_mem_hookIssued hw))
  obtain ⟨w', hw', heq⟩ := List.mem_map.1 hfield
  obtain ⟨fld, hl⟩ := Option.isSome_iff_exists.1 (definesField_of_mem_hookWrites hv hw')
  rw [heq] at hl
  exact ⟨fld, hl, registerAt_of_variantWf hv hl⟩

theorem hookSteps_eq_ite (h : TuneHook) (p : ProtoType) : hookSteps h p = if p = .pcie then h.pcie else h.usb3 := by
  cases p <;> rfl

/-- What a hook leaves after its writes, with its scratch state free. -/
theorem leaveHook_frame {ws : List HookWrite} {rest : List WriteAnswer} {s u : State} (h : WritesDone ws rest s u) :
    leaveHook u = { s with
      trace := (leaveHook u).trace, regs := (leaveHook u).regs, hookIdx := (leaveHook u).hookIdx
      hookSub := (leaveHook u).hookSub, env := (leaveHook u).env } := by
  rw [h.frame]
  rfl

/-- The whole of a hook whose writes are all answered OK. -/
theorem exec_hook_of_ok {s : State} {h : TuneHook} {rest : List WriteAnswer}
    (hv : variantWf s.cfg.widths s.cfg.variant = true) (hhook : s.cfg.variant.tuneHook = some h)
    (hanswers : s.env.writes =
      List.replicate (hookIssued s.cfg.refclkRateHz (hookSteps h s.protoType)).length .ok ++ rest) :
    ∃ u, exec .hook s =
        complete (onState leaveHook (afterWrites s.cfg.refclkRateHz (hookSteps h s.protoType) u)) ∧
      WritesDone (hookIssued s.cfg.refclkRateHz (hookSteps h s.protoType)) rest s u := by
  obtain ⟨u, hrun, hu⟩ := runHookSteps_of_ok (s := { s with hookIdx := 0 }) rfl
    (hookReady_of_variantWf (s := { s with hookIdx := 0 }) hv hhook _) hanswers
  exact ⟨u, by rw [exec_hook_of_some hhook, hrun], hu.to_scratch (b := s.hookSub)⟩

/-- Settles O32: the two forms of a variant, and a hook with a plan. -/
theorem hookWritesItsPlan : Obligations.HookWritesItsPlan := by
  refine ⟨rfl, fun s hnone => exec_hook_of_none hnone, fun s h ws rest hv hhook hplan hanswers => ?_⟩
  rw [← hookSteps_eq_ite] at hplan
  have hissued := hookIssued_of_hookPlan hplan
  obtain ⟨u, hexec, hu⟩ := exec_hook_of_ok (rest := rest) hv hhook (by rw [hissued]; exact hanswers)
  rw [hissued] at hu
  refine ⟨advance (leaveHook u), ?_, ?_, hu.trace, hu.regs, ?_⟩
  · rw [hexec, afterWrites, hplan]
    rfl
  · rw [advance_upc, leaveHook_upc, hu.frame]
  · rw [leaveHook_frame hu]
    rfl

/-- Settles O33: the RATE step, after the writes before it. -/
theorem hookUnknownRateAborts : Obligations.HookUnknownRateAborts := by
  intro s h ws table post rest hv hhook hsteps hunknown hanswers
  rw [← hookSteps_eq_ite] at hsteps
  have hentry : rateEntry table s.cfg.refclkRateHz = none :=
    List.find?_eq_none.2 fun r hr => by simpa using hunknown r hr
  obtain ⟨hissued, hplan⟩ := hook_before_unknown_rate hentry ws post
  rw [← hsteps] at hissued hplan
  obtain ⟨u, hexec, hu⟩ := exec_hook_of_ok (rest := rest) hv hhook (by rw [hissued]; exact hanswers)
  rw [hissued] at hu
  refine ⟨leaveHook u, ?_, hu.trace, hu.regs, leaveHook_frame hu⟩
  rw [hexec, afterWrites, hplan, onState_raised, complete_raised]

/-- Settles O34: the failing write, after the writes before it. -/
theorem hookBusErrorAborts : Obligations.HookBusErrorAborts := by
  intro s h ws post w fld landed rest hv hhook hissued hl hanswers
  rw [← hookSteps_eq_ite] at hissued
  obtain ⟨u, hrun, hu'⟩ := runHookSteps_of_busErr (s := { s with hookIdx := 0 }) rfl
    (hookReady_of_variantWf (s := { s with hookIdx := 0 }) hv hhook _) hissued hl hanswers
  have hu : WritesDone ws (.busErr landed :: rest) s u := hu'.to_scratch (b := s.hookSub)
  have hnext := nextWrite_of_cons hu.answers
  refine ⟨leaveHook (busWrite fld.offset (writeWord s.cfg.widths fld w.enabled) u).2, ?_, ?_, ?_, ?_⟩
  · rw [exec_hook_of_some hhook, hrun, onState_raised, complete_raised]
  · rw [leaveHook_trace, busWrite_trace, busWrite_fst, hnext, hu.trace]
    rfl
  · rw [leaveHook_regs, busWrite_regs, hnext, hu.regs, hu.cfg, maskHalf_writeWord, dataHalf_writeWord]
    rfl
  · rw [busWrite_eq, hu.frame]
    rfl

end Sys2Proof.Machine

/-!
PROOFS. The bound of a poll (spec/42_status_poller.md R126): each round waits, and a time check that is passed says that
the waits so far have not exceeded the timeout, so that the waits to come are bounded by what is left of it.
-/

namespace Sys2Proof.Machine

/-! ### Counting reads -/

theorem countReads_append (a : Nat) (evs evs' : List Event) :
    countReads a (evs ++ evs') = countReads a evs + countReads a evs' := List.countP_append

theorem countReads_afterRead (fld : RegisterField) (s : State) :
    countReads fld.offset (afterRead fld s).trace = countReads fld.offset s.trace + 1 := by
  rw [afterRead_trace, countReads_append]
  simp [countReads]

theorem countReads_afterRound (fld : RegisterField) (s : State) :
    countReads fld.offset (afterRound fld s).trace = countReads fld.offset s.trace + 1 := by
  have htrace : (afterRound fld s).trace = (afterRead fld s).trace ++ [.delay .pollInterval s.cfg.pollIntervalUs] := rfl
  rw [htrace, countReads_append, countReads_afterRead]
  rfl

/-- An abort reads nothing. -/
theorem countReads_abort (a : Nat) (e : ErrorCode) (s : State) :
    countReads a (abort e s).trace = countReads a s.trace := by
  rw [abort_trace, countReads_append, countReads_append]
  split <;> rfl

/-- The action ends in this state, with or without an error. -/
def EndsIn (a : Act) (t : State) : Prop := a = .done t ∨ ∃ e, a = .raised e t

/-- A poll that has waited for `k` rounds, and whose timeout `n` waits more exceed, makes at most `n + 1` reads more. -/
theorem countReads_pollLoop {fld : RegisterField} {c : TimeoutCode} {fuel n k : Nat} {s t : State}
    (hwaited : s.pollT0 + k * s.cfg.pollIntervalUs ≤ s.now)
    (hexceeds : s.cfg.pollTimeoutUs < (k + n) * s.cfg.pollIntervalUs) (hends : EndsIn (pollLoop fld c fuel s) t) :
    countReads fld.offset s.trace + 1 ≤ countReads fld.offset t.trace ∧
      countReads fld.offset t.trace ≤ countReads fld.offset s.trace + (n + 1) := by
  induction fuel generalizing n k s with
  | zero => rcases hends with h | ⟨e, h⟩ <;> cases h
  | succ fuel ih =>
    have hread := countReads_afterRead fld s
    rcases pollLoop_succ fld c fuel s with ⟨-, h⟩ | ⟨w, -, ⟨-, h⟩ | ⟨-, -, h⟩ | ⟨-, hcheck, h⟩⟩
    · rw [h] at hends
      obtain h | ⟨e, h⟩ := hends <;> cases h
      omega
    · rw [h] at hends
      obtain h | ⟨e, h⟩ := hends <;> cases h
      omega
    · rw [h] at hends
      obtain h | ⟨e, h⟩ := hends <;> cases h
      rw [readNow_trace]
      omega
    · have hmore : n ≠ 0 := by
        rintro rfl
        rw [readNow_fst] at hcheck
        have hnow : (afterRead fld s).now = s.now := rfl
        rw [Nat.add_zero] at hexceeds
        omega
      obtain ⟨n, rfl⟩ := Nat.exists_eq_succ_of_ne_zero hmore
      have hround := countReads_afterRound fld s
      obtain ⟨hlow, hhigh⟩ := ih (n := n) (k := k + 1) (s := afterRound fld s)
        (by simp [afterRound, afterRead, Nat.add_mul]; omega)
        (by simpa [afterRound, afterRead, Nat.add_assoc, Nat.add_comm, Nat.add_left_comm] using hexceeds) (h ▸ hends)
      omega

/-- Settles O30: the loop ends, and from its start on no wait has been made. -/
theorem pollReadsAreBounded : Obligations.PollReadsAreBounded := by
  refine ⟨fun p ht hi => by rw [maxPollReads, ht, hi], fun f c fld s hl ha hpos => ?_⟩
  have hbound := fun t => countReads_pollLoop (fld := fld) (c := c) (fuel := pollFuel s) (k := 0) (t := t)
    (n := s.cfg.pollTimeoutUs / s.cfg.pollIntervalUs + 1) (s := enterPoll s) (by simp)
    (by rw [enterPoll_cfg, Nat.zero_add, Nat.mul_comm]; exact Nat.lt_mul_div_succ _ hpos)
  rw [exec_poll hl ha]
  cases hloop : pollLoop fld c (pollFuel s) (enterPoll s) with
  | done u => exact ⟨_, rfl, hbound u (.inl hloop)⟩
  | raised e u =>
    refine ⟨_, rfl, ?_⟩
    rw [countReads_abort]
    exact hbound u (.inr ⟨e, hloop⟩)
  | fault r => exact absurd hloop (pollLoop_enterPoll_ne_fault hpos fld c r)

end Sys2Proof.Machine

/-!
PROOFS. Noninterference (spec/10_state.md R28, R33, R34, R38). A poll and a hook write their scratch state before they
read it, so that what it held does not show, and no other instruction reads it; a command that starts an image writes
ROMSEL and UPC, and no command reads them.
-/

namespace Sys2Proof.Machine

/-! ### Commands -/

/-- A command that ends at once leaves no trace of its acceptance. -/
theorem finish_accepted (cmd : HostCmd) (code : ResultCode) (s : State) :
    finish cmd code { s with busy := true } = finish cmd code s := rfl

/-- What a command does to the state it is accepted in. -/
inductive CommandOp : (State → State) → Prop
  | ends (cmd : HostCmd) (code : ResultCode) : CommandOp (finish cmd code)
  | types (p : ProtoType) : CommandOp fun s => finish .assignType .ok { s with protoType := p }
  | starts (r : RomSel) : CommandOp (startImage r)

/-- States that agree in what a command reads: it does the same in both, or is refused in both. -/
theorem exec_command_same {i : Instr} (hi : i.isCommand = true) {s s' : State} (hbusy : s'.busy = s.busy)
    (htype : s'.protoType = s.protoType) (hstate : s'.seqState = s.seqState) (hcfg : s'.cfg = s.cfg) :
    (∃ r, exec i s = .refused r ∧ exec i s' = .refused r) ∨
      ∃ f, CommandOp f ∧ exec i s = .next (f s) ∧ exec i s' = .next (f s') := by
  cases hb : s.busy with
  | true => exact .inl ⟨_, exec_command_of_busy hi hb, exec_command_of_busy hi (hbusy.trans hb)⟩
  | false =>
    have hb' := hbusy.trans hb
    cases i with
    | assignType x =>
      cases hx : requestedType x with
      | none =>
        rw [exec_assignType_of_unsupported hb hx, exec_assignType_of_unsupported hb' hx]
        exact .inr ⟨_, .ends _ _, rfl, rfl⟩
      | some p =>
        rw [exec_assignType_of_supported hb hx, exec_assignType_of_supported hb' hx, finish_accepted, finish_accepted,
          finish_accepted, finish_accepted, htype]
        split_ifs
        · exact .inr ⟨_, .types p, rfl, rfl⟩
        · exact .inr ⟨_, .ends _ _, rfl, rfl⟩
        · exact .inr ⟨_, .ends _ _, rfl, rfl⟩
    | init =>
      rw [exec_init_of_idle hb, exec_init_of_idle hb', finish_accepted, finish_accepted, htype, hstate]
      split_ifs
      · exact .inr ⟨_, .ends _ _, rfl, rfl⟩
      · exact .inl ⟨_, rfl, rfl⟩
      · exact .inr ⟨_, .starts _, rfl, rfl⟩
    | exit =>
      rw [exec_exit_of_idle hb, exec_exit_of_idle hb']
      exact .inr ⟨_, .starts _, rfl, rfl⟩
    | complianceTest =>
      rw [exec_complianceTest_of_idle hb, exec_complianceTest_of_idle hb', finish_accepted, finish_accepted,
        finish_accepted, finish_accepted, htype, hcfg]
      split_ifs
      · exact .inr ⟨_, .ends _ _, rfl, rfl⟩
      · exact .inr ⟨_, .starts _, rfl, rfl⟩
      · exact .inr ⟨_, .ends _ _, rfl, rfl⟩
    | _ => cases hi

/-- The state with its position cleared, unless an image runs. -/
def clearPosition (t : State) : State := if t.busy then t else { t with romsel := .pcie, upc := 0#6 }

/-- A command does not read the position, and writes it where it starts an image. -/
theorem clearPosition_commandOp {f : State → State} (hf : CommandOp f) (s : State) (r : RomSel) (u : BitVec 6) :
    clearPosition (f { s with romsel := r, upc := u }) = clearPosition (f s) := by
  cases hf <;> rfl

theorem exec_position (i : Instr) (hi : i.isCommand = true) (s : State) (r : RomSel) (u : BitVec 6) :
    overNext clearPosition (exec i { s with romsel := r, upc := u }) = overNext clearPosition (exec i s) := by
  rcases exec_command_same hi (s := s) (s' := { s with romsel := r, upc := u }) rfl rfl rfl rfl with
    ⟨q, hs, hs'⟩ | ⟨f, hf, hs, hs'⟩
  · rw [hs, hs']
  · rw [hs, hs', overNext_next, overNext_next, clearPosition_commandOp hf]

/-! ### Scratch state -/

/-- The state with its scratch state cleared. -/
def clearScratch (t : State) : State := { t with pollT0 := 0, pollN := 0, hookIdx := 0, hookSub := 0 }

/-- The state with the hook's scratch state cleared. -/
def clearHook (t : State) : State := { t with hookIdx := 0, hookSub := 0 }

theorem abort_clearScratch (e : ErrorCode) (s : State) : abort e (clearScratch s) = clearScratch (abort e s) := by
  rw [abort_eq, abort_eq]
  rfl

theorem complete_clearScratch (a : Act) : complete (onState clearScratch a) = overNext clearScratch (complete a) := by
  cases a with
  | done s => rfl
  | raised e s => exact congrArg Host.Outcome.next (abort_clearScratch e s)
  | fault r => rfl

/-- What scratch state has no part in agrees in states that agree but for it. -/
theorem eq_of_clearScratch {α : Type} {g : State → α} (hg : ∀ t, g (clearScratch t) = g t) {s s' : State}
    (h : clearScratch s = clearScratch s') : g s = g s' := by
  rw [← hg s, h, hg s']

/-- Actions that end alike but for scratch state. -/
def SameButScratch (a a' : Act) : Prop := onState clearScratch a = onState clearScratch a'

/-- What an action goes on with sees nothing of scratch state. -/
def ScratchBlind (k : State → Act) : Prop :=
  ∀ s s', clearScratch s = clearScratch s' → SameButScratch (k s) (k s')

theorem sameButScratch_andThen {a a' : Act} {k : State → Act} (ha : SameButScratch a a') (hk : ScratchBlind k) :
    SameButScratch (andThen a k) (andThen a' k) := by
  unfold SameButScratch at ha
  cases a <;> cases a' <;> simp only [onState_done, onState_raised, onState_fault, Act.done.injEq, Act.raised.injEq,
    reduceCtorEq] at ha
  case done.done s s' => exact hk s s' ha
  case raised.raised e s e' s' =>
    obtain ⟨rfl, hs⟩ := ha
    exact congrArg (Act.raised e) hs
  case fault.fault r r' => rw [ha]; rfl

/-- A continuation that commutes with clearing sees nothing of scratch state. -/
theorem scratchBlind_of_commute {k : State → Act} (hk : ∀ s, k (clearScratch s) = onState clearScratch (k s)) :
    ScratchBlind k := fun s s' h => by rw [SameButScratch, ← hk, ← hk, h]

theorem withField_clearScratch {k k' : RegisterField → Act} (hk : ∀ fld, k' fld = onState clearScratch (k fld))
    (f : FieldId) (s : State) : withField f (clearScratch s) k' = onState clearScratch (withField f s k) := by
  obtain rfl : k' = fun fld => onState clearScratch (k fld) := funext hk
  simp only [withField, clearScratch]
  cases lookupField s.cfg.variant f with
  | none => rfl
  | some fld =>
    simp only [apply_ite (onState _)]
    rfl

theorem writeField_clearScratch (f : FieldId) (e : Bool) (s : State) :
    writeField f e (clearScratch s) = onState clearScratch (writeField f e s) := by
  refine withField_clearScratch (fun fld => ?_) f s
  simp only [busWrite, clearScratch]
  cases (nextWrite s.env).1 with
  | ok => rfl
  | busErr landed => rfl

theorem scratchBlind_writeField (f : FieldId) (e : Bool) : ScratchBlind (writeField f e) :=
  scratchBlind_of_commute (writeField_clearScratch f e)

theorem scratchBlind_runHookWrites (ws : List HookWrite) : ScratchBlind (runHookWrites ws) := by
  induction ws with
  | nil => exact fun s s' h => congrArg Act.done h
  | cons w ws ih =>
    intro s s' h
    exact sameButScratch_andThen (scratchBlind_writeField _ _ s s' h) fun t t' ht => ih _ _ ht

theorem scratchBlind_runHookStep (st : HookStep) : ScratchBlind (runHookStep st) := by
  cases st with
  | write w => exact scratchBlind_writeField _ _
  | rate table =>
    intro s s' h
    have hcfg : s.cfg = s'.cfg := eq_of_clearScratch (fun _ => rfl) h
    cases hr : rateEntry table s.cfg.refclkRateHz with
    | none =>
      rw [runHookStep_rate_of_none hr, runHookStep_rate_of_none (hcfg ▸ hr)]
      exact congrArg (Act.raised _) h
    | some r =>
      rw [runHookStep_rate_of_some hr, runHookStep_rate_of_some (hcfg ▸ hr)]
      exact scratchBlind_runHookWrites r.writes _ _ h

theorem scratchBlind_runHookSteps (sts : List HookStep) : ScratchBlind (runHookSteps sts) := by
  induction sts with
  | nil => exact fun s s' h => congrArg Act.done h
  | cons st sts ih =>
    intro s s' h
    exact sameButScratch_andThen (scratchBlind_runHookStep st s s' h) fun t t' ht => ih _ _ ht

/-! ### Micro-operations -/

/-- An instruction whose outcome scratch state has no part in. -/
theorem exec_scratch_of_commute {i : Instr}
    (hi : ∀ s, exec i (clearScratch s) = overNext clearScratch (exec i s)) {s s' : State}
    (h : clearScratch s = clearScratch s') : overNext clearScratch (exec i s) = overNext clearScratch (exec i s') := by
  rw [← hi, ← hi, h]

theorem complete_sameButScratch {a a' : Act} (h : SameButScratch a a') :
    overNext clearScratch (complete a) = overNext clearScratch (complete a') := by
  rw [← complete_clearScratch, ← complete_clearScratch, h]

theorem driveLine_clearScratch (l : ResetLine) (b : Bool) (s : State) :
    driveLine l b (clearScratch s) = clearScratch (driveLine l b s) := by
  cases h : getLine s.rst l with
  | none => rw [driveLine_of_absent h, driveLine_of_absent (s := clearScratch s) h]
  | some level =>
    rw [driveLine_of_present h, driveLine_of_present (s := clearScratch s) h]
    rfl

theorem exec_clken_clearScratch (s : State) :
    exec .clken (clearScratch s) = overNext clearScratch (exec .clken s) := by
  cases h : (nextClock s.env).1 with
  | true =>
    rw [exec_clken_of_prepared h, exec_clken_of_prepared (s := clearScratch s) h]
    rfl
  | false =>
    rw [exec_clken_of_unprepared h, exec_clken_of_unprepared (s := clearScratch s) h, overNext_next,
      ← abort_clearScratch]
    rfl

/-- The loop of a poll has its own scratch state, and none of the hook's. -/
theorem pollLoop_clearHook (fld : RegisterField) (c : TimeoutCode) (n : Nat) (s : State) :
    pollLoop fld c n (clearHook s) = onState clearHook (pollLoop fld c n s) := by
  induction n generalizing s with
  | zero => rfl
  | succ n ih =>
    cases h : (busRead fld.offset s).1 with
    | busErr =>
      rw [pollLoop_of_busErr h, pollLoop_of_busErr (s := clearHook s) h]
      rfl
    | word w =>
      rw [pollLoop_of_word h, pollLoop_of_word (s := clearHook s) h, apply_ite (onState _), apply_ite (onState _),
        ← ih (afterRound fld s)]
      rfl

theorem onState_onState (g h : State → State) (a : Act) : onState g (onState h a) = onState (g ∘ h) a := by
  cases a <;> rfl

/-- A poll writes its scratch state before it reads it. -/
theorem sameButScratch_poll (fld : RegisterField) (c : TimeoutCode) (n : Nat) {s s' : State}
    (h : clearHook (enterPoll s) = clearHook (enterPoll s')) :
    SameButScratch (onState leavePoll (pollLoop fld c n (enterPoll s)))
      (onState leavePoll (pollLoop fld c n (enterPoll s'))) := by
  have hclear : ∀ a, onState clearScratch (onState leavePoll a) =
      onState clearScratch (onState leavePoll (onState clearHook a)) := fun a => by
    simp only [onState_onState]
    rfl
  rw [SameButScratch, hclear, ← pollLoop_clearHook, h, pollLoop_clearHook, ← hclear]

theorem withField_sameButScratch {f : FieldId} {s s' : State} {k k' : RegisterField → Act} (hcfg : s.cfg = s'.cfg)
    (hk : ∀ fld, SameButScratch (k fld) (k' fld)) : SameButScratch (withField f s k) (withField f s' k') := by
  rw [SameButScratch]
  simp only [withField, hcfg]
  cases lookupField s'.cfg.variant f with
  | none => rfl
  | some fld => simp only [apply_ite (onState _), show onState clearScratch (k fld) = _ from hk fld]

theorem exec_poll_scratch (f : FieldId) (c : TimeoutCode) {s s' : State} (h : clearScratch s = clearScratch s') :
    overNext clearScratch (exec (.poll f c) s) = overNext clearScratch (exec (.poll f c) s') := by
  have hcfg : s.cfg = s'.cfg := eq_of_clearScratch (fun _ => rfl) h
  have hfuel : pollFuel s = pollFuel s' := eq_of_clearScratch (fun _ => rfl) h
  have henter : clearHook (enterPoll s) = clearHook (enterPoll s') := 
    eq_of_clearScratch (g := fun t => clearHook (enterPoll t)) (fun _ => rfl) h
  refine complete_sameButScratch (withField_sameButScratch hcfg fun fld => ?_)
  rw [hfuel]
  exact sameButScratch_poll fld c _ henter

theorem exec_hook_scratch {s s' : State} (h : clearScratch s = clearScratch s') :
    overNext clearScratch (exec .hook s) = overNext clearScratch (exec .hook s') := by
  have hcfg : s.cfg = s'.cfg := eq_of_clearScratch (fun _ => rfl) h
  cases hhook : s.cfg.variant.tuneHook with
  | none =>
    rw [exec_hook_of_none hhook, exec_hook_of_none (hcfg ▸ hhook)]
    exact congrArg (fun t => Host.Outcome.next (advance t)) h
  | some hook =>
    have hsteps : hookSteps hook s.protoType = hookSteps hook s'.protoType :=
      eq_of_clearScratch (g := fun t => hookSteps hook t.protoType) (fun _ => rfl) h
    rw [exec_hook_of_some hhook, exec_hook_of_some (hcfg ▸ hhook), ← hsteps]
    refine complete_sameButScratch ?_
    have hclear : ∀ a, onState clearScratch (onState leaveHook a) =
        onState clearScratch (onState leaveHook (onState clearScratch a)) := fun a => by
      simp only [onState_onState]
      rfl
    have hrun : onState clearScratch _ = onState clearScratch _ :=
      scratchBlind_runHookSteps (hookSteps hook s.protoType) { s with hookIdx := 0 } { s' with hookIdx := 0 } h
    rw [SameButScratch, hclear, hrun, ← hclear]

/-- Scratch state has no part in the outcome of an instruction. -/
theorem exec_scratch (i : Instr) {s s' : State} (h : clearScratch s = clearScratch s') :
    overNext clearScratch (exec i s) = overNext clearScratch (exec i s') := by
  cases hi : i.isCommand with
  | true =>
    have hbusy : s'.busy = s.busy := eq_of_clearScratch (fun _ => rfl) h.symm
    have htype : s'.protoType = s.protoType := eq_of_clearScratch (fun _ => rfl) h.symm
    have hstate : s'.seqState = s.seqState := eq_of_clearScratch (fun _ => rfl) h.symm
    have hcfg : s'.cfg = s.cfg := eq_of_clearScratch (fun _ => rfl) h.symm
    rcases exec_command_same hi hbusy htype hstate hcfg with ⟨r, hs, hs'⟩ | ⟨f, hf, hs, hs'⟩
    · rw [hs, hs']
    · have hcommute : ∀ t, clearScratch (f t) = clearScratch (f (clearScratch t)) := by
        intro t
        cases hf <;> rfl
      rw [hs, hs', overNext_next, overNext_next, hcommute s, h, ← hcommute s']
  | false =>
    cases i with
    | endOp => exact exec_scratch_of_commute (fun _ => rfl) h
    | setst st => exact exec_scratch_of_commute (fun _ => rfl) h
    | rsta l =>
      refine exec_scratch_of_commute (fun t => ?_) h
      exact congrArg (fun u => Host.Outcome.next (advance u)) (driveLine_clearScratch l true t)
    | rstd l =>
      refine exec_scratch_of_commute (fun t => ?_) h
      exact congrArg (fun u => Host.Outcome.next (advance u)) (driveLine_clearScratch l false t)
    | clken => exact exec_scratch_of_commute exec_clken_clearScratch h
    | clkdis => exact exec_scratch_of_commute (fun _ => rfl) h
    | delay k => exact exec_scratch_of_commute (fun _ => rfl) h
    | wrf f e => exact complete_sameButScratch (scratchBlind_writeField f e s s' h)
    | poll f c => exact exec_poll_scratch f c h
    | hook => exact exec_hook_scratch h
    | _ => cases hi

/-- Settles O50. -/
theorem openValuesAreNotRead : Obligations.OpenValuesAreNotRead :=
  ⟨fun i _ _ _ _ _ => exec_scratch i rfl, fun i s r u hi => exec_position i hi s r u⟩

end Sys2Proof.Machine

/-!
PROOFS. A PCIe bring-up that meets favourable answers (spec/45_sequencer.md R200). Of a state, what a micro-operation of
an image reads and changes is seen through a view; a micro-operation that meets the answers it hopes for passes from one
view to the next, and so does a list of them.
-/

namespace Sys2Proof.Machine

/-- What the micro-operations of a bring-up that goes well read and change. -/
structure View where
  seqState : SeqState
  clkEn : Bool
  rst : PerLine (Option Bool)
  trace : List Event
  clocks : List Bool
  reads : List ReadAnswer

def State.view (s : State) : View where
  seqState := s.seqState
  clkEn := s.clkEn
  rst := s.rst
  trace := s.trace
  clocks := s.env.clocks
  reads := s.env.reads

/-- A micro-operation that meets the answers it hopes for: its line is present, the clock is ready, there is no hook,
and the first word read matches. -/
inductive Passes (c : Params) : Instr → View → View → Prop
  | setst (st : SeqState) (v : View) :
      Passes c (.setst st) v { v with seqState := st, trace := v.trace ++ [.state st] }
  | rstd (l : ResetLine) (v : View) (hpresent : getLine v.rst l ≠ none) :
      Passes c (.rstd l) v { v with rst := setLine v.rst l (some false), trace := v.trace ++ [.rst l false] }
  | clken (v : View) {rest : List Bool} (hready : v.clocks = true :: rest) :
      Passes c .clken v { v with clocks := rest, clkEn := true, trace := v.trace ++ [.clk true] }
  | delay (k : DelayKind) (v : View) :
      Passes c (.delay k) v { v with trace := v.trace ++ [.delay (delayWait k) (delayUs c k)] }
  | hook (v : View) (hnone : c.variant.tuneHook = none) : Passes c .hook v v
  | poll {f : FieldId} (code : TimeoutCode) (v : View) {fld : RegisterField} {w : Nat} {rest : List ReadAnswer}
      (hl : lookupField c.variant f = some fld) (ha : registerAt c.widths fld.offset)
      (hread : v.reads = .word w :: rest) (hw : w < 2 ^ c.widths.regBits)
      (hmatch : extractField fld w = fld.enableValue) :
      Passes c (.poll f code) v { v with reads := rest, trace := v.trace ++ [.rd fld.offset (.word w)] }

/-- A list of micro-operations each of which meets the answers it hopes for. -/
inductive PassesAll (c : Params) : List Instr → View → View → Prop
  | nil (v : View) : PassesAll c [] v v
  | cons {i : Instr} {is : List Instr} {v v' v'' : View} (hi : Passes c i v v') (his : PassesAll c is v' v'') :
      PassesAll c (i :: is) v v''

/-- What a list of micro-operations that all pass leaves alone. -/
structure SameBoard (s t : State) : Prop where
  cfg : t.cfg = s.cfg
  regs : t.regs = s.regs
  romsel : t.romsel = s.romsel

theorem SameBoard.refl (s : State) : SameBoard s s := ⟨rfl, rfl, rfl⟩

theorem SameBoard.trans {s t u : State} (h : SameBoard s t) (h' : SameBoard t u) : SameBoard s u :=
  ⟨h'.cfg.trans h.cfg, h'.regs.trans h.regs, h'.romsel.trans h.romsel⟩

/-- What a micro-operation that passes does before it advances. -/
structure Passed (s u : State) (v : View) : Prop where
  view : u.view = v
  board : SameBoard s u
  busy : u.busy = s.busy
  rom : u.rom = s.rom
  upc : u.upc = s.upc

theorem nextElapsed_clocks (d : Draws) : (nextElapsed d).2.clocks = d.clocks := by
  unfold nextElapsed
  split <;> rfl

theorem nextClock_of_cons {d : Draws} {b : Bool} {rest : List Bool} (h : d.clocks = b :: rest) :
    nextClock d = (b, { d with clocks := rest }) := by
  rw [nextClock, h]

/-- A poll whose first word matches. -/
theorem exec_poll_of_match {f : FieldId} {fld : RegisterField} {s : State} {w : Nat} {rest : List ReadAnswer}
    (hl : lookupField s.cfg.variant f = some fld) (ha : registerAt s.cfg.widths fld.offset)
    (hread : s.env.reads = .word w :: rest) (hw : w < 2 ^ s.cfg.widths.regBits)
    (hmatch : extractField fld w = fld.enableValue) (code : TimeoutCode) :
    ∃ u, exec (.poll f code) s = .next (advance u) ∧
      Passed s u { s.view with reads := rest, trace := s.trace ++ [.rd fld.offset (.word w)] } := by
  have hreads : (enterPoll s).env.reads = .word w :: rest := (nextElapsed_reads s.env).trans hread
  have hword : (busRead fld.offset (enterPoll s)).1 = .word w := busRead_fst_of_word hreads hw _
  have henv := afterRead_env hreads fld
  have hfuel : pollFuel s = s.cfg.pollTimeoutUs / s.cfg.pollIntervalUs + 1 + s.env.reads.length + 1 := by
    rw [pollFuel, maxPollReads]
    omega
  have htrace : (afterRead fld (enterPoll s)).trace = s.trace ++ [.rd fld.offset (.word w)] := by
    rw [afterRead_trace, hword, enterPoll_trace]
  have hrest : (afterRead fld (enterPoll s)).env.reads = rest := by rw [henv]
  have hclocks : (afterRead fld (enterPoll s)).env.clocks = s.env.clocks := by
    rw [henv]
    exact nextElapsed_clocks s.env
  have hframe := leavePoll_frame (pollEffect_afterRead fld (enterPoll s))
  refine ⟨leavePoll (afterRead fld (enterPoll s)), ?_, ?_, ⟨?_, ?_, ?_⟩, ?_, ?_, ?_⟩
  · rw [exec_poll hl ha, hfuel, pollLoop_of_word hword, if_pos hmatch, onState_done, complete_done]
  · rw [← htrace, ← hrest]
    exact congrArg (fun x => { s.view with clocks := x, reads := _, trace := _ : View }) hclocks
  all_goals rw [hframe]

theorem exec_of_passes {i : Instr} {s : State} {v : View} (h : Passes s.cfg i s.view v) :
    ∃ u, exec i s = .next (advance u) ∧ Passed s u v := by
  cases h with
  | setst st => exact ⟨_, exec_setst st s, rfl, ⟨rfl, rfl, rfl⟩, rfl, rfl, rfl⟩
  | rstd l _ hpresent =>
    obtain ⟨level, hlevel⟩ := Option.ne_none_iff_exists'.1 hpresent
    refine ⟨_, exec_rstd l s, ?_⟩
    rw [driveLine_of_present hlevel]
    exact ⟨rfl, ⟨rfl, rfl, rfl⟩, rfl, rfl, rfl⟩
  | clken _ hready =>
    have hnext := nextClock_of_cons hready
    refine ⟨_, exec_clken_of_prepared (by rw [hnext]), ?_, ⟨rfl, rfl, rfl⟩, rfl, rfl, rfl⟩
    rw [hnext]
    rfl
  | delay k => exact ⟨_, exec_delay k s, rfl, ⟨rfl, rfl, rfl⟩, rfl, rfl, rfl⟩
  | hook _ hnone => exact ⟨s, exec_hook_of_none hnone, rfl, .refl s, rfl, rfl, rfl⟩
  | poll code _ hl ha hread hw hmatch => exact exec_poll_of_match hl ha hread hw hmatch code

/-- A run through micro-operations that all pass. -/
theorem UopsAhead.run_passesAll {is js : List Instr} {v : View} {s : State} (h : UopsAhead (is ++ js) s)
    (hpass : PassesAll s.cfg is s.view v) :
    ∃ t, UopsAhead js t ∧ t.view = v ∧ SameBoard s t ∧
      ∀ n, Host.Core.run Sys2Proof.core (is.length + n) s = Host.Core.run Sys2Proof.core n t := by
  induction is generalizing s with
  | nil =>
    cases hpass
    exact ⟨s, h, rfl, .refl s, fun n => by rw [List.length_nil, Nat.zero_add]⟩
  | cons i is ih =>
    cases hpass with
    | cons hi his =>
      obtain ⟨u, hexec, hu⟩ := exec_of_passes hi
      obtain ⟨hahead, hstep⟩ := h.run_advance hexec hu.busy hu.rom hu.board.romsel hu.upc
      have hboard : SameBoard s (advance u) := ⟨hu.board.cfg, hu.board.regs, hu.board.romsel⟩
      have hview : (advance u).view = _ := hu.view
      obtain ⟨t, hrest, hv, ht, hrun⟩ := ih hahead (by rw [hview, hboard.cfg]; exact his)
      refine ⟨t, hrest, hv, hboard.trans ht, fun n => ?_⟩
      rw [List.length_cons, Nat.succ_add, hstep, hrun]

/-- What favourable answers make of ROM_PCIE before its END. -/
theorem passesAll_pcieInstrs {c : Params} {v : View} {clocks : List Bool} {pll lane : RegisterField} {w w' : Nat}
    {reads : List ReadAnswer} (hhook : c.variant.tuneHook = none) (hclocks : v.clocks = true :: clocks)
    (hreads : v.reads = .word w :: .word w' :: reads) (hw : w < 2 ^ c.widths.regBits)
    (hw' : w' < 2 ^ c.widths.regBits) (hpll : lookupField c.variant fieldPllLock = some pll)
    (hlane : lookupField c.variant fieldLaneReady = some lane) (hpllAt : registerAt c.widths pll.offset)
    (hlaneAt : registerAt c.widths lane.offset) (hmatch : extractField pll w = pll.enableValue)
    (hmatch' : extractField lane w' = lane.enableValue) (hpor : v.rst.por ≠ none) (hregbus : v.rst.regbus ≠ none)
    (hdatapath : v.rst.datapath ≠ none) :
    PassesAll c pcieInstrs.dropLast v
      { seqState := .ready, clkEn := true, clocks := clocks, reads := reads
        rst := { ctrl := v.rst.ctrl, por := some false, regbus := some false, datapath := some false }
        trace := v.trace ++
          [.state .poweringOn, .clk true, .rst .por false, .delay .settle c.tSettleUs, .rst .regbus false,
           .delay .settle c.tSettleUs, .state .configuring, .state .waitingPllLock,
           .delay .prelockPcie c.tPrelockPcieUs, .rd pll.offset (.word w), .state .waitingLaneReady,
           .rst .datapath false, .rd lane.offset (.word w'), .state .ready] } := by
  have hpass : PassesAll c pcieInstrs.dropLast v _ :=
    .cons (.setst .poweringOn _) <| .cons (.clken _ hclocks) <| .cons (.rstd .por _ hpor) <|
    .cons (.delay .settle _) <| .cons (.rstd .regbus _ hregbus) <| .cons (.delay .settle _) <|
    .cons (.setst .configuring _) <| .cons (.hook _ hhook) <| .cons (.setst .waitingPllLock _) <|
    .cons (.delay .prelockPcie _) <| .cons (.poll .pllLock _ hpll hpllAt hreads hw hmatch) <|
    .cons (.setst .waitingLaneReady _) <| .cons (.rstd .datapath _ hdatapath) <|
    .cons (.poll .laneReady _ hlane hlaneAt rfl hw' hmatch') <| .cons (.setst .ready _) <| .nil _
  simpa [delayWait, delayUs, setLine] using hpass

/-- Settles O60: INIT starts ROM_PCIE, each micro-operation before its END passes, and the END ends it. -/
theorem pcieInitReachesReady : Obligations.PcieInitReachesReady := by
  intro s rest clocks pll lane w w' reads hinv hb hidle htype hhook hcmds hclocks hreads hw hw' hpll hlane hmatch
    hmatch' hpor hregbus hdatapath
  have hstart : step s = .next (startImage .pcie { s with hostCmds := rest }) := by
    rw [step_of_decodeCmd_eq_some hb hcmds (i := .init) rfl, exec_init_of_idle (s := { s with hostCmds := rest }) hb]
    simp [htype, hidle, bringUpImage]
  have hahead : UopsAhead (pcieInstrs.dropLast ++ [.endOp]) (startImage .pcie { s with hostCmds := rest }) :=
    uopsAhead_startImage (by rw [hinv.images]; exact romPcie_map_decodeUop) (by decide)
  obtain ⟨t, hend, hview, hboard, hrun⟩ := hahead.run_passesAll (passesAll_pcieInstrs hhook hclocks hreads hw hw' hpll
    hlane (hinv.registerAt hpll) (hinv.registerAt hlane) hmatch hmatch' hpor hregbus hdatapath)
  have htrace : t.trace = s.trace ++ _ := congrArg View.trace hview
  refine ⟨finish (imageCommand t.romsel) .ok t, ?_, rfl, congrArg View.seqState hview, rfl, congrArg View.clkEn hview,
    hboard.regs, congrArg View.rst hview, ?_⟩
  · rw [run_succ_of_step hstart 16]
    exact (hrun 1).trans (hend.run_succ (exec_endOp t) 0)
  · have hromsel : t.romsel = .pcie := hboard.romsel
    rw [finish_trace, htrace, hromsel, List.append_assoc]
    rfl

end Sys2Proof.Machine
